-- ==== Sys2Proof/Word.lean ====
section
/-!
DEFINITION. The bit-vector widths of FTBC (00_scope.md R10, R11): every value is unsigned, bit 0 is the least significant.
-/
namespace Sys2Proof

/-- A byte of the payload buffer, of the stream, or a header byte (00_scope.md R8). -/
abbrev Byte := BitVec 8

/-- A host register, a bus data word or a bus offset (00_scope.md R10). -/
abbrev Word := BitVec 32

/-- A 4-bit field: the checksum, OP, CODEC_CFG.SIZE, BSIZE, RSIZE, K (00_scope.md R8, 10_state.md R46, R49 to R51). -/
abbrev Nibble := BitVec 4

/-- The 3-bit size code of a header byte (30_encoding.md R110), and a 3-bit pin code of the stream port (20_memory.md R91). -/
abbrev Code3 := BitVec 3

/-- The 33-bit timeout counter ELAPSED (10_state.md R52). -/
abbrev Elapsed := BitVec 33

end Sys2Proof
end

