-- ==== Sys2Proof/Syntax.lean ====
section
/-!
DEFINITION. The commands of FTBC, which it has in place of instructions (30_encoding.md R113, 00_scope.md R14): one
constructor per row of spec/opcode_table.json. No command has an operand field: operands come from registers (R116). The
two rows that stand for several reserved opcodes carry the opcode; bits 31:4 of the command word are ignored (R113) and
are not kept.
-/
namespace Sys2Proof

/-- One constructor per row of spec/opcode_table.json. -/
inductive Instr where
  /-- CHECKSUM, OP 0x1 (40_codec.md R143). -/
  | checksum
  /-- ENCODE_HEADER, OP 0x2 (40_codec.md R144). -/
  | encodeHeader
  /-- DECODE_HEADER, OP 0x3 (40_codec.md R145). -/
  | decodeHeader
  /-- SEND, OP 0x4 (41_send.md R170). -/
  | send
  /-- RECEIVE, OP 0x5 (42_receive.md R200). -/
  | receive
  /-- ILLEGAL (OP 0x0) (30_encoding.md R115). -/
  | illegalOp0
  /-- ILLEGAL (OP 0x6-0x7) (30_encoding.md R115). -/
  | illegalOp6to7 (op : Nibble)
  /-- ILLEGAL (OP 0x8-0xF) (30_encoding.md R115). -/
  | illegalOp8toF (op : Nibble)
deriving DecidableEq, Repr

end Sys2Proof
end

