-- ==== Sys2Proof/WellFormed.lean ====
section
/-!
DEFINITION. Which terms of `Instr` stand for a command word: the opcode a reserved-opcode row carries lies in that row's
range (30_encoding.md R113, spec/opcode_table.json).
-/
namespace Sys2Proof

/-- The opcode carried by a reserved row lies in the row's range. -/
def Instr.wf : Instr → Bool
  | .checksum => true
  | .encodeHeader => true
  | .decodeHeader => true
  | .send => true
  | .receive => true
  | .illegalOp0 => true
  | .illegalOp6to7 op => decide (6 ≤ op.toNat ∧ op.toNat ≤ 7)
  | .illegalOp8toF op => decide (8 ≤ op.toNat)

end Sys2Proof
end

