-- ==== Sys2Proof/Decode.lean ====
section
/-!
DEFINITION. Decoding and encoding of the command word (30_encoding.md R113), and the opcode table as rows. Decoding is
total and refuses no word: bits 31:4 are ignored, and each of the 16 values of OP has a row, the reserved ones among them
(R115, R118), so there is no encoding left to reject by name (log entry 13).
-/
namespace Sys2Proof

/-- OP, bits 3:0 of the command word (30_encoding.md R113). -/
def cmdOp (w : Word) : Nibble := w.extractLsb' 0 4

/-- The command of each opcode (30_encoding.md R113). -/
def decodeOp (op : Nibble) : Instr :=
  match op.toNat with
  | 0 => .illegalOp0
  | 1 => .checksum
  | 2 => .encodeHeader
  | 3 => .decodeHeader
  | 4 => .send
  | 5 => .receive
  | 6 => .illegalOp6to7 op
  | 7 => .illegalOp6to7 op
  | _ => .illegalOp8toF op

/-- The command a 32-bit write to CMD asks for (30_encoding.md R113, R114). -/
def decode (w : Word) : Instr := decodeOp (cmdOp w)

/-- The opcode of a command (30_encoding.md R113). -/
def encodeOp : Instr → Nibble
  | .checksum => 0x1
  | .encodeHeader => 0x2
  | .decodeHeader => 0x3
  | .send => 0x4
  | .receive => 0x5
  | .illegalOp0 => 0x0
  | .illegalOp6to7 op => op
  | .illegalOp8toF op => op

/-- The command word of a command, the ignored bits 31:4 written as zeros (30_encoding.md R113, log entry 12). -/
def encode (i : Instr) : Word := (encodeOp i).setWidth 32

/-- The value of the `nbits` low bits of `w` as a 32-bit command word, every bit above them 0. -/
def commandWord (nbits w : Nat) : Word := BitVec.ofNat 32 (w % 2 ^ nbits)

/-- What the decoder reads from an instruction whose bits are `w`, numbered as spec/opcode_table.json numbers them. A
command is one 32-bit bus write, so there is one word and no byte order to settle (20_memory.md R82). -/
def decodeTableWord (nbits w : Nat) : Option Instr := some (decode (commandWord nbits w))

/-- The mask of a command's row in spec/opcode_table.json. -/
def tableMask : Instr → Word
  | .checksum => 0x0000000F
  | .encodeHeader => 0x0000000F
  | .decodeHeader => 0x0000000F
  | .send => 0x0000000F
  | .receive => 0x0000000F
  | .illegalOp0 => 0x0000000F
  | .illegalOp6to7 _ => 0x0000000E
  | .illegalOp8toF _ => 0x00000008

/-- The match value of a command's row in spec/opcode_table.json. -/
def tableMatch : Instr → Word
  | .checksum => 0x00000001
  | .encodeHeader => 0x00000002
  | .decodeHeader => 0x00000003
  | .send => 0x00000004
  | .receive => 0x00000005
  | .illegalOp0 => 0x00000000
  | .illegalOp6to7 _ => 0x00000006
  | .illegalOp8toF _ => 0x00000008

end Sys2Proof
end

