-- ==== Sys2Proof/Machine/Input.lean ====
section
/-!
DEFINITION. What reaches FTBC from outside in one clock cycle (00_scope.md R15): the host's bus access, the stream port's
responses, the tick and the reset input; and what FTBC shows outside in that cycle. These are plain data. The FSM state and
error-code names stand in Machine/State.lean.
-/
namespace Sys2Proof.Machine

/-- The size n of a host access, in {1, 2, 4} bytes (20_memory.md R81). -/
inductive AccessSize where
  | one
  | two
  | four
deriving DecidableEq, Repr, Inhabited

/-- The host's bus access of a cycle: at most one (20_memory.md R81). Its place is an address on the bus in what the host
presents, and an offset from BASE in what FTBC's rules read (00_scope.md R9, 20_memory.md R80, log entry 9). -/
inductive HostAccess where
  /-- No access in this cycle. -/
  | quiet
  /-- `HostRead(off, n)`. -/
  | read (off : Word) (n : AccessSize)
  /-- `HostWrite(off, n, v)`. -/
  | write (off : Word) (n : AccessSize) (v : Word)
deriving DecidableEq, Repr, Inhabited

/-- The access with its place replaced. -/
def HostAccess.mapPlace (f : Word → Word) : HostAccess → HostAccess
  | .quiet => .quiet
  | .read off n => .read (f off) n
  | .write off n v => .write (f off) n v

/-- The inputs FTBC samples in one clock cycle: `rst` (70_reset_and_hazards.md R300), the host access (20_memory.md R81),
the 3-bit response pins of the stream port and its read byte (R90 to R92), and `tick` (R94). -/
structure CycleInput where
  rst    : Bool
  access : HostAccess
  txPins : Code3
  rxPins : Code3
  rxData : Byte
  tick   : Bool
deriving DecidableEq, Repr, Inhabited

/-- These inputs, given with the access's address on the bus, with its offset from BASE (00_scope.md R9, log entry 9). -/
def CycleInput.fromBus (inp : CycleInput) (base : Word) : CycleInput :=
  { inp with access := inp.access.mapPlace (· - base) }

/-- These inputs, given with the access's offset from BASE, with its address on the bus (00_scope.md R9, log entry 9). -/
def CycleInput.toBus (inp : CycleInput) (base : Word) : CycleInput :=
  { inp with access := inp.access.mapPlace (base + ·) }

/-- A `tx_resp` value (20_memory.md R91). -/
inductive TxResp where
  | wait
  | accept
  | short
  | fail
  | closed
deriving DecidableEq, Repr

/-- An `rx_resp` value, DATA with the byte `rx_data` (20_memory.md R92). -/
inductive RxResp where
  | noData
  | data (b : Byte)
  | fail
  | closed
deriving DecidableEq, Repr

/-- The bus's answer to the access of a cycle (20_memory.md R81). -/
inductive BusResponse where
  /-- No access was made. -/
  | quiet
  /-- The access completed with `berr` = 0 and this read-data word. -/
  | readData (d : Word)
  /-- `berr` = 1: no state changes and the read data is 0x00000000 (20_memory.md R81). -/
  | busError
deriving DecidableEq, Repr, Inhabited

/-- What FTBC's pins showed in a cycle: the stream port's outputs (20_memory.md R90), `irq` (60_exceptions.md R270), the bus
response (20_memory.md R81), and the byte that moved on each side of the stream, if one did (R88). -/
structure CycleOutput where
  txValid  : Bool
  txData   : Byte
  rxRd     : Bool
  irq      : Bool
  bus      : BusResponse
  sent     : Option Byte
  consumed : Option Byte
deriving DecidableEq, Repr, Inhabited

end Sys2Proof.Machine
end

