-- ==== Sys2Proof/Config.lean ====
section
/-!
DEFINITION. The protocol constants the spec fixes (00_scope.md R8), the parameters it leaves open (R9) and the free values:
opaque constants without a body, of which nothing can be proved (93_implementation_defined.md "any value").
-/
namespace Sys2Proof

/-- MAX_BLOCK: a block carries at most 8 payload bytes, "a protocol constant, not a tunable" (00_scope.md R8). -/
def Config.maxBlock : Nat := 8

/-- The generator 0x13 without its x^4 term (40_codec.md R140, 92_eei_decisions.md D13). -/
def Config.crcPoly : Nibble := 0x3

/-- The offset of the BUF window (10_state.md R34). -/
def Config.bufWindow : Nat := 0x1000

/-- The least BUF_BYTES the spec allows (00_scope.md R9, P-BUF). -/
def Config.minBufBytes : Nat := 8

/-- The greatest BUF_BYTES the spec allows (00_scope.md R9, P-BUF). -/
def Config.maxBufBytes : Nat := 2 ^ 24

/-- DESIGN CHOICE (log entry 3), unsafe: the BUF_BYTES that the state after reset carries. The spec leaves the parameter
open; 64 is the size its own vectors take (95_test_vectors.md). No statement rests on this number: statements are about
every state, so about every `bufBytes`. -/
def Config.resetBufBytes : Nat := 64

/-- DESIGN CHOICE (log entry 9), unsafe: the BASE that the state after reset carries. The spec leaves the parameter open, and no
rule depends on its value (92_eei_decisions.md P-BASE). No statement rests on this number. -/
def Config.resetBase : Word := 0

/-- FREE VALUE (93_implementation_defined.md I1, log entry 4): the unknown byte that index `i` of BUF holds, in the contents
numbered `epoch`, until something writes it. -/
opaque Config.unwrittenByte (epoch i : Nat) : Byte

/-- FREE VALUE (93_implementation_defined.md I2, I4, log entry 2): what the environment presents in the cycle with this
number, where the state holds no input script. -/
opaque Config.environment (cycle : Nat) : Machine.CycleInput

/-- FREE VALUE (log entry 16): the read-data word of the bus's answer to a write in the cycle with this number, to which
20_memory.md R81 gives a word and no value. -/
opaque Config.writeReadData (cycle : Nat) : Word

end Sys2Proof
end

