-- ==== Sys2Proof/Machine/State.lean ====
section
/-!
DEFINITION. The state of FTBC as plain data (10_state.md R30), its reset value (70_reset_and_hazards.md R300), and the
reasons a step can stop.
-/
namespace Sys2Proof.Machine

/-- The FSM states (10_state.md R33); the codes 9 to 15 never occur, so they have no constructor. -/
inductive FsmState where
  | idle
  | sHdr
  | sPay
  | sAck
  | rHdr
  | rPay
  | rChk
  | rAck
  | rFlush
deriving DecidableEq, Repr

/-- The error codes held in ERR.CODE (60_exceptions.md R260); 13 to 15 are never written, so they have no constructor. -/
inductive ErrCode where
  | noError
  | streamClosed
  | writeShort
  | writeFailed
  | readTimeout
  | readFailed
  | checksumMismatch
  | sizeExceedsBuffer
  | sequenceMismatch
  | ackMismatch
  | invalidSize
  | illegalCommand
  | lengthTooLarge
deriving DecidableEq, Repr

/-- The thirteen host registers (10_state.md R34). -/
inductive Reg where
  | ctrl
  | cmd
  | status
  | err
  | len
  | timeout
  | result
  | pos
  | hdr
  | codecData0
  | codecData1
  | codecCfg
  | codecRes
deriving DecidableEq, Repr

/-- What a bus access reaches (20_memory.md R82 to R85). -/
inductive BusTarget where
  /-- A host register. -/
  | register (r : Reg)
  /-- The buffer bytes from this index on. -/
  | buffer (i : Nat)
  /-- Nothing: the access gets `berr` = 1. -/
  | nowhere
deriving DecidableEq, Repr

/-- Why a step can stop with a fault. -/
inductive Fault where
  /-- SAFE (log entry 7). Raised by the engine, where it would read or write a buffer index at or above BUF_BYTES: BUF has no
  such byte (10_state.md R53). In every state that meets the spec's invariants (R56) it is never raised. -/
  | bufferIndexOutOfRange
deriving DecidableEq, Repr

/-- Why a step can be refused. -/
inductive Refusal where
  /-- SAFE. Raised by `exec` for a command that has no meaning yet; no arm raises it now. -/
  | notModelled (mnemonic : String)
deriving DecidableEq, Repr

/-- The whole state of FTBC. Views such as STATUS.BUSY are functions of it (Machine/Flags.lean). -/
structure State where
  /-- CTRL.IRQ_EN (10_state.md R35). -/
  irqEn : Bool
  /-- CTRL.RX_PARTIAL (10_state.md R35). -/
  rxPartial : Bool
  /-- STATUS.DONE (10_state.md R37). -/
  done : Bool
  /-- ERR.CODE (10_state.md R38). -/
  err : ErrCode
  /-- LEN (10_state.md R39). -/
  len : Word
  /-- TIMEOUT (10_state.md R40). -/
  timeout : Word
  /-- RESULT (10_state.md R42). -/
  result : Word
  /-- POS (10_state.md R43). -/
  pos : Word
  /-- HDR.HEADER (10_state.md R44). -/
  hdr : Byte
  /-- CODEC_DATA0 (10_state.md R45). -/
  codecData0 : Word
  /-- CODEC_DATA1 (10_state.md R45). -/
  codecData1 : Word
  /-- CODEC_CFG.SIZE (10_state.md R46). -/
  cfgSize : Nibble
  /-- CODEC_CFG.IS_FIRST (10_state.md R46). -/
  cfgIsFirst : Bool
  /-- CODEC_CFG.HDR_IN (10_state.md R46). -/
  cfgHdrIn : Byte
  /-- CODEC_RES.CK (10_state.md R47). -/
  resCk : Nibble
  /-- CODEC_RES.HDR_OUT (10_state.md R47). -/
  resHdrOut : Byte
  /-- CODEC_RES.DEC_CK (10_state.md R47). -/
  resDecCk : Nibble
  /-- CODEC_RES.DEC_FIRST (10_state.md R47). -/
  resDecFirst : Bool
  /-- CODEC_RES.DEC_SIZE (10_state.md R47). -/
  resDecSize : Code3
  /-- STATE, the FSM state register (10_state.md R32, R33). -/
  fsm : FsmState
  /-- FIRST (10_state.md R41). -/
  first : Bool
  /-- BSIZE (10_state.md R49). -/
  bsize : Nibble
  /-- RSIZE (10_state.md R50). -/
  rsize : Nibble
  /-- K (10_state.md R51). -/
  k : Nibble
  /-- ELAPSED (10_state.md R52). -/
  elapsed : Elapsed
  /-- BUF (10_state.md R53): the bytes written since the contents became unknown, by rising index. -/
  buf : List Host.Cell
  /-- Model's own: BASE, a parameter the model takes as an argument (00_scope.md R9, log entry 9). -/
  base : Word
  /-- Model's own: BUF_BYTES, a parameter the model takes as an argument (00_scope.md R9, log entry 3). -/
  bufBytes : Nat
  /-- Model's own: which unknown contents the unwritten bytes of BUF hold (log entry 4). -/
  bufEpoch : Nat
  /-- Model's own: the number of the coming cycle, at which the environment is drawn (log entry 2). -/
  cycle : Nat
  /-- Model's own: the inputs of the coming cycles, as far as they are drawn already (log entry 2). -/
  inputs : List CycleInput
  /-- Model's own: what the pins showed in the last cycle (log entry 18). -/
  out : CycleOutput
deriving DecidableEq, Repr

/-- No pin active and no byte moved. -/
def quietOutput : CycleOutput where
  txValid := false
  txData := 0
  rxRd := false
  irq := false
  bus := .quiet
  sent := none
  consumed := none

/-- The machine right after reset (70_reset_and_hazards.md R300), the model's own fields at the values of log entries 2,
3, 4, 9 and 18. -/
def State.reset : State where
  irqEn := false
  rxPartial := false
  done := false
  err := .noError
  len := 0
  timeout := 0
  result := 0
  pos := 0
  hdr := 0
  codecData0 := 0
  codecData1 := 0
  cfgSize := 0
  cfgIsFirst := false
  cfgHdrIn := 0
  resCk := 0
  resHdrOut := 0
  resDecCk := 0
  resDecFirst := false
  resDecSize := 0
  fsm := .idle
  first := false
  bsize := 0
  rsize := 0
  k := 0
  elapsed := 0
  buf := []
  base := Config.resetBase
  bufBytes := Config.resetBufBytes
  bufEpoch := 0
  cycle := 0
  inputs := []
  out := quietOutput

end Sys2Proof.Machine
end

