-- ==== Sys2Proof/Machine/Flags.lean ====
section
/-!
DEFINITION. The status flags and every register as the host reads it (10_state.md R34 to R48), and the codes of STATE and
ERR.CODE. FTBC has no condition codes (R48).
-/
namespace Sys2Proof.Machine

/-- The code of an FSM state (10_state.md R33). -/
def fsmCode : FsmState → Nibble
  | .idle => 0
  | .sHdr => 1
  | .sPay => 2
  | .sAck => 3
  | .rHdr => 4
  | .rPay => 5
  | .rChk => 6
  | .rAck => 7
  | .rFlush => 8

/-- The number of an error code (60_exceptions.md R260). -/
def errNumber : ErrCode → Nibble
  | .noError => 0
  | .streamClosed => 1
  | .writeShort => 2
  | .writeFailed => 3
  | .readTimeout => 4
  | .readFailed => 5
  | .checksumMismatch => 6
  | .sizeExceedsBuffer => 7
  | .sequenceMismatch => 8
  | .ackMismatch => 9
  | .invalidSize => 10
  | .illegalCommand => 11
  | .lengthTooLarge => 12

/-- STATUS.BUSY: 1 exactly when STATE ≠ IDLE (10_state.md R37). -/
def State.busy (s : State) : Bool := decide (s.fsm ≠ .idle)

/-- STATUS.ERRF: 1 exactly when ERR.CODE ≠ 0 (10_state.md R37). -/
def State.errf (s : State) : Bool := decide (s.err ≠ .noError)

/-- irq = CTRL.IRQ_EN AND STATUS.DONE (60_exceptions.md R270). -/
def State.irq (s : State) : Bool := s.irqEn && s.done

/-- A host register as a bus read returns it: reserved bits and CMD read 0 (10_state.md R34 to R47, 20_memory.md R82). -/
def readRegister (r : Reg) (s : State) : Word :=
  match r with
  | .ctrl => 0#30 ++ BitVec.ofBool s.rxPartial ++ BitVec.ofBool s.irqEn
  | .cmd => 0
  | .status =>
    0#24 ++ fsmCode s.fsm ++ BitVec.ofBool s.first ++ BitVec.ofBool s.errf ++ BitVec.ofBool s.done ++ BitVec.ofBool s.busy
  | .err => 0#28 ++ errNumber s.err
  | .len => s.len
  | .timeout => s.timeout
  | .result => s.result
  | .pos => s.pos
  | .hdr => 0#24 ++ s.hdr
  | .codecData0 => s.codecData0
  | .codecData1 => s.codecData1
  | .codecCfg => 0#16 ++ s.cfgHdrIn ++ 0#3 ++ BitVec.ofBool s.cfgIsFirst ++ s.cfgSize
  | .codecRes =>
    0#5 ++ s.resDecSize ++ 0#3 ++ BitVec.ofBool s.resDecFirst ++ s.resDecCk ++ s.resHdrOut ++ 0#4 ++ s.resCk

end Sys2Proof.Machine
end

