-- ==== Sys2Proof/Machine/Header.lean ====
section
/-!
DEFINITION. The pure functions of the block codec: the checksum generator, the header packer and the header unpacker
(40_codec.md R140 to R142, 30_encoding.md R110, R117).
-/
namespace Sys2Proof.Machine

/-- One shift of the checksum register: the feedback bit is c[3] XOR the message bit (40_codec.md R140). -/
def crcShift (c : Nibble) (bit : Bool) : Nibble :=
  if c.getLsbD 3 ^^ bit then (c <<< 1) ^^^ Config.crcPoly else c <<< 1

/-- One byte through the checksum register, MSB first (40_codec.md R140). -/
def crcByte (c : Nibble) (b : Byte) : Nibble :=
  [7, 6, 5, 4, 3, 2, 1, 0].foldl (fun acc j => crcShift acc (b.getLsbD j)) c

/-- `crc4(p, n)`: the first n bytes of p through the register, which starts at 0 (40_codec.md R140). -/
def crc4 (p : List Byte) (n : Nat) : Nibble := (p.take n).foldl crcByte 0

/-- The header byte (CK, F, SC) of a block of n bytes, 1 ≤ n ≤ 8 (30_encoding.md R110, 40_codec.md R141). -/
def packHeader (p : List Byte) (n : Nat) (first : Bool) : Byte :=
  crc4 p n ++ BitVec.ofBool first ++ BitVec.ofNat 3 (n - 1)

/-- `enc(p, n, first)`; `none` is INVALID_SIZE (40_codec.md R141). -/
def enc (p : List Byte) (n : Nat) (first : Bool) : Option Byte :=
  if n = 0 ∨ Config.maxBlock < n then none else some (packHeader p n first)

/-- Bits 7:4 of a header: checksum4 (40_codec.md R142). -/
def headerCk (h : Byte) : Nibble := h.extractLsb' 4 4

/-- Bit 3 of a header: is_first (40_codec.md R142). -/
def headerFirst (h : Byte) : Bool := h.getLsbD 3

/-- Bits 2:0 of a header: size_code (40_codec.md R142). -/
def headerSizeCode (h : Byte) : Code3 := h.extractLsb' 0 3

/-- `dec(h)`: it never fails (40_codec.md R142). -/
def dec (h : Byte) : Nibble × Bool × Code3 := (headerCk h, headerFirst h, headerSizeCode h)

/-- read_size = zext_4(h[2:0]) + 1, from 1 to 8 (30_encoding.md R117). -/
def readSize (h : Byte) : Nibble := (headerSizeCode h).setWidth 4 + 1

end Sys2Proof.Machine
end

