-- ==== Sys2Proof/Machine/Operands.lean ====
section
/-!
DEFINITION. Operand forms: the payload operand of the codec commands (10_state.md R45, 30_encoding.md R116), the response
pins of the stream port (20_memory.md R91, R92), block sizes (10_state.md R49), and the byte order of host accesses
(20_memory.md R83, R86).
-/
namespace Sys2Proof.Machine

/-- The four bytes of a word, the lower index in the less significant byte (10_state.md R45, 20_memory.md R86). -/
def wordBytes (w : Word) : List Byte :=
  [w.extractLsb' 0 8, w.extractLsb' 8 8, w.extractLsb' 16 8, w.extractLsb' 24 8]

/-- p[0..7], the payload operand of CHECKSUM and ENCODE_HEADER (10_state.md R45, 30_encoding.md R116). -/
def State.payload (s : State) : List Byte := wordBytes s.codecData0 ++ wordBytes s.codecData1

/-- The word whose less significant bytes are these, in rising order, zero-extended (20_memory.md R83). -/
def littleEndianWord : List Byte → Word
  | [] => 0
  | b :: bs => (littleEndianWord bs <<< 8) ||| b.setWidth 32

/-- How many bytes an access moves (20_memory.md R81). -/
def accessBytes : AccessSize → Nat
  | .one => 1
  | .two => 2
  | .four => 4

/-- The `tx_resp` of the response pins; the reserved codes 5 to 7 count as FAIL (20_memory.md R91,
93_implementation_defined.md I3, log entry 8). -/
def txRespOf (pins : Code3) : TxResp :=
  match pins.toNat with
  | 0 => .wait
  | 1 => .accept
  | 2 => .short
  | 3 => .fail
  | 4 => .closed
  | _ => .fail

/-- The `rx_resp` of the response pins; the reserved codes 2 and 5 to 7 count as FAIL (20_memory.md R92,
93_implementation_defined.md I3, log entry 8). -/
def rxRespOf (pins : Code3) (b : Byte) : RxResp :=
  match pins.toNat with
  | 0 => .noData
  | 1 => .data b
  | 3 => .fail
  | 4 => .closed
  | _ => .fail

/-- The `tx_resp` of a cycle. -/
def CycleInput.tx (inp : CycleInput) : TxResp := txRespOf inp.txPins

/-- The `rx_resp` of a cycle. -/
def CycleInput.rx (inp : CycleInput) : RxResp := rxRespOf inp.rxPins inp.rxData

/-- min(8, r), the size of the next block when r bytes remain (41_send.md R170, R177; 42_receive.md R200, R212). -/
def blockSize (remaining : Word) : Nibble :=
  BitVec.ofNat 4 (min Config.maxBlock remaining.toNat)

end Sys2Proof.Machine
end

