-- ==== Sys2Proof/Machine/Ops.lean ====
section
/-!
DEFINITION. The shared operations: the payload buffer, command acceptance, the two endings of a command (FTBC's only form
of taking an exception, 60_exceptions.md R262), the offer of a byte to the stream and the timed read of a byte from it.
-/
namespace Sys2Proof.Machine

/-- The answer of a meaning or of a clock edge. -/
abbrev Result := Host.Outcome State Fault Refusal

/-- Go on with `f` where the first half of an edge gave a next state. -/
def andThen (r : Result) (f : State → Result) : Result :=
  match r with
  | .next s => f s
  | .fault e => .fault e
  | .refused e => .refused e

/-! ## The payload buffer -/

/-- The written bytes stand at strictly rising indices. An unlisted index holds no value of its own, so no entry can equal
what an unlisted index holds (log entry 5). -/
def Memory.wf : List Host.Cell → Bool
  | [] => true
  | [_] => true
  | a :: b :: m => decide (a.1 < b.1) && Memory.wf (b :: m)

/-- The byte written last at this index, if any was. -/
def Memory.read : List Host.Cell → Nat → Option Byte
  | [], _ => none
  | c :: m, i => if c.1 = i then some c.2 else Memory.read m i

/-- Write a byte at an index, keeping the indices rising. -/
def Memory.write : List Host.Cell → Nat → Byte → List Host.Cell
  | [], i, b => [(i, b)]
  | c :: m, i, b => if i < c.1 then (i, b) :: c :: m else if c.1 = i then (i, b) :: m else c :: Memory.write m i b

/-- BUF[i]. A byte that nothing has written is unknown: a free value (70_reset_and_hazards.md R301, log entry 4). -/
def State.bufByte (s : State) (i : Nat) : Byte :=
  (Memory.read s.buf i).getD (Config.unwrittenByte s.bufEpoch i)

/-- BUF[a .. a+n−1], in index order (00_scope.md R13). -/
def State.bufBlock (s : State) (a n : Nat) : List Byte :=
  (List.range n).map fun j => s.bufByte (a + j)

/-- `MemWrite(i, 1, b)` (00_scope.md R12). -/
def State.writeByte (s : State) (i : Nat) (b : Byte) : State :=
  { s with buf := Memory.write s.buf i b }

/-- Writes of bytes at rising indices, from index i on (20_memory.md R83). -/
def State.writeBytes (s : State) (i : Nat) : List Byte → State
  | [] => s
  | b :: bs => (s.writeByte i b).writeBytes (i + 1) bs

/-! ## Commands -/

/-- Command acceptance (30_encoding.md R114): with BUSY = 0, DONE is cleared and the command's own rule is carried out at
the same edge; with BUSY = 1 the CMD write is ignored with no other effect (10_state.md R36). -/
def acceptCommand (s : State) (rule : State → Result) : Result :=
  if s.busy then .next s else rule { s with done := false }

/-- The end of a command that completes in its accepting cycle: ERR.CODE and DONE are set directly, without R262
(60_exceptions.md R262, 40_codec.md R143 to R145, 30_encoding.md R115). -/
def State.completeAtOnce (s : State) (code : ErrCode) : State := { s with err := code, done := true }

/-- `raise Abort(code, result)` (60_exceptions.md R262). -/
def State.abort (s : State) (code : ErrCode) (result : Word) : State :=
  { s with err := code, result := result, fsm := .idle, done := true }

/-- `finish(result)` (60_exceptions.md R262). -/
def State.finish (s : State) (result : Word) : State :=
  { s with err := .noError, result := result, fsm := .idle, done := true }

/-- What SEND and RECEIVE do alike at their start (41_send.md R170, 42_receive.md R200): clear ERR, RESULT and POS, end at
once on LEN > BUF_BYTES or LEN = 0, and otherwise go on with FIRST = 1 and the first block's size. -/
def startTransfer (s : State) (go : State → Result) : Result :=
  let s0 := { s with err := .noError, result := 0, pos := 0 }
  if s.bufBytes < s.len.toNat then .next ({ s0 with first := false }.completeAtOnce .lengthTooLarge)
  else if s.len = 0 then .next ({ s0 with first := false }.completeAtOnce .noError)
  else go { s0 with first := true, bsize := blockSize s.len }

/-- What the block advances of SEND and RECEIVE do alike (41_send.md R177, 42_receive.md R212): POS grows by the block's
size, FIRST is cleared, and the command finishes with LEN or goes on with the next block's size. -/
def advanceBlock (s : State) (size : Nibble) (go : State → Result) : Result :=
  let pos' := s.pos + size.setWidth 32
  let s0 := { s with pos := pos', first := false }
  if pos' = s.len then .next (s0.finish s.len)
  else go { s0 with bsize := blockSize (s.len - pos') }

/-! ## The stream -/

/-- The byte offered on the TX side in this cycle (20_memory.md R91): on ACCEPT go on, on WAIT nothing changes, otherwise
the command aborts with `result` (41_send.md R172, R174; 42_receive.md R210). -/
def offerByte (s : State) (tx : TxResp) (result : Word) (accepted : Result) : Result :=
  match tx with
  | .accept => accepted
  | .wait => .next s
  | .short => .next (s.abort .writeShort result)
  | .fail => .next (s.abort .writeFailed result)
  | .closed => .next (s.abort .streamClosed result)

/-- The ELAPSED update of a cycle spent in a timed read: min(ELAPSED + tick, 2^33 − 1) (43_timed_read.md R241). -/
def countTick (e : Elapsed) (tick : Bool) : Elapsed :=
  if tick && decide (e ≠ BitVec.allOnes 33) then e + 1 else e

/-- timeout_expired, on the values at the start of the cycle (43_timed_read.md R242). -/
def State.timeoutExpired (s : State) : Bool :=
  decide (s.timeout ≠ 0) && decide (s.timeout.toNat < s.elapsed.toNat)

/-- A cycle of a timed read (43_timed_read.md R240 to R244): ELAPSED counts the tick, a byte goes to `took`, no byte waits or
times out, and a stream error aborts at once. An edge that enters a timed read sets ELAPSED to 0 over the count (R241). -/
def timedRead (s : State) (rx : RxResp) (tick : Bool) (result : Word) (took : Byte → State → Result) : Result :=
  let s0 := { s with elapsed := countTick s.elapsed tick }
  match rx with
  | .data b => took b s0
  | .noData => .next (if s.timeoutExpired then s0.abort .readTimeout result else s0)
  | .fail => .next (s0.abort .readFailed result)
  | .closed => .next (s0.abort .streamClosed result)

/-! ## Reset -/

/-- The edge of a cycle with `rst` = 1 (70_reset_and_hazards.md R300, R301): every register takes its reset value and BUF
becomes unknown again. The parameters and the environment are not FTBC's and stay. -/
def State.resetEdge (s : State) : State :=
  { State.reset with
    base := s.base
    bufBytes := s.bufBytes
    bufEpoch := s.bufEpoch + 1
    cycle := s.cycle
    inputs := s.inputs
    out := s.out }

end Sys2Proof.Machine
end

