-- ==== Sys2Proof/Machine/Codec.lean ====
section
/-!
DEFINITION. The codec commands (40_codec.md R143 to R145). They take effect at the edge of the CMD write's cycle and never
set BUSY (92_eei_decisions.md D32).
-/
namespace Sys2Proof.Machine

/-- CHECKSUM (40_codec.md R143). -/
def execChecksum (s : State) : Result :=
  acceptCommand s fun s =>
    let n := s.cfgSize.toNat
    if n = 0 ∨ Config.maxBlock < n then .next (s.completeAtOnce .invalidSize)
    else .next ({ s with resCk := crc4 s.payload n }.completeAtOnce .noError)

/-- ENCODE_HEADER (40_codec.md R144). -/
def execEncodeHeader (s : State) : Result :=
  acceptCommand s fun s =>
    match enc s.payload s.cfgSize.toNat s.cfgIsFirst with
    | none => .next (s.completeAtOnce .invalidSize)
    | some h => .next ({ s with resHdrOut := h }.completeAtOnce .noError)

/-- DECODE_HEADER (40_codec.md R145). -/
def execDecodeHeader (s : State) : Result :=
  acceptCommand s fun s =>
    let d := dec s.cfgHdrIn
    .next ({ s with resDecCk := d.1, resDecFirst := d.2.1, resDecSize := d.2.2 }.completeAtOnce .noError)

end Sys2Proof.Machine
end

