-- ==== Sys2Proof/Machine/Illegal.lean ====
section
/-!
DEFINITION. The reserved opcodes: accepting one records ILLEGAL_COMMAND and sets DONE (30_encoding.md R115).
-/
namespace Sys2Proof.Machine

/-- What accepting a reserved opcode does (30_encoding.md R115). -/
def illegalCommand (s : State) : Result :=
  acceptCommand s fun s => .next (s.completeAtOnce .illegalCommand)

/-- ILLEGAL (OP 0x0) (30_encoding.md R115). -/
def execIllegalOp0 (s : State) : Result := illegalCommand s

/-- ILLEGAL (OP 0x6-0x7) (30_encoding.md R115): the same effect for both opcodes. -/
def execIllegalOp6to7 (_op : Nibble) (s : State) : Result := illegalCommand s

/-- ILLEGAL (OP 0x8-0xF) (30_encoding.md R115): the same effect for all eight opcodes. -/
def execIllegalOp8toF (_op : Nibble) (s : State) : Result := illegalCommand s

end Sys2Proof.Machine
end

