-- ==== Sys2Proof/Machine/Receive.lean ====
section
/-!
DEFINITION. RECEIVE and the receive path of the engine (42_receive.md R200 to R218).
-/
namespace Sys2Proof.Machine

/-- Entry to R_HDR: the header read begins (42_receive.md R200, R212, 43_timed_read.md R240). -/
def enterReceiveBlock (s : State) : Result :=
  .next { s with elapsed := 0, fsm := .rHdr }

/-- RECEIVE (42_receive.md R200). -/
def execReceive (s : State) : Result :=
  acceptCommand s fun s => startTransfer s enterReceiveBlock

/-- rxfail, the RESULT of an abort of steps 1 to 4 (42_receive.md R215). -/
def State.rxfail (s : State) : Word := if s.rxPartial then s.pos else 0

/-- State R_HDR (42_receive.md R201 to R204): the size check comes before the sequence check. -/
def rHdrEdge (s : State) (rx : RxResp) (tick : Bool) : Result :=
  timedRead s rx tick s.rxfail fun b s =>
    let s0 := { s with hdr := b, rsize := readSize b }
    if s.bsize.toNat < (readSize b).toNat then .next (s0.abort .sizeExceedsBuffer s.rxfail)
    else if headerFirst b ≠ s.first then .next { s0 with fsm := .rFlush }
    else .next { s0 with k := 0, elapsed := 0, fsm := .rPay }

/-- State R_FLUSH (42_receive.md R205). -/
def rFlushEdge (s : State) (rx : RxResp) : Result :=
  match rx with
  | .data _ => .next s
  | .noData => .next (s.abort .sequenceMismatch s.rxfail)
  | .fail => .next (s.abort .sequenceMismatch s.rxfail)
  | .closed => .next (s.abort .sequenceMismatch s.rxfail)

/-- State R_PAY (42_receive.md R206, R207): the byte goes straight into BUF[POS + K]. -/
def rPayEdge (s : State) (rx : RxResp) (tick : Bool) : Result :=
  timedRead s rx tick s.rxfail fun b s =>
    let i := s.pos.toNat + s.k.toNat
    if i < s.bufBytes then
      let s0 := s.writeByte i b
      if s.k + 1 = s.rsize then .next { s0 with k := 0, fsm := .rChk }
      else .next { s0 with k := s.k + 1 }
    else .fault .bufferIndexOutOfRange

/-- State R_CHK (42_receive.md R208). -/
def rChkEdge (s : State) : Result :=
  let a := s.pos.toNat
  let n := s.rsize.toNat
  if a + n ≤ s.bufBytes then
    if enc (s.bufBlock a n) n s.first = some s.hdr then .next { s with fsm := .rAck }
    else .next (s.abort .checksumMismatch s.rxfail)
  else .fault .bufferIndexOutOfRange

/-- State R_ACK (42_receive.md R209, R210, R212, R213). -/
def rAckEdge (s : State) (tx : TxResp) : Result :=
  offerByte s tx s.pos (advanceBlock s s.rsize enterReceiveBlock)

end Sys2Proof.Machine
end

