-- ==== Sys2Proof/Machine/Send.lean ====
section
/-!
DEFINITION. SEND and the send path of the engine (41_send.md R170 to R182).
-/
namespace Sys2Proof.Machine

/-- Entry to S_HDR (41_send.md R171): HDR becomes the header of the block at POS, K becomes 0. The block lies in BUF in every
state that meets 10_state.md R56; elsewhere the engine would read past BUF_BYTES (log entry 7). -/
def enterSendBlock (s : State) : Result :=
  let a := s.pos.toNat
  let n := s.bsize.toNat
  if a + n ≤ s.bufBytes then
    .next { s with hdr := packHeader (s.bufBlock a n) n s.first, k := 0, fsm := .sHdr }
  else .fault .bufferIndexOutOfRange

/-- SEND (41_send.md R170). -/
def execSend (s : State) : Result :=
  acceptCommand s fun s => startTransfer s enterSendBlock

/-- State S_HDR (41_send.md R172). -/
def sHdrEdge (s : State) (tx : TxResp) : Result :=
  offerByte s tx s.pos (.next { s with k := 0, fsm := .sPay })

/-- State S_PAY (41_send.md R173, R174). -/
def sPayEdge (s : State) (tx : TxResp) : Result :=
  if s.pos.toNat + s.k.toNat < s.bufBytes then
    offerByte s tx (s.pos + s.k.setWidth 32)
      (if s.k + 1 = s.bsize then .next { s with k := 0, elapsed := 0, fsm := .sAck }
       else .next { s with k := s.k + 1 })
  else .fault .bufferIndexOutOfRange

/-- State S_ACK (41_send.md R175 to R178). -/
def sAckEdge (s : State) (rx : RxResp) (tick : Bool) : Result :=
  timedRead s rx tick s.pos fun b s =>
    if b = s.hdr then advanceBlock s s.bsize enterSendBlock
    else .next (s.abort .ackMismatch s.pos)

end Sys2Proof.Machine
end

