-- ==== Sys2Proof/Machine/Dispatch.lean ====
section
/-!
DEFINITION. One arm per command (30_encoding.md R113, R114).
-/
namespace Sys2Proof.Machine

def exec (i : Instr) (s : State) : Host.Outcome State Fault Refusal :=
  match i with
  | .checksum => Sys2Proof.Machine.execChecksum s
  | .encodeHeader => Sys2Proof.Machine.execEncodeHeader s
  | .decodeHeader => Sys2Proof.Machine.execDecodeHeader s
  | .send => Sys2Proof.Machine.execSend s
  | .receive => Sys2Proof.Machine.execReceive s
  | .illegalOp0 => Sys2Proof.Machine.execIllegalOp0 s
  | .illegalOp6to7 op => Sys2Proof.Machine.execIllegalOp6to7 op s
  | .illegalOp8toF op => Sys2Proof.Machine.execIllegalOp8toF op s

end Sys2Proof.Machine
end

