-- ==== Sys2Proof/Machine/Bus.lean ====
section
/-!
DEFINITION. The host bus (20_memory.md R81 to R88): what an access reaches, what a read returns, what a write does.
-/
namespace Sys2Proof.Machine

/-- The register at an offset (10_state.md R34). -/
def registerAt (off : Word) : Option Reg :=
  match off.toNat with
  | 0x000 => some .ctrl
  | 0x004 => some .cmd
  | 0x008 => some .status
  | 0x00C => some .err
  | 0x010 => some .len
  | 0x014 => some .timeout
  | 0x018 => some .result
  | 0x01C => some .pos
  | 0x020 => some .hdr
  | 0x024 => some .codecData0
  | 0x028 => some .codecData1
  | 0x02C => some .codecCfg
  | 0x030 => some .codecRes
  | _ => none

/-- The index in BUF of an access of m bytes at an offset: inside the window, aligned to m, ending inside BUF
(20_memory.md R83, R85). DEDUCED (log entry 25): an aligned access that starts below BUF_BYTES and ends past it, which R83 does
not accept, gets `berr` = 1 and has no effect, like one that starts past it. -/
def bufferIndexAt (bufBytes : Nat) (off : Word) (m : Nat) : Option Nat :=
  let i := off.toNat - Config.bufWindow
  if Config.bufWindow ≤ off.toNat ∧ i % m = 0 ∧ i + m ≤ bufBytes then some i else none

/-- What an access reaches: a register takes 4 bytes only (20_memory.md R82), the BUF window takes aligned accesses (R83),
anything else gets `berr` (R82 to R85). -/
def busTarget (s : State) (off : Word) (n : AccessSize) : BusTarget :=
  match registerAt off with
  | some r => if n = .four then .register r else .nowhere
  | none =>
    match bufferIndexAt s.bufBytes off (accessBytes n) with
    | some i => .buffer i
    | none => .nowhere

/-- What a read returns, from the state at the start of the cycle (20_memory.md R81 to R84). -/
def readBus (s : State) (off : Word) (n : AccessSize) : BusResponse :=
  match busTarget s off n with
  | .register r => .readData (readRegister r s)
  | .buffer i => .readData (littleEndianWord (s.bufBlock i (accessBytes n)))
  | .nowhere => .busError

/-- A write to a register (20_memory.md R82): only writable fields change, and the fields locked by BUSY = 1 keep their values
(10_state.md R35 to R47, 92_eei_decisions.md D12). A write to CMD issues a command (30_encoding.md R114). -/
def writeRegister (r : Reg) (v : Word) (s : State) : Result :=
  match r with
  | .ctrl => .next { s with irqEn := v.getLsbD 0, rxPartial := if s.busy then s.rxPartial else v.getLsbD 1 }
  | .cmd => exec (decode v) s
  | .status => .next { s with done := s.done && !v.getLsbD 1 }
  | .err => .next s
  | .len => .next { s with len := if s.busy then s.len else v }
  | .timeout => .next { s with timeout := if s.busy then s.timeout else v }
  | .result => .next s
  | .pos => .next s
  | .hdr => .next s
  | .codecData0 => .next { s with codecData0 := v }
  | .codecData1 => .next { s with codecData1 := v }
  | .codecCfg =>
    .next { s with cfgSize := v.extractLsb' 0 4, cfgIsFirst := v.getLsbD 4, cfgHdrIn := v.extractLsb' 8 8 }
  | .codecRes => .next s

/-- A write of m bytes to the BUF window: little-endian with BUSY = 0, ignored with BUSY = 1 (20_memory.md R83). -/
def writeBuffer (s : State) (i m : Nat) (v : Word) : State :=
  if s.busy then s else s.writeBytes i ((wordBytes v).take m)

/-- What the host's access does at the edge: reads have no side effect (20_memory.md R88), an access with `berr` changes
nothing (R81). -/
def hostEdge (s : State) (access : HostAccess) : Result :=
  match access with
  | .quiet => .next s
  | .read _ _ => .next s
  | .write off n v =>
    match busTarget s off n with
    | .register r => writeRegister r v s
    | .buffer i => .next (writeBuffer s i (accessBytes n) v)
    | .nowhere => .next s

/-- The bus's answer to the access of a cycle (20_memory.md R81); with `rst` = 1 it is read data 0 and no error, for a write as
for a read (70_reset_and_hazards.md R300). The read-data word of a write without error is free else (log entry 16). -/
def busResponse (s : State) (rst : Bool) (access : HostAccess) : BusResponse :=
  match access with
  | .quiet => .quiet
  | .read off n => if rst then .readData 0 else readBus s off n
  | .write off n _ =>
    if rst then .readData 0
    else
      match busTarget s off n with
      | .nowhere => .busError
      | .register _ => .readData (Config.writeReadData s.cycle)
      | .buffer _ => .readData (Config.writeReadData s.cycle)

end Sys2Proof.Machine
end

