-- ==== Sys2Proof/Machine/Cycle.lean ====
section
/-!
DEFINITION. One clock cycle (92_eei_decisions.md D2): the inputs it samples, the outputs it shows, and its edge.
-/
namespace Sys2Proof.Machine

/-! ## The stream port's outputs (20_memory.md R90) -/

/-- `tx_valid` (20_memory.md R90). -/
def State.txValid (s : State) : Bool :=
  match s.fsm with
  | .sHdr => true
  | .sPay => true
  | .rAck => true
  | .idle => false
  | .sAck => false
  | .rHdr => false
  | .rPay => false
  | .rChk => false
  | .rFlush => false

/-- `tx_data` (20_memory.md R90). -/
def State.txData (s : State) : Byte :=
  match s.fsm with
  | .sHdr => s.hdr
  | .rAck => s.hdr
  | .sPay => s.bufByte (s.pos.toNat + s.k.toNat)
  | .idle => 0
  | .sAck => 0
  | .rHdr => 0
  | .rPay => 0
  | .rChk => 0
  | .rFlush => 0

/-- `rx_rd` (20_memory.md R90). -/
def State.rxRd (s : State) : Bool :=
  match s.fsm with
  | .sAck => true
  | .rHdr => true
  | .rPay => true
  | .rFlush => true
  | .idle => false
  | .sHdr => false
  | .sPay => false
  | .rChk => false
  | .rAck => false

/-- The byte the stream takes in this cycle: ACCEPT while `tx_valid` = 1 (20_memory.md R88, R91). -/
def sentByte (s : State) (inp : CycleInput) : Option Byte :=
  if s.txValid && !inp.rst then
    match inp.tx with
    | .accept => some s.txData
    | .wait => none
    | .short => none
    | .fail => none
    | .closed => none
  else none

/-- The byte FTBC takes from the stream in this cycle: DATA while `rx_rd` = 1 (20_memory.md R88, R92). -/
def consumedByte (s : State) (inp : CycleInput) : Option Byte :=
  if s.rxRd && !inp.rst then
    match inp.rx with
    | .data b => some b
    | .noData => none
    | .fail => none
    | .closed => none
  else none

/-- What the pins show in a cycle; `tx_valid`, `rx_rd` and `irq` are 0 while `rst` = 1 (70_reset_and_hazards.md R300). -/
def cycleOutput (s : State) (inp : CycleInput) : CycleOutput where
  txValid := s.txValid && !inp.rst
  txData := s.txData
  rxRd := s.rxRd && !inp.rst
  irq := s.irq && !inp.rst
  bus := busResponse s inp.rst inp.access
  sent := sentByte s inp
  consumed := consumedByte s inp

/-! ## The edge -/

/-- What the environment presents in the coming cycle, the access with its address on the bus: the next of the script, or the
environment's free draw (log entry 2). -/
def State.drawnInput (s : State) : CycleInput :=
  match s.inputs with
  | [] => Config.environment s.cycle
  | inp :: _ => inp

/-- The inputs of the coming cycle as FTBC's rules read them, the access with its offset from BASE (00_scope.md R9, log
entry 9). -/
def State.nextInput (s : State) : CycleInput := s.drawnInput.fromBus s.base

/-- The state as the coming cycle's rules read it: its inputs are taken and its outputs recorded; nothing of the spec's
state changes. -/
def State.sampled (s : State) : State :=
  { s with cycle := s.cycle + 1, inputs := s.inputs.tail, out := cycleOutput s s.nextInput }

/-- The engine's transition at the edge of a cycle (10_state.md R32, R33). -/
def engineEdge (s : State) (inp : CycleInput) : Result :=
  match s.fsm with
  | .idle => .next s
  | .sHdr => sHdrEdge s inp.tx
  | .sPay => sPayEdge s inp.tx
  | .sAck => sAckEdge s inp.rx inp.tick
  | .rHdr => rHdrEdge s inp.rx inp.tick
  | .rPay => rPayEdge s inp.rx inp.tick
  | .rChk => rChkEdge s
  | .rAck => rAckEdge s inp.tx
  | .rFlush => rFlushEdge s inp.rx

/-- The edge of a cycle with these inputs (20_memory.md R81, 70_reset_and_hazards.md R300). The host's access acts first and
the engine, if it was running at the start of the cycle, after it: while it runs the host can change nothing the engine
reads (92_eei_decisions.md D12), and of the two writes of DONE the engine's set stands (10_state.md R37, log entry 1). -/
def clockEdge (s : State) (inp : CycleInput) : Result :=
  if inp.rst then .next s.resetEdge
  else andThen (hostEdge s inp.access) fun h => if s.busy then engineEdge h inp else .next h

end Sys2Proof.Machine
end

