-- ==== Sys2Proof/Machine/Step.lean ====
section
/-!
DEFINITION. The step of the machine is one clock cycle (92_eei_decisions.md D2).
-/
namespace Sys2Proof.Machine

/-- One clock cycle. -/
def step (s : State) : Host.Outcome State Fault Refusal := clockEdge s.sampled s.nextInput

/-- The inputs of a cycle in which the host writes this command word to CMD, at its offset, and nothing else happens. -/
def commandInput (w : Word) : CycleInput where
  rst := false
  access := .write 0x004 .four w
  txPins := 0
  rxPins := 0
  rxData := 0
  tick := false

/-- s with the host about to write this command to CMD: the coming cycle's input is that write, and the engine is IDLE, which
is what accepting a command takes (30_encoding.md R114, log entry 11). -/
def State.withFetchWord (s : State) (nbits w : Nat) : State :=
  { s with inputs := (commandInput (commandWord nbits w)).toBus s.base :: s.inputs, fsm := .idle }

end Sys2Proof.Machine
end

