-- ==== Sys2Proof/Safety.lean ====
section
/-!
DEFINITION. What counts as a safe state (the invariants of 10_state.md R56), and the terms the statements use: the
registers the engine works on, the registers only the host works on, and the bytes a run puts on the stream.
-/
namespace Sys2Proof.Machine

/-! ## The invariant -/

/-- The parameter lies in its range (00_scope.md R9), and the buffer holds bytes of BUF only, in canonical form. -/
abbrev State.bufferOk (s : State) : Prop :=
  Config.minBufBytes ≤ s.bufBytes ∧ s.bufBytes ≤ Config.maxBufBytes ∧
    Memory.wf s.buf = true ∧ ∀ c ∈ s.buf, c.1 < s.bufBytes

/-- While BUSY = 1 (10_state.md R56): 1 ≤ BSIZE ≤ 8, POS < LEN ≤ BUF_BYTES and BSIZE = min(8, LEN − POS); and ERR, RESULT and
DONE are as the start of the command left them (70_reset_and_hazards.md R314). -/
abbrev State.transferOk (s : State) : Prop :=
  s.fsm ≠ .idle →
    1 ≤ s.bsize.toNat ∧ s.bsize.toNat ≤ Config.maxBlock ∧ s.pos.toNat < s.len.toNat ∧ s.len.toNat ≤ s.bufBytes ∧
      s.bsize.toNat = min Config.maxBlock (s.len.toNat - s.pos.toNat) ∧
      s.err = .noError ∧ s.result = 0 ∧ s.done = false

/-- In S_HDR, S_PAY and S_ACK HDR is the header of the block at POS; in S_PAY K < BSIZE (10_state.md R56). -/
abbrev State.sendOk (s : State) : Prop :=
  (s.fsm = .sHdr ∨ s.fsm = .sPay ∨ s.fsm = .sAck →
    enc (s.bufBlock s.pos.toNat s.bsize.toNat) s.bsize.toNat s.first = some s.hdr) ∧
  (s.fsm = .sPay → s.k.toNat < s.bsize.toNat)

/-- In R_PAY, R_CHK and R_ACK 1 ≤ RSIZE ≤ BSIZE, HDR[3] = FIRST and HDR[2:0] = RSIZE − 1; in R_PAY K < RSIZE
(10_state.md R56). -/
abbrev State.receiveOk (s : State) : Prop :=
  (s.fsm = .rPay ∨ s.fsm = .rChk ∨ s.fsm = .rAck →
    1 ≤ s.rsize.toNat ∧ s.rsize.toNat ≤ s.bsize.toNat ∧ headerFirst s.hdr = s.first ∧
      (headerSizeCode s.hdr).toNat = s.rsize.toNat - 1) ∧
  (s.fsm = .rPay → s.k.toNat < s.rsize.toNat)

/-- The invariants the spec states for every reachable state (10_state.md R56, 70_reset_and_hazards.md R314). -/
abbrev State.Inv (s : State) : Prop := s.bufferOk ∧ s.transferOk ∧ s.sendOk ∧ s.receiveOk

/-! ## Views -/

/-- The registers, the buffer and the parameter that the engine reads or writes; DONE, which the host writes too, apart. -/
structure EngineView where
  err       : ErrCode
  len       : Word
  timeout   : Word
  rxPartial : Bool
  result    : Word
  pos       : Word
  hdr       : Byte
  fsm       : FsmState
  first     : Bool
  bsize     : Nibble
  rsize     : Nibble
  k         : Nibble
  elapsed   : Elapsed
  buf       : List Host.Cell
  bufBytes  : Nat
  bufEpoch  : Nat
deriving DecidableEq, Repr

/-- What the engine works on. -/
def State.engine (s : State) : EngineView where
  err := s.err
  len := s.len
  timeout := s.timeout
  rxPartial := s.rxPartial
  result := s.result
  pos := s.pos
  hdr := s.hdr
  fsm := s.fsm
  first := s.first
  bsize := s.bsize
  rsize := s.rsize
  k := s.k
  elapsed := s.elapsed
  buf := s.buf
  bufBytes := s.bufBytes
  bufEpoch := s.bufEpoch

/-- The registers the engine never reads or writes while it runs, CTRL.IRQ_EN and CODEC_* (10_state.md R35, R45 to R47), and
the parameter BASE. -/
structure HostView where
  irqEn       : Bool
  codecData0  : Word
  codecData1  : Word
  cfgSize     : Nibble
  cfgIsFirst  : Bool
  cfgHdrIn    : Byte
  resCk       : Nibble
  resHdrOut   : Byte
  resDecCk    : Nibble
  resDecFirst : Bool
  resDecSize  : Code3
  base        : Word
deriving DecidableEq, Repr

/-- What only host accesses and codec commands work on, and BASE. -/
def State.hostRegs (s : State) : HostView where
  irqEn := s.irqEn
  codecData0 := s.codecData0
  codecData1 := s.codecData1
  cfgSize := s.cfgSize
  cfgIsFirst := s.cfgIsFirst
  cfgHdrIn := s.cfgHdrIn
  resCk := s.resCk
  resHdrOut := s.resHdrOut
  resDecCk := s.resDecCk
  resDecFirst := s.resDecFirst
  resDecSize := s.resDecSize
  base := s.base

/-- The engine's registers after `raise Abort(code, result)` or, with NONE, `finish(result)` (60_exceptions.md R262). -/
def EngineView.ended (e : EngineView) (code : ErrCode) (result : Word) : EngineView :=
  { e with err := code, result := result, fsm := .idle }

/-- The engine's registers after a cycle of a timed read, as far as ELAPSED goes (43_timed_read.md R241). -/
def EngineView.counted (e : EngineView) (tick : Bool) : EngineView :=
  { e with elapsed := countTick e.elapsed tick }

/-- The three timed-read states (43_timed_read.md R240). -/
def FsmState.timed (f : FsmState) : Bool := f == .sAck || f == .rHdr || f == .rPay

/-- The access writes STATUS with bit 1 = 1, which clears DONE (10_state.md R37). -/
def HostAccess.clearsDone : HostAccess → Bool
  | .quiet => false
  | .read _ _ => false
  | .write off n v => decide (off = 0x008) && decide (n = .four) && v.getLsbD 1

/-- The access writes a command word to CMD (30_encoding.md R114). -/
def HostAccess.isCommand : HostAccess → Bool
  | .quiet => false
  | .read _ _ => false
  | .write off n _ => decide (off = 0x004) && decide (n = .four)

/-- The state with its coming cycle's inputs replaced by these, the access given by its offset. -/
def State.withInput (s : State) (inp : CycleInput) : State :=
  { s with inputs := inp.toBus s.base :: s.inputs.tail }

/-! ## Runs -/

/-- The bytes that the next k cycles put on the stream, in order (20_memory.md R88). -/
def sentDuring : Nat → State → List Byte
  | 0, _ => []
  | k + 1, s =>
    (sentByte s s.nextInput).toList ++
      match step s with
      | .next t => sentDuring k t
      | .fault _ => []
      | .refused _ => []

/-- The bytes that the next k cycles take from the stream, in order (20_memory.md R88). -/
def consumedDuring : Nat → State → List Byte
  | 0, _ => []
  | k + 1, s =>
    (consumedByte s s.nextInput).toList ++
      match step s with
      | .next t => consumedDuring k t
      | .fault _ => []
      | .refused _ => []

/-- In each of the next k cycles there is no reset, the stream accepts at once the byte FTBC offers, and where FTBC waits for
an acknowledgment the peer's echo of the header is there (30_encoding.md R112, 70_reset_and_hazards.md R320). -/
def echoingPeer : Nat → State → Prop
  | 0, _ => True
  | k + 1, s =>
    s.nextInput.rst = false ∧
      (s.txValid = true → s.nextInput.tx = .accept) ∧
      (s.fsm = .sAck → s.nextInput.rx = .data s.hdr) ∧
      ∀ t, step s = .next t → echoingPeer k t

/-- The stream bytes of a transfer of the bytes p in blocks of 8: each block's header, then its payload (30_encoding.md R111,
41_send.md R181). `fuel` bounds the number of blocks. -/
def framesOf : Nat → Bool → List Byte → List Byte
  | 0, _, _ => []
  | fuel + 1, first, p =>
    if p = [] then []
    else
      let n := min Config.maxBlock p.length
      packHeader p n first :: p.take n ++ framesOf fuel false (p.drop n)

/-- The headers of a transfer of these blocks: F = 1 on the first (42_receive.md R217). -/
def headersOf : Bool → List (List Byte) → List Byte
  | _, [] => []
  | first, p :: ps => packHeader p p.length first :: headersOf false ps

/-- The stream bytes of a transfer of these blocks: each block's header, then its payload (30_encoding.md R111). -/
def blockFrames : Bool → List (List Byte) → List Byte
  | _, [] => []
  | first, p :: ps => packHeader p p.length first :: p ++ blockFrames false ps

/-- In these cycles a peer sends the frames of these blocks, each byte there in the first cycle in which it is read, and accepts
each echo at once: a header, the payload bytes, a cycle for the check, and the echo (70_reset_and_hazards.md R320). -/
def framesArrive : Bool → List (List Byte) → List CycleInput → Prop
  | _, [], _ => True
  | first, p :: ps, inputs =>
    ∃ (head chk echo : CycleInput) (l rest : List CycleInput), inputs = head :: l ++ chk :: echo :: rest ∧
      (∀ x ∈ head :: l ++ [chk, echo], x.rst = false) ∧ head.rx = .data (packHeader p p.length first) ∧
      l.map CycleInput.rx = p.map .data ∧ echo.tx = .accept ∧ framesArrive false ps rest

/-- The tick source: in these cycles one tick of one cycle in every TICK_PERIOD of `period` cycles, at any phase
(00_scope.md R9, 20_memory.md R94, 70_reset_and_hazards.md R303). -/
def tickSource (period phase : Nat) (l : List CycleInput) : Prop :=
  phase < period ∧ ∀ i x, l[i]? = some x → x.tick = decide (i % period = phase)

/-- How many of these cycles carry a tick (20_memory.md R94). -/
def ticksIn (l : List CycleInput) : Nat := (l.filter CycleInput.tick).length

end Sys2Proof.Machine
end

