-- ==== Sys2Proof/Certificates/Slice0/Obligations.lean ====
section
/-!
DEFINITION. The statements for the provers. `s.nextInput` is what the environment presents in the coming cycle, `step` is one
clock cycle, and `State.engine`, `State.hostRegs` are the views of Safety.lean.
-/
open Sys2Proof Sys2Proof.Machine

/-! ## Encodings -/

/-- The decoder and the encoder agree: a well-formed command decodes from its word, every word decodes to a well-formed command
whose word is OP with zeros above it, and bits 31:4 are ignored (30_encoding.md section 2; log entries 12 and 13). -/
def Obligations.DecodeEncodeAgree : Prop :=
  (∀ i : Instr, i.wf = true → decode (encode i) = i) ∧
  (∀ w : Word, (decode w).wf = true ∧ encode (decode w) = w &&& 0x0000000F) ∧
  ∀ v w : Word, v &&& 0x0000000F = w &&& 0x0000000F → decode v = decode w

/-- Every word lies in its command's row of spec/opcode_table.json, and in no other row (30_encoding.md section 2). -/
def Obligations.OpcodeRowsTotalAndDisjoint : Prop :=
  (∀ w : Word, w &&& tableMask (decode w) = tableMatch (decode w)) ∧
  ∀ (w : Word) (i : Instr), w &&& tableMask i = tableMatch i →
    tableMask (decode w) = tableMask i ∧ tableMatch (decode w) = tableMatch i

/-- Words written out from the opcode list (30_encoding.md section 2), one of them with its ignored bits set. -/
def Obligations.OpcodeWordsDecode : Prop :=
  decode 0x00000001 = .checksum ∧ decode 0x00000002 = .encodeHeader ∧ decode 0x00000003 = .decodeHeader ∧
  decode 0x00000004 = .send ∧ decode 0x00000005 = .receive ∧ decode 0x00000000 = .illegalOp0 ∧
  decode 0x00000007 = .illegalOp6to7 7 ∧ decode 0x0000000F = .illegalOp8toF 0xF ∧ decode 0xFFFFFFF1 = .checksum

/-! ## The block codec's functions -/

/-- The checksum as a polynomial remainder over GF(2) (40_codec.md section 3): with M(x) the message read MSB first, crc4 is
M(x)·x^4 mod x^4 + x + 1. -/
def Obligations.CrcIsPolynomialRemainder : Prop :=
  ∀ (p : List Byte) (n : Nat), n ≤ p.length →
    let message : Polynomial (ZMod 2) :=
      ∑ i ∈ Finset.range n, ∑ j ∈ Finset.range 8,
        if (p.getD i 0).getLsbD j then Polynomial.X ^ (8 * (n - 1 - i) + j) else 0
    let register : Polynomial (ZMod 2) :=
      ∑ j ∈ Finset.range 4, if (crc4 p n).getLsbD j then Polynomial.X ^ j else 0
    (message * Polynomial.X ^ 4) % (Polynomial.X ^ 4 + Polynomial.X + 1) = register

/-- The checksum is linear over XOR for payloads of equal length (40_codec.md section 3). -/
def Obligations.CrcIsLinear : Prop :=
  ∀ (p q : List Byte) (n : Nat), p.length = q.length →
    crc4 (List.zipWith (· ^^^ ·) p q) n = crc4 p n ^^^ crc4 q n

/-- Every single-bit change among the bytes that take part changes the checksum (40_codec.md section 3). -/
def Obligations.CrcDetectsEverySingleBitChange : Prop :=
  ∀ (p : List Byte) (n i j : Nat), i < n → n ≤ p.length → j < 8 →
    crc4 (p.set i (p.getD i 0 ^^^ BitVec.twoPow 8 j)) n ≠ crc4 p n

/-- The table T of R147, one row a numeral: the digit in column v of row u is T[16u + v]. -/
def Sys2Proof.crcTableRows : List Nat :=
  [0x0365CFA9B8DE7412, 0x56309AFCED8B2147, 0xA9CF65031274DEB8, 0xFC9A305647218BED,
    0x7412B8DECFA90365, 0x2147ED8B9AFC5630, 0xDEB812746503A9CF, 0x8BED47213056FC9A,
    0xED8B214756309AFC, 0xB8DE74120365CFA9, 0x47218BEDFC9A3056, 0x1274DEB8A9CF6503,
    0x9AFC56302147ED8B, 0xCFA903657412B8DE, 0x3056FC9A8BED4721, 0x6503A9CFDEB81274]

/-- R147: the checksum by the table T. -/
def Obligations.CrcByTable : Prop :=
  (∀ v : Byte, crc4 [v] 1 =
    BitVec.ofNat 4 (crcTableRows.getD (v.toNat / 16) 0 / 16 ^ (15 - v.toNat % 16))) ∧
  ∀ (p : List Byte) (n : Nat), 1 ≤ n → n ≤ 8 → n ≤ p.length →
    crc4 p n = (p.take n).foldl (fun c b => crc4 [(c.setWidth 8 <<< 4) ^^^ b] 1) 0

/-- R141: the header packer, with the source's own formula, and INVALID_SIZE exactly for sizes outside 1 to 8. -/
def Obligations.HeaderPackingFormula : Prop :=
  ∀ (p : List Byte) (n : Nat) (first : Bool),
    enc p n first =
      if n = 0 ∨ n > 8 then none
      else some ((((crc4 p n).setWidth 8) <<< 4) ||| (if first then 0x8 else 0) ||| (BitVec.ofNat 8 (n - 1) &&& 0x7))

/-- R146: a packed header unpacks to the checksum, the first flag and n − 1. -/
def Obligations.HeaderRoundTrip : Prop :=
  ∀ (p : List Byte) (n : Nat) (first : Bool), 1 ≤ n → n ≤ 8 →
    ∃ h, enc p n first = some h ∧ (dec h).1 = crc4 p n ∧ (dec h).2.1 = first ∧ (dec h).2.2.toNat = n - 1

/-- Every header byte gives a read size from 1 to 8, its size code plus 1 (30_encoding.md section 3), and is the packing of
its own fields (30_encoding.md section 1). -/
def Obligations.EveryHeaderByteUnpacks : Prop :=
  ∀ h : Byte, (readSize h).toNat = h.toNat % 8 + 1 ∧
    h = (((dec h).1.setWidth 8) <<< 4) ||| (if (dec h).2.1 then 0x8 else 0) ||| (dec h).2.2.setWidth 8

/-! ## The commands, accepted with BUSY = 0 -/

/-- R143: CHECKSUM, on the payload bytes p[0..7] of CODEC_DATA0 and CODEC_DATA1, the low byte of each first (R45). Nothing changes
but the fields named. -/
def Obligations.ChecksumCommandResult : Prop :=
  ∀ s : State, s.busy = false →
    let p : List Byte := [0, 8, 16, 24].map (s.codecData0.extractLsb' · 8) ++ [0, 8, 16, 24].map (s.codecData1.extractLsb' · 8)
    (s.cfgSize.toNat = 0 ∨ 8 < s.cfgSize.toNat →
      exec .checksum s = .next { s with err := .invalidSize, done := true }) ∧
    (1 ≤ s.cfgSize.toNat → s.cfgSize.toNat ≤ 8 →
      exec .checksum s =
        .next { s with resCk := crc4 p s.cfgSize.toNat, err := .noError, done := true })

/-- R144: ENCODE_HEADER, on the payload bytes p[0..7] of CODEC_DATA0 and CODEC_DATA1, the low byte of each first (R45). Nothing
changes but the fields named. -/
def Obligations.EncodeHeaderCommandResult : Prop :=
  ∀ s : State, s.busy = false →
    let p : List Byte := [0, 8, 16, 24].map (s.codecData0.extractLsb' · 8) ++ [0, 8, 16, 24].map (s.codecData1.extractLsb' · 8)
    (s.cfgSize.toNat = 0 ∨ 8 < s.cfgSize.toNat →
      exec .encodeHeader s = .next { s with err := .invalidSize, done := true }) ∧
    (1 ≤ s.cfgSize.toNat → s.cfgSize.toNat ≤ 8 →
      ∃ h, enc p s.cfgSize.toNat s.cfgIsFirst = some h ∧
        exec .encodeHeader s = .next { s with resHdrOut := h, err := .noError, done := true })

/-- R145: DECODE_HEADER. Nothing changes but the fields named. -/
def Obligations.DecodeHeaderCommandResult : Prop :=
  ∀ s : State, s.busy = false →
    exec .decodeHeader s =
      .next { s with
        resDecCk := s.cfgHdrIn.extractLsb' 4 4
        resDecFirst := s.cfgHdrIn.getLsbD 3
        resDecSize := s.cfgHdrIn.extractLsb' 0 3
        err := .noError
        done := true }

/-- R115: every reserved opcode records ILLEGAL_COMMAND, sets DONE and changes nothing else. -/
def Obligations.ReservedOpcodeResult : Prop :=
  ∀ s : State, s.busy = false →
    exec .illegalOp0 s = .next { s with err := .illegalCommand, done := true } ∧
    (∀ op, exec (.illegalOp6to7 op) s = .next { s with err := .illegalCommand, done := true }) ∧
    ∀ op, exec (.illegalOp8toF op) s = .next { s with err := .illegalCommand, done := true }

/-- R170: SEND starts the transfer, or ends at once on a length that BUF cannot hold or on length 0. -/
def Obligations.SendCommandStart : Prop :=
  ∀ s : State, s.busy = false →
    (s.bufBytes < s.len.toNat →
      exec .send s =
        .next { s with err := .lengthTooLarge, result := 0, pos := 0, first := false, done := true }) ∧
    (s.len = 0 →
      exec .send s = .next { s with err := .noError, result := 0, pos := 0, first := false, done := true }) ∧
    (s.len ≠ 0 → s.len.toNat ≤ s.bufBytes →
      ∃ h, enc (s.bufBlock 0 (min 8 s.len.toNat)) (min 8 s.len.toNat) true = some h ∧
        exec .send s =
          .next { s with
            err := .noError, result := 0, pos := 0, done := false, first := true
            bsize := BitVec.ofNat 4 (min 8 s.len.toNat), hdr := h, k := 0, fsm := .sHdr })

/-- R200: RECEIVE starts the transfer, or ends at once on a length that BUF cannot hold or on length 0. -/
def Obligations.ReceiveCommandStart : Prop :=
  ∀ s : State, s.busy = false →
    (s.bufBytes < s.len.toNat →
      exec .receive s =
        .next { s with err := .lengthTooLarge, result := 0, pos := 0, first := false, done := true }) ∧
    (s.len = 0 →
      exec .receive s = .next { s with err := .noError, result := 0, pos := 0, first := false, done := true }) ∧
    (s.len ≠ 0 → s.len.toNat ≤ s.bufBytes →
      exec .receive s =
        .next { s with
          err := .noError, result := 0, pos := 0, done := false, first := true
          bsize := BitVec.ofNat 4 (min 8 s.len.toNat), elapsed := 0, fsm := .rHdr })

/-! ## The cycle -/

/-- A CMD write in a cycle that starts with BUSY = 0 runs the decoded command and nothing else, on the state whose cycle
inputs are taken; so does the step that withFetchWord prepares (30_encoding.md section 2; log entries 1 and 11). -/
def Obligations.StepRunsDecodedCommand : Prop :=
  (∀ (s : State) (w : Word), s.fsm = .idle → s.nextInput.rst = false →
    s.nextInput.access = .write 0x004 .four w → step s = exec (decode w) s.sampled) ∧
  ∀ (s : State) (nbits w : Nat),
    step (s.withFetchWord nbits w) = exec (decode (commandWord nbits w)) (s.withFetchWord nbits w).sampled

/-- R300: the edge of a cycle with `rst` = 1, the host access and the outputs of that cycle. -/
def Obligations.ResetCycle : Prop :=
  ∀ s : State, s.nextInput.rst = true → ∃ t, step s = .next t ∧
    (t.irqEn = false ∧ t.rxPartial = false ∧ t.done = false ∧ t.fsm = .idle ∧ t.first = false ∧ t.err = .noError ∧
      t.len = 0 ∧ t.timeout = 0 ∧ t.result = 0 ∧ t.pos = 0 ∧ t.hdr = 0 ∧ t.codecData0 = 0 ∧ t.codecData1 = 0 ∧
      t.cfgSize = 0 ∧ t.cfgIsFirst = false ∧ t.cfgHdrIn = 0 ∧ t.resCk = 0 ∧ t.resHdrOut = 0 ∧ t.resDecCk = 0 ∧
      t.resDecFirst = false ∧ t.resDecSize = 0 ∧ t.bsize = 0 ∧ t.rsize = 0 ∧ t.k = 0 ∧ t.elapsed = 0) ∧
    t.out.txValid = false ∧ t.out.rxRd = false ∧ t.out.irq = false ∧ t.out.sent = none ∧ t.out.consumed = none ∧
    (∀ off n, s.nextInput.access = .read off n → t.out.bus = .readData 0) ∧
    (∀ off n v, s.nextInput.access = .write off n v → t.out.bus = .readData 0) ∧
    t.busy = false

/-- The model's reading of "unspecified" (log entry 4): after a cycle with `rst` = 1 every byte of BUF is an unknown one of its
own, whatever was written before. -/
def Obligations.ResetLeavesBufferUnknown : Prop :=
  ∀ s t : State, s.nextInput.rst = true → step s = .next t →
    t.bufEpoch = s.bufEpoch + 1 ∧ ∀ i, t.bufByte i = Config.unwrittenByte t.bufEpoch i

/-- The state after reset: every register reads 0 and the invariant holds (70_reset_and_hazards.md section 1). -/
def Obligations.ResetStateReadsZeroAndIsSafe : Prop :=
  State.reset.Inv ∧ State.reset.busy = false ∧ State.reset.irq = false ∧ ∀ r, readRegister r State.reset = 0

/-- R90: the stream port's outputs in a cycle without reset. -/
def Obligations.StreamPortOutputs : Prop :=
  ∀ s t : State, s.nextInput.rst = false → step s = .next t →
    (t.out.txValid = true ↔ s.fsm = .sHdr ∨ s.fsm = .sPay ∨ s.fsm = .rAck) ∧
    (s.fsm = .sHdr ∨ s.fsm = .rAck → t.out.txData = s.hdr) ∧
    (s.fsm = .sPay → t.out.txData = s.bufByte (s.pos.toNat + s.k.toNat)) ∧
    (s.fsm ≠ .sHdr → s.fsm ≠ .rAck → s.fsm ≠ .sPay → t.out.txData = 0) ∧
    (t.out.rxRd = true ↔ s.fsm = .sAck ∨ s.fsm = .rHdr ∨ s.fsm = .rPay ∨ s.fsm = .rFlush)

/-- A byte goes out exactly on ACCEPT while `tx_valid` = 1, and comes in exactly on DATA while `rx_rd` = 1
(20_memory.md sections 4 and 6). -/
def Obligations.StreamBytesMove : Prop :=
  ∀ s t : State, step s = .next t →
    (∀ b, t.out.sent = some b ↔ t.out.txValid = true ∧ s.nextInput.tx = .accept ∧ b = t.out.txData) ∧
    (∀ b, t.out.consumed = some b ↔ t.out.rxRd = true ∧ s.nextInput.rx = .data b)

/-- What each pin code of the stream port answers (20_memory.md section 6); the reserved codes count as FAIL (log entry 8). -/
def Obligations.StreamPinCodes : Prop :=
  ∀ x : CycleInput,
    (x.tx = if x.txPins = 0 then .wait else if x.txPins = 1 then .accept else if x.txPins = 2 then .short
      else if x.txPins = 4 then .closed else .fail) ∧
    (x.rx = if x.rxPins = 0 then .noData else if x.rxPins = 1 then .data x.rxData else if x.rxPins = 4 then .closed
      else .fail)

/-- `irq` is IRQ_EN and DONE of the start of the cycle (60_exceptions.md section 3). -/
def Obligations.InterruptOutput : Prop :=
  ∀ s t : State, s.nextInput.rst = false → step s = .next t → t.out.irq = (s.irqEn && s.done)

/-! ## The host bus -/

/-- What the host reads of STATUS, in the numbers of 10_state.md sections 1 and 2. -/
def Obligations.StatusWordFields : Prop :=
  ∀ s : State, (readRegister .status s).toNat =
    (if s.fsm = .idle then 0 else 1) + 2 * s.done.toNat + (if s.err = .noError then 0 else 4) + 8 * s.first.toNat +
      16 * (match s.fsm with
        | .idle => 0 | .sHdr => 1 | .sPay => 2 | .sAck => 3 | .rHdr => 4 | .rPay => 5 | .rChk => 6 | .rAck => 7
        | .rFlush => 8)

/-- What the host reads of the other registers, field by field, with the error codes' numbers (10_state.md section 2,
60_exceptions.md section 1). -/
def Obligations.RegisterReadWords : Prop :=
  ∀ s : State,
    (readRegister .ctrl s).toNat = s.irqEn.toNat + 2 * s.rxPartial.toNat ∧ readRegister .cmd s = 0 ∧
    (readRegister .err s).toNat =
      (match s.err with
        | .noError => 0 | .streamClosed => 1 | .writeShort => 2 | .writeFailed => 3 | .readTimeout => 4 | .readFailed => 5
        | .checksumMismatch => 6 | .sizeExceedsBuffer => 7 | .sequenceMismatch => 8 | .ackMismatch => 9
        | .invalidSize => 10 | .illegalCommand => 11 | .lengthTooLarge => 12) ∧
    readRegister .len s = s.len ∧ readRegister .timeout s = s.timeout ∧ readRegister .result s = s.result ∧
    readRegister .pos s = s.pos ∧ (readRegister .hdr s).toNat = s.hdr.toNat ∧
    readRegister .codecData0 s = s.codecData0 ∧ readRegister .codecData1 s = s.codecData1 ∧
    (readRegister .codecCfg s).toNat = s.cfgSize.toNat + 2 ^ 4 * s.cfgIsFirst.toNat + 2 ^ 8 * s.cfgHdrIn.toNat ∧
    (readRegister .codecRes s).toNat =
      s.resCk.toNat + 2 ^ 8 * s.resHdrOut.toNat + 2 ^ 16 * s.resDecCk.toNat + 2 ^ 20 * s.resDecFirst.toNat +
        2 ^ 24 * s.resDecSize.toNat

/-- Where an access lands (10_state.md section 2, 20_memory.md sections 2 and 4): a register only as four bytes at its own offset,
a multiple of 4 up to 0x030; the buffer only aligned and inside BUF; everything else nowhere. Two kinds of access reach nothing
by the model's reading: a byte access at 0x031 to 0x033 (log entry 14), and an aligned access that starts inside BUF and ends
past it (log entry 25). -/
def Obligations.AccessTargets : Prop :=
  ∀ (s : State) (off : Word) (n : AccessSize),
    ((∃ r, busTarget s off n = .register r) ↔ n = .four ∧ off.toNat % 4 = 0 ∧ off.toNat ≤ 0x030) ∧
    (∀ i, busTarget s off n = .buffer i ↔
      off.toNat = 0x1000 + i ∧ off.toNat % accessBytes n = 0 ∧ i + accessBytes n ≤ s.bufBytes) ∧
    (∀ r, busTarget s off n = .register r ↔ n = .four ∧
      off = match r with
        | .ctrl => 0x000 | .cmd => 0x004 | .status => 0x008 | .err => 0x00C | .len => 0x010 | .timeout => 0x014
        | .result => 0x018 | .pos => 0x01C | .hdr => 0x020 | .codecData0 => 0x024 | .codecData1 => 0x028
        | .codecCfg => 0x02C | .codecRes => 0x030) ∧
    (∀ i j : Word, ∀ r, busTarget s i .four = .register r → busTarget s j .four = .register r → i = j)

/-- Host reads have no side effects and an access with `berr` = 1 changes nothing (20_memory.md sections 2, 4 and 8,
60_exceptions.md section 2): the cycle ends as it would with no access, but for the bus's answer. A read of a register gives
its word, a read of the window the bytes of BUF, little-endian, all of the start of the cycle, with BUSY = 1 too. -/
def Obligations.ReadsAndBusErrorsChangeNothing : Prop :=
  ∀ (s : State) (a : HostAccess), s.nextInput.access = .quiet → s.nextInput.rst = false →
    (∀ off n v, a = .write off n v → busTarget s off n = .nowhere) →
    ∀ t, step s = .next t → ∃ b,
      step (s.withInput { s.nextInput with access := a }) = .next { t with out := { t.out with bus := b } } ∧
      ((∃ off n, a = .read off n ∧ busTarget s off n = .nowhere) ∨ (∃ off n v, a = .write off n v) → b = .busError) ∧
      (∀ off r, a = .read off .four → busTarget s off .four = .register r → b = .readData (readRegister r s)) ∧
      ∀ off n i, a = .read off n → busTarget s off n = .buffer i →
        b = .readData (BitVec.ofNat 32 (∑ j ∈ Finset.range (accessBytes n), (s.bufByte (i + j)).toNat * 2 ^ (8 * j)))

/-- What a register write does with BUSY = 0, and that RO registers ignore it (10_state.md section 2, 20_memory.md section 2). -/
def Obligations.RegisterWritesInIdle : Prop :=
  ∀ (s : State) (off v : Word), s.fsm = .idle → s.nextInput.rst = false → s.nextInput.access = .write off .four v →
    (off = 0x000 → step s = .next { s.sampled with irqEn := v.getLsbD 0, rxPartial := v.getLsbD 1 }) ∧
    (off = 0x008 → step s = .next { s.sampled with done := s.done && !v.getLsbD 1 }) ∧
    (off = 0x010 → step s = .next { s.sampled with len := v }) ∧
    (off = 0x014 → step s = .next { s.sampled with timeout := v }) ∧
    (off = 0x024 → step s = .next { s.sampled with codecData0 := v }) ∧
    (off = 0x028 → step s = .next { s.sampled with codecData1 := v }) ∧
    (off = 0x02C → step s = .next { s.sampled with
      cfgSize := v.extractLsb' 0 4, cfgIsFirst := v.getLsbD 4, cfgHdrIn := v.extractLsb' 8 8 }) ∧
    (off = 0x00C ∨ off = 0x018 ∨ off = 0x01C ∨ off = 0x020 ∨ off = 0x030 → step s = .next s.sampled)

/-- Reading back what was written keeps the writable bits only (10_state.md section 2; 95_test_vectors.md H2, H3, H6). -/
def Obligations.WrittenRegistersReadBack : Prop :=
  ∀ (s t : State) (off v : Word) (r : Reg), s.fsm = .idle → s.nextInput.rst = false →
    s.nextInput.access = .write off .four v → busTarget s off .four = .register r → step s = .next t →
    (r = .ctrl → readRegister r t = v &&& 0x00000003) ∧
    (r = .codecCfg → readRegister r t = v &&& 0x0000FF1F) ∧
    (r = .len ∨ r = .timeout ∨ r = .codecData0 ∨ r = .codecData1 → readRegister r t = v) ∧
    (r = .err ∨ r = .result ∨ r = .pos ∨ r = .hdr ∨ r = .codecRes → readRegister r t = readRegister r s)

/-- A window write with BUSY = 0 stores the access's bytes little-endian and leaves every other byte and every register alone;
the same window read then returns what was stored (20_memory.md sections 2 and 3). -/
def Obligations.BufferWindowWriteThenRead : Prop :=
  ∀ (s : State) (off v : Word) (n : AccessSize) (i : Nat), s.fsm = .idle → s.nextInput.rst = false →
    s.nextInput.access = .write off n v → busTarget s off n = .buffer i →
    ∃ t, step s = .next t ∧ t = { s.sampled with buf := t.buf } ∧
      (∀ j, j < accessBytes n → t.bufByte (i + j) = v.extractLsb' (8 * j) 8) ∧
      (∀ a, a < i ∨ i + accessBytes n ≤ a → t.bufByte a = s.bufByte a) ∧
      readBus t off n = .readData (BitVec.ofNat 32 (v.toNat % 2 ^ (8 * accessBytes n)))

/-- While BUSY = 1 the host cannot change what a command uses: LEN, TIMEOUT, RX_PARTIAL and BUF keep their values through any
cycle without reset, but for the one byte that R_PAY stores on DATA (10_state.md section 2, 20_memory.md sections 2 and 8,
70_reset_and_hazards.md section 3). -/
def Obligations.BusyLocksOperands : Prop :=
  ∀ s t : State, s.busy = true → s.nextInput.rst = false → step s = .next t →
    t.len = s.len ∧ t.timeout = s.timeout ∧ t.rxPartial = s.rxPartial ∧ t.bufBytes = s.bufBytes ∧
    (∀ a, ¬ (s.fsm = .rPay ∧ (∃ b, s.nextInput.rx = .data b) ∧ a = s.pos.toNat + s.k.toNat) →
      t.bufByte a = s.bufByte a) ∧
    ∀ b, s.fsm = .rPay → s.nextInput.rx = .data b → t.bufByte (s.pos.toNat + s.k.toNat) = b

/-- A CMD write in a cycle that starts with BUSY = 1 is ignored, whatever its word: the cycle ends as it would without it, but
for the bus's answer, which reports no error (10_state.md section 2, 70_reset_and_hazards.md section 3). -/
def Obligations.CommandIgnoredWhileBusy : Prop :=
  ∀ (s t : State) (w : Word), s.busy = true → s.nextInput.rst = false → s.nextInput.access = .quiet → step s = .next t →
    ∃ d, step (s.withInput { s.nextInput with access := .write 0x004 .four w }) =
      .next { t with out := { t.out with bus := .readData d } }

/-- In a cycle that starts with BUSY = 1, IRQ_EN and the CODEC registers follow the host's write and nothing else, and DONE is
set by the end of the command even against a clear in the same cycle (10_state.md section 2; R316). -/
def Obligations.BusyCycleHostRegisters : Prop :=
  ∀ s t : State, s.busy = true → s.nextInput.rst = false → step s = .next t →
    t.done = (decide (t.fsm = .idle) || (s.done && !s.nextInput.access.clearsDone)) ∧
    t.hostRegs =
      match s.nextInput.access with
      | .quiet => s.hostRegs
      | .read _ _ => s.hostRegs
      | .write off n v =>
        if n ≠ .four then s.hostRegs
        else if off = 0x000 then { s.hostRegs with irqEn := v.getLsbD 0 }
        else if off = 0x024 then { s.hostRegs with codecData0 := v }
        else if off = 0x028 then { s.hostRegs with codecData1 := v }
        else if off = 0x02C then
          { s.hostRegs with
            cfgSize := v.extractLsb' 0 4, cfgIsFirst := v.getLsbD 4, cfgHdrIn := v.extractLsb' 8 8 }
        else s.hostRegs

/-- R316: the host's clear of DONE in the cycle in which the engine ends a command does not clear the new DONE. -/
def Obligations.DoneClearRace : Prop :=
  ∀ s t : State, s.busy = true → s.nextInput.rst = false → s.nextInput.access.clearsDone = true →
    step s = .next t → t.fsm = .idle → t.done = true

/-- No host access cancels or disturbs a running command (60_exceptions.md section 2): two cycles that differ in the host's
access alone move the engine and the stream alike. -/
def Obligations.RunningCommandIgnoresHost : Prop :=
  ∀ (s : State) (a b : HostAccess), s.busy = true → s.nextInput.rst = false →
    ∀ t, step (s.withInput { s.nextInput with access := a }) = .next t →
      ∃ u, step (s.withInput { s.nextInput with access := b }) = .next u ∧
        u.engine = t.engine ∧ u.out.sent = t.out.sent ∧ u.out.consumed = t.out.consumed

/-- Between the end of a command and the next CMD write the engine writes nothing (20_memory.md section 8). -/
def Obligations.IdleEngineIsQuiescent : Prop :=
  ∀ s t : State, s.fsm = .idle → s.nextInput.rst = false → s.nextInput.access.isCommand = false → step s = .next t →
    t.engine = { s.engine with len := t.len, timeout := t.timeout, rxPartial := t.rxPartial, buf := t.buf } ∧
    (s.nextInput.access = .quiet → step s = .next s.sampled)

/-! ## The send path -/

/-- R172: S_HDR offers the header byte. -/
def Obligations.SendOffersHeader : Prop :=
  ∀ s : State, s.fsm = .sHdr → s.nextInput.rst = false → ∃ t, step s = .next t ∧
    t.out.txValid = true ∧ t.out.txData = s.hdr ∧ (t.fsm = .idle → t.done = true) ∧
    t.engine =
      match s.nextInput.tx with
      | .accept => { s.engine with k := 0, fsm := .sPay }
      | .wait => s.engine
      | .short => s.engine.ended .writeShort s.pos
      | .fail => s.engine.ended .writeFailed s.pos
      | .closed => s.engine.ended .streamClosed s.pos

/-- R173, R174: S_PAY offers BUF[POS + K]. -/
def Obligations.SendOffersPayload : Prop :=
  ∀ s : State, s.Inv → s.fsm = .sPay → s.nextInput.rst = false → ∃ t, step s = .next t ∧
    t.out.txValid = true ∧ t.out.txData = s.bufByte (s.pos.toNat + s.k.toNat) ∧ (t.fsm = .idle → t.done = true) ∧
    t.engine =
      match s.nextInput.tx with
      | .accept =>
        if s.k.toNat + 1 = s.bsize.toNat then { s.engine with k := 0, elapsed := 0, fsm := .sAck }
        else { s.engine with k := BitVec.ofNat 4 (s.k.toNat + 1) }
      | .wait => s.engine
      | .short => s.engine.ended .writeShort (BitVec.ofNat 32 (s.pos.toNat + s.k.toNat))
      | .fail => s.engine.ended .writeFailed (BitVec.ofNat 32 (s.pos.toNat + s.k.toNat))
      | .closed => s.engine.ended .streamClosed (BitVec.ofNat 32 (s.pos.toNat + s.k.toNat))

/-- S_ACK without the acknowledgment (41_send.md, R175 for a byte that differs from HDR, and R176). That ELAPSED counts the tick of
the aborting cycle too is the model's reading of R241 against the comment in R262 (log entry 6). -/
def Obligations.SendWithoutAcknowledgment : Prop :=
  ∀ s : State, s.fsm = .sAck → s.nextInput.rst = false → s.nextInput.rx ≠ .data s.hdr → ∃ t, step s = .next t ∧
    t.out.rxRd = true ∧ (t.fsm = .idle → t.done = true) ∧
    t.engine =
      match s.nextInput.rx with
      | .data _ => (s.engine.counted s.nextInput.tick).ended .ackMismatch s.pos
      | .noData =>
        if s.timeout ≠ 0 ∧ s.elapsed.toNat > s.timeout.toNat then
          (s.engine.counted s.nextInput.tick).ended .readTimeout s.pos
        else s.engine.counted s.nextInput.tick
      | .fail => (s.engine.counted s.nextInput.tick).ended .readFailed s.pos
      | .closed => (s.engine.counted s.nextInput.tick).ended .streamClosed s.pos

/-- R177 with R171 and R178: the block advance on a matching acknowledgment. -/
def Obligations.SendAdvancesBlock : Prop :=
  ∀ s : State, s.Inv → s.fsm = .sAck → s.nextInput.rst = false → s.nextInput.rx = .data s.hdr →
    let e := s.engine.counted s.nextInput.tick
    let p := s.pos.toNat + s.bsize.toNat
    let n := min 8 (s.len.toNat - p)
    p ≤ s.len.toNat ∧ ∃ t, step s = .next t ∧
      (p = s.len.toNat →
        t.engine = { e with pos := s.len, first := false, err := .noError, result := s.len, fsm := .idle } ∧
        t.done = true) ∧
      (p ≠ s.len.toNat → ∃ h, enc (s.bufBlock p n) n false = some h ∧
        t.engine = { e with
          pos := BitVec.ofNat 32 p, first := false, bsize := BitVec.ofNat 4 n, hdr := h, k := 0, fsm := .sHdr })

/-! ## The receive path -/

/-- R_HDR, its ending without a byte and its checks on the header byte, the size check first (42_receive.md, R201 to R204). That
ELAPSED counts the tick of the aborting cycle too is the model's reading of R241 against the comment in R262 (log entry 6). -/
def Obligations.ReceiveReadsHeader : Prop :=
  ∀ s : State, s.fsm = .rHdr → s.nextInput.rst = false →
    let e := s.engine.counted s.nextInput.tick
    let rxfail := if s.rxPartial then s.pos else 0
    ∃ t, step s = .next t ∧ t.out.rxRd = true ∧ (t.fsm = .idle → t.done = true) ∧
      t.engine =
        match s.nextInput.rx with
        | .noData =>
          if s.timeout ≠ 0 ∧ s.elapsed.toNat > s.timeout.toNat then e.ended .readTimeout rxfail else e
        | .fail => e.ended .readFailed rxfail
        | .closed => e.ended .streamClosed rxfail
        | .data b =>
          let rs := b.toNat % 8 + 1
          let e' := { e with hdr := b, rsize := BitVec.ofNat 4 rs }
          if rs > s.bsize.toNat then e'.ended .sizeExceedsBuffer rxfail
          else if b.getLsbD 3 ≠ s.first then { e' with fsm := .rFlush }
          else { e' with k := 0, elapsed := 0, fsm := .rPay }

/-- R205: R_FLUSH discards bytes until there is none, then reports SEQUENCE_MISMATCH. -/
def Obligations.ReceiveFlushes : Prop :=
  ∀ s : State, s.fsm = .rFlush → s.nextInput.rst = false → ∃ t, step s = .next t ∧ t.out.rxRd = true ∧
    (t.fsm = .idle → t.done = true) ∧
    t.engine =
      match s.nextInput.rx with
      | .data _ => s.engine
      | .noData => s.engine.ended .sequenceMismatch (if s.rxPartial then s.pos else 0)
      | .fail => s.engine.ended .sequenceMismatch (if s.rxPartial then s.pos else 0)
      | .closed => s.engine.ended .sequenceMismatch (if s.rxPartial then s.pos else 0)

/-- R_PAY stores each payload byte at BUF[POS + K] as it arrives (42_receive.md, R206), and its endings without a byte (R207). That
ELAPSED counts the tick of the aborting cycle too is the model's reading of R241 against the comment in R262 (log entry 6). -/
def Obligations.ReceiveStoresPayload : Prop :=
  ∀ s : State, s.Inv → s.fsm = .rPay → s.nextInput.rst = false →
    let e := s.engine.counted s.nextInput.tick
    let rxfail := if s.rxPartial then s.pos else 0
    let i := s.pos.toNat + s.k.toNat
    i < s.len.toNat ∧ ∃ t, step s = .next t ∧ t.out.rxRd = true ∧ (t.fsm = .idle → t.done = true) ∧
      (∀ a, t.bufByte a = if a = i ∧ (∃ b, s.nextInput.rx = .data b) then s.nextInput.rxData else s.bufByte a) ∧
      t.engine =
        match s.nextInput.rx with
        | .noData =>
          if s.timeout ≠ 0 ∧ s.elapsed.toNat > s.timeout.toNat then e.ended .readTimeout rxfail else e
        | .fail => e.ended .readFailed rxfail
        | .closed => e.ended .streamClosed rxfail
        | .data _ =>
          if s.k.toNat + 1 = s.rsize.toNat then { e with buf := t.buf, k := 0, fsm := .rChk }
          else { e with buf := t.buf, k := BitVec.ofNat 4 (s.k.toNat + 1) }

/-- R208: R_CHK recomputes the header and compares; it fails exactly on a different checksum. -/
def Obligations.ReceiveChecksBlock : Prop :=
  ∀ s : State, s.Inv → s.fsm = .rChk → s.nextInput.rst = false →
    let n := s.rsize.toNat
    let p := s.bufBlock s.pos.toNat n
    (enc p n s.first ≠ some s.hdr ↔ crc4 p n ≠ s.hdr.extractLsb' 4 4) ∧
    ∃ t, step s = .next t ∧ t.out.txValid = false ∧ t.out.rxRd = false ∧ (t.fsm = .idle → t.done = true) ∧
      t.engine =
        if enc p n s.first = some s.hdr then { s.engine with fsm := .rAck }
        else s.engine.ended .checksumMismatch (if s.rxPartial then s.pos else 0)

/-- R209 before its ACCEPT, and R210: R_ACK offers the header byte back; a failed write returns POS in both modes. -/
def Obligations.ReceiveEchoNotAccepted : Prop :=
  ∀ s : State, s.fsm = .rAck → s.nextInput.rst = false → s.nextInput.tx ≠ .accept → ∃ t, step s = .next t ∧
    t.out.txValid = true ∧ t.out.txData = s.hdr ∧ (t.fsm = .idle → t.done = true) ∧
    t.engine =
      match s.nextInput.tx with
      | .accept => t.engine
      | .wait => s.engine
      | .short => s.engine.ended .writeShort s.pos
      | .fail => s.engine.ended .writeFailed s.pos
      | .closed => s.engine.ended .streamClosed s.pos

/-- R212 with R213: the block advance when the echo is accepted. -/
def Obligations.ReceiveAdvancesBlock : Prop :=
  ∀ s : State, s.Inv → s.fsm = .rAck → s.nextInput.rst = false → s.nextInput.tx = .accept →
    let p := s.pos.toNat + s.rsize.toNat
    p ≤ s.len.toNat ∧ ∃ t, step s = .next t ∧ t.out.sent = some s.hdr ∧
      (p = s.len.toNat →
        t.engine = { s.engine with pos := s.len, first := false, err := .noError, result := s.len, fsm := .idle } ∧
        t.done = true) ∧
      (p ≠ s.len.toNat →
        t.engine = { s.engine with
          pos := BitVec.ofNat 32 p, first := false, bsize := BitVec.ofNat 4 (min 8 (s.len.toNat - p))
          elapsed := 0, fsm := .rHdr })

/-! ## The timeout counter and the endings -/

/-- R241: the update of ELAPSED at every edge without reset. -/
def Obligations.ElapsedUpdate : Prop :=
  ∀ s t : State, s.nextInput.rst = false → step s = .next t →
    t.elapsed.toNat =
      if t.fsm.timed = true ∧ t.fsm ≠ s.fsm then 0
      else if s.fsm.timed = true then min (s.elapsed.toNat + s.nextInput.tick.toNat) (2 ^ 33 - 1)
      else s.elapsed.toNat

/-- R245: with TIMEOUT = 0 a read never times out: a NODATA cycle of a timed read only counts its tick, whatever ELAPSED holds,
and leaves the engine as it is, TIMEOUT = 0 among it, so that it goes on for as long as there is no data. -/
def Obligations.ZeroTimeoutNeverExpires : Prop :=
  ∀ s : State, s.timeout = 0 → s.fsm.timed = true → s.nextInput.rst = false → s.nextInput.rx = .noData →
    ∃ t, step s = .next t ∧ t.engine = { s.engine with elapsed := t.elapsed } ∧
      t.elapsed.toNat = min (s.elapsed.toNat + s.nextInput.tick.toNat) (2 ^ 33 - 1)

/-- The deadline of a timed read (43_timed_read.md R242 and section text): against a stream that answers NODATA, the read lasts
through the cycle of the (TIMEOUT + 1)-th tick and aborts in the very next cycle with READ_TIMEOUT. -/
def Obligations.TimedReadDeadline : Prop :=
  ∀ (s : State) (l rest : List CycleInput) (last after : CycleInput),
    s.fsm.timed = true → s.elapsed = 0 → s.timeout ≠ 0 → s.inputs = l ++ last :: after :: rest →
    (∀ x ∈ l ++ [last, after], x.rst = false ∧ x.rx = .noData) →
    ticksIn l = s.timeout.toNat → last.tick = true →
    (∀ m, m ≤ l.length + 1 → ∃ t : State, core.run m s = .next t ∧ t.fsm = s.fsm) ∧
    ∃ t : State, core.run (l.length + 2) s = .next t ∧ t.fsm = .idle ∧ t.err = .readTimeout ∧ t.done = true ∧
      t.result = if s.fsm = .sAck ∨ s.rxPartial = true then s.pos else 0

/-- The bound on a timed read in units of TICK_PERIOD (43_timed_read.md R248, 70_reset_and_hazards.md section 2): with one tick in
every `period` cycles, at any phase, and a stream that answers NODATA, a read with TIMEOUT = T aborts with READ_TIMEOUT more
than T periods and at most T + 1 periods and one cycle after the edge that began it. -/
def Obligations.TimedReadTimeBound : Prop :=
  ∀ (s : State) (period phase : Nat) (l rest : List CycleInput),
    s.fsm.timed = true → s.elapsed = 0 → s.timeout ≠ 0 → s.inputs = l ++ rest →
    (s.timeout.toNat + 1) * period + 1 ≤ l.length → tickSource period phase l →
    (∀ x ∈ l, x.rst = false ∧ x.rx = .noData) →
    ∃ n, s.timeout.toNat * period < n ∧ n ≤ (s.timeout.toNat + 1) * period + 1 ∧
      (∀ m, m < n → ∃ t : State, core.run m s = .next t ∧ t.fsm = s.fsm) ∧
      ∃ t : State, core.run n s = .next t ∧ t.fsm = .idle ∧ t.err = .readTimeout ∧ t.done = true

/-- A command that ends does so with DONE set, and RESULT says how far it came: LEN with NONE, less than LEN with an error code
(41_send.md R180 summary, 42_receive.md section text, 60_exceptions.md section 2). POS is what was acknowledged, at most LEN. -/
def Obligations.CommandEndings : Prop :=
  ∀ s t : State, s.Inv → s.busy = true → s.nextInput.rst = false → step s = .next t → t.fsm = .idle →
    t.done = true ∧ t.pos.toNat ≤ s.len.toNat ∧ s.pos.toNat ≤ t.pos.toNat ∧
    (t.err = .noError → t.result = s.len ∧ t.pos = s.len) ∧
    (t.err ≠ .noError → t.result.toNat < s.len.toNat ∧ t.pos = s.pos ∧ t.buf = s.buf)

/-! ## Headlines -/

/-- The invariants of R56 are kept by every step, whatever the environment does. -/
def Obligations.StepKeepsInvariant : Prop :=
  ∀ s t : State, s.Inv → step s = .next t → t.Inv

/-- From a state that meets the invariant every cycle completes: FTBC never stops. -/
def Obligations.SafeStateAlwaysSteps : Prop :=
  ∀ s : State, s.Inv → ∃ t, step s = .next t ∧ t.Inv

/-- The parameters BASE and BUF_BYTES (00_scope.md section 4) never change; an access's offset is its address less BASE; and no
rule depends on the value of BASE (92_eei_decisions.md P-BASE): a machine with another BASE, given the same accesses at the
same offsets, does the same. -/
def Obligations.ParametersAndBase : Prop :=
  (∀ s t : State, step s = .next t → t.base = s.base ∧ t.bufBytes = s.bufBytes) ∧
  (∀ (s : State) (x : CycleInput) (rest : List CycleInput) (addr : Word) (n : AccessSize), s.inputs = x :: rest →
    (x.access = .read addr n → s.nextInput.access = .read (addr - s.base) n) ∧
    ∀ v, x.access = .write addr n v → s.nextInput.access = .write (addr - s.base) n v) ∧
  ∀ (s t : State) (b : Word) (x : CycleInput), step (s.withInput x) = .next t →
    step ({ s with base := b }.withInput x) = .next { t with base := b }

/-- The buffer keeps its canonical form through every step, from any state (20_memory.md section 1; log entry 5). -/
def Obligations.BufferStaysCanonical : Prop :=
  ∀ s t : State, Memory.wf s.buf = true → step s = .next t → Memory.wf t.buf = true

/-- One block of SEND against a peer that accepts and echoes at once takes N + 2 cycles, sends the header and then the block's
bytes in index order, and reads the one acknowledgment (70_reset_and_hazards.md section 4, 41_send.md). -/
def Obligations.SendBlockRun : Prop :=
  ∀ (s : State) (l rest : List CycleInput) (ack : CycleInput), s.Inv → s.fsm = .sHdr →
    s.inputs = l ++ ack :: rest → l.length = s.bsize.toNat + 1 →
    (∀ x ∈ l, x.rst = false ∧ x.tx = .accept) → ack.rst = false → ack.rx = .data s.hdr →
    ∃ t : State, core.run (s.bsize.toNat + 2) s = .next t ∧ t.pos.toNat = s.pos.toNat + s.bsize.toNat ∧ t.first = false ∧
      (if t.pos = s.len then t.fsm = .idle ∧ t.err = .noError ∧ t.result = s.len ∧ t.done = true else t.fsm = .sHdr) ∧
      sentDuring (s.bsize.toNat + 2) s = s.hdr :: s.bufBlock s.pos.toNat s.bsize.toNat ∧
      consumedDuring (s.bsize.toNat + 2) s = [s.hdr]

/-- A whole SEND of L bytes against such a peer: after L + 2·ceil(L/8) cycles the command is done with NONE and RESULT = L, and
the stream has carried the frames of BUF[0 .. L−1] (41_send.md section text on the stream trace). -/
def Obligations.SendWholeTransfer : Prop :=
  ∀ (s u : State) (cycles : Nat), s.Inv → s.busy = false → s.len ≠ 0 → s.len.toNat ≤ s.bufBytes →
    exec .send s = .next u → cycles = s.len.toNat + 2 * ((s.len.toNat + 7) / 8) → echoingPeer cycles u →
    ∃ t : State, core.run cycles u = .next t ∧ t.fsm = .idle ∧ t.done = true ∧ t.err = .noError ∧ t.result = s.len ∧
      t.pos = s.len ∧ sentDuring cycles u = framesOf s.len.toNat true (s.bufBlock 0 s.len.toNat)

/-- One block of RECEIVE from a peer that sends a matching frame and accepts the echo takes N + 3 cycles, leaves the payload in
BUF at POS and echoes the header (70_reset_and_hazards.md section 4, 42_receive.md). A frame whose checksum differs aborts
one cycle earlier, with nothing sent. -/
def Obligations.ReceiveBlockRun : Prop :=
  ∀ (s : State) (h : Byte) (p : List Byte) (l rest : List CycleInput) (head chk echo : CycleInput),
    s.Inv → s.fsm = .rHdr → s.inputs = head :: l ++ chk :: echo :: rest →
    head.rst = false → head.rx = .data h → h.getLsbD 3 = s.first → p.length = h.toNat % 8 + 1 →
    p.length ≤ s.bsize.toNat → l.map CycleInput.rx = p.map .data → (∀ x ∈ l, x.rst = false) →
    chk.rst = false → echo.rst = false → echo.tx = .accept →
    (crc4 p p.length = h.extractLsb' 4 4 →
      ∃ t : State, core.run (p.length + 3) s = .next t ∧ t.pos.toNat = s.pos.toNat + p.length ∧ t.first = false ∧
        t.bufBlock s.pos.toNat p.length = p ∧
        (if t.pos = s.len then t.fsm = .idle ∧ t.err = .noError ∧ t.result = s.len ∧ t.done = true
         else t.fsm = .rHdr) ∧
        sentDuring (p.length + 3) s = [h] ∧ consumedDuring (p.length + 3) s = h :: p) ∧
    (crc4 p p.length ≠ h.extractLsb' 4 4 →
      ∃ t : State, core.run (p.length + 2) s = .next t ∧ t.fsm = .idle ∧ t.err = .checksumMismatch ∧ t.done = true ∧
        t.pos = s.pos ∧ t.result = (if s.rxPartial then s.pos else 0) ∧
        sentDuring (p.length + 2) s = [] ∧ consumedDuring (p.length + 2) s = h :: p)

/-- A whole RECEIVE of L bytes from a peer that sends them in B blocks of 1 to 8 bytes, each byte there when it is read, and
accepts each echo at once: after L + 3·B cycles the command is done with NONE and RESULT = L, BUF[0 .. L−1] holds the bytes in
order, each header was echoed, and nothing but the frames was read (42_receive.md, R211, R213 and R217;
70_reset_and_hazards.md section 4). -/
def Obligations.ReceiveWholeTransfer : Prop :=
  ∀ (s u : State) (blocks : List (List Byte)) (cycles : Nat), s.Inv → s.busy = false → s.len ≠ 0 →
    s.len.toNat ≤ s.bufBytes → blocks.flatten.length = s.len.toNat → (∀ p ∈ blocks, 1 ≤ p.length ∧ p.length ≤ 8) →
    exec .receive s = .next u → framesArrive true blocks u.inputs → cycles = s.len.toNat + 3 * blocks.length →
    ∃ t : State, core.run cycles u = .next t ∧ t.fsm = .idle ∧ t.done = true ∧ t.err = .noError ∧ t.result = s.len ∧
      t.pos = s.len ∧ t.bufBlock 0 s.len.toNat = blocks.flatten ∧ sentDuring cycles u = headersOf true blocks ∧
      consumedDuring cycles u = blockFrames true blocks
end

