-- ==== Sys2Proof/Laws/State.lean ====
section
/-!
SUPPORT. One lemma per field per named update of the state, each true by rfl, so that no later proof unfolds a record update.
-/
namespace Sys2Proof.Machine

variable (s : State)

/-! ## writeByte -/

@[simp] theorem State.writeByte_irqEn (i : Nat) (b : Byte) : (s.writeByte i b).irqEn = s.irqEn := rfl
@[simp] theorem State.writeByte_rxPartial (i : Nat) (b : Byte) : (s.writeByte i b).rxPartial = s.rxPartial := rfl
@[simp] theorem State.writeByte_done (i : Nat) (b : Byte) : (s.writeByte i b).done = s.done := rfl
@[simp] theorem State.writeByte_err (i : Nat) (b : Byte) : (s.writeByte i b).err = s.err := rfl
@[simp] theorem State.writeByte_len (i : Nat) (b : Byte) : (s.writeByte i b).len = s.len := rfl
@[simp] theorem State.writeByte_timeout (i : Nat) (b : Byte) : (s.writeByte i b).timeout = s.timeout := rfl
@[simp] theorem State.writeByte_result (i : Nat) (b : Byte) : (s.writeByte i b).result = s.result := rfl
@[simp] theorem State.writeByte_pos (i : Nat) (b : Byte) : (s.writeByte i b).pos = s.pos := rfl
@[simp] theorem State.writeByte_hdr (i : Nat) (b : Byte) : (s.writeByte i b).hdr = s.hdr := rfl
@[simp] theorem State.writeByte_codecData0 (i : Nat) (b : Byte) : (s.writeByte i b).codecData0 = s.codecData0 := rfl
@[simp] theorem State.writeByte_codecData1 (i : Nat) (b : Byte) : (s.writeByte i b).codecData1 = s.codecData1 := rfl
@[simp] theorem State.writeByte_cfgSize (i : Nat) (b : Byte) : (s.writeByte i b).cfgSize = s.cfgSize := rfl
@[simp] theorem State.writeByte_cfgIsFirst (i : Nat) (b : Byte) : (s.writeByte i b).cfgIsFirst = s.cfgIsFirst := rfl
@[simp] theorem State.writeByte_cfgHdrIn (i : Nat) (b : Byte) : (s.writeByte i b).cfgHdrIn = s.cfgHdrIn := rfl
@[simp] theorem State.writeByte_resCk (i : Nat) (b : Byte) : (s.writeByte i b).resCk = s.resCk := rfl
@[simp] theorem State.writeByte_resHdrOut (i : Nat) (b : Byte) : (s.writeByte i b).resHdrOut = s.resHdrOut := rfl
@[simp] theorem State.writeByte_resDecCk (i : Nat) (b : Byte) : (s.writeByte i b).resDecCk = s.resDecCk := rfl
@[simp] theorem State.writeByte_resDecFirst (i : Nat) (b : Byte) : (s.writeByte i b).resDecFirst = s.resDecFirst := rfl
@[simp] theorem State.writeByte_resDecSize (i : Nat) (b : Byte) : (s.writeByte i b).resDecSize = s.resDecSize := rfl
@[simp] theorem State.writeByte_fsm (i : Nat) (b : Byte) : (s.writeByte i b).fsm = s.fsm := rfl
@[simp] theorem State.writeByte_first (i : Nat) (b : Byte) : (s.writeByte i b).first = s.first := rfl
@[simp] theorem State.writeByte_bsize (i : Nat) (b : Byte) : (s.writeByte i b).bsize = s.bsize := rfl
@[simp] theorem State.writeByte_rsize (i : Nat) (b : Byte) : (s.writeByte i b).rsize = s.rsize := rfl
@[simp] theorem State.writeByte_k (i : Nat) (b : Byte) : (s.writeByte i b).k = s.k := rfl
@[simp] theorem State.writeByte_elapsed (i : Nat) (b : Byte) : (s.writeByte i b).elapsed = s.elapsed := rfl
@[simp] theorem State.writeByte_buf (i : Nat) (b : Byte) : (s.writeByte i b).buf = Memory.write s.buf i b := rfl
@[simp] theorem State.writeByte_base (i : Nat) (b : Byte) : (s.writeByte i b).base = s.base := rfl
@[simp] theorem State.writeByte_bufBytes (i : Nat) (b : Byte) : (s.writeByte i b).bufBytes = s.bufBytes := rfl
@[simp] theorem State.writeByte_bufEpoch (i : Nat) (b : Byte) : (s.writeByte i b).bufEpoch = s.bufEpoch := rfl
@[simp] theorem State.writeByte_cycle (i : Nat) (b : Byte) : (s.writeByte i b).cycle = s.cycle := rfl
@[simp] theorem State.writeByte_inputs (i : Nat) (b : Byte) : (s.writeByte i b).inputs = s.inputs := rfl
@[simp] theorem State.writeByte_out (i : Nat) (b : Byte) : (s.writeByte i b).out = s.out := rfl

/-! ## completeAtOnce -/

@[simp] theorem State.completeAtOnce_irqEn (c : ErrCode) : (s.completeAtOnce c).irqEn = s.irqEn := rfl
@[simp] theorem State.completeAtOnce_rxPartial (c : ErrCode) : (s.completeAtOnce c).rxPartial = s.rxPartial := rfl
@[simp] theorem State.completeAtOnce_done (c : ErrCode) : (s.completeAtOnce c).done = true := rfl
@[simp] theorem State.completeAtOnce_err (c : ErrCode) : (s.completeAtOnce c).err = c := rfl
@[simp] theorem State.completeAtOnce_len (c : ErrCode) : (s.completeAtOnce c).len = s.len := rfl
@[simp] theorem State.completeAtOnce_timeout (c : ErrCode) : (s.completeAtOnce c).timeout = s.timeout := rfl
@[simp] theorem State.completeAtOnce_result (c : ErrCode) : (s.completeAtOnce c).result = s.result := rfl
@[simp] theorem State.completeAtOnce_pos (c : ErrCode) : (s.completeAtOnce c).pos = s.pos := rfl
@[simp] theorem State.completeAtOnce_hdr (c : ErrCode) : (s.completeAtOnce c).hdr = s.hdr := rfl
@[simp] theorem State.completeAtOnce_codecData0 (c : ErrCode) : (s.completeAtOnce c).codecData0 = s.codecData0 := rfl
@[simp] theorem State.completeAtOnce_codecData1 (c : ErrCode) : (s.completeAtOnce c).codecData1 = s.codecData1 := rfl
@[simp] theorem State.completeAtOnce_cfgSize (c : ErrCode) : (s.completeAtOnce c).cfgSize = s.cfgSize := rfl
@[simp] theorem State.completeAtOnce_cfgIsFirst (c : ErrCode) : (s.completeAtOnce c).cfgIsFirst = s.cfgIsFirst := rfl
@[simp] theorem State.completeAtOnce_cfgHdrIn (c : ErrCode) : (s.completeAtOnce c).cfgHdrIn = s.cfgHdrIn := rfl
@[simp] theorem State.completeAtOnce_resCk (c : ErrCode) : (s.completeAtOnce c).resCk = s.resCk := rfl
@[simp] theorem State.completeAtOnce_resHdrOut (c : ErrCode) : (s.completeAtOnce c).resHdrOut = s.resHdrOut := rfl
@[simp] theorem State.completeAtOnce_resDecCk (c : ErrCode) : (s.completeAtOnce c).resDecCk = s.resDecCk := rfl
@[simp] theorem State.completeAtOnce_resDecFirst (c : ErrCode) : (s.completeAtOnce c).resDecFirst = s.resDecFirst := rfl
@[simp] theorem State.completeAtOnce_resDecSize (c : ErrCode) : (s.completeAtOnce c).resDecSize = s.resDecSize := rfl
@[simp] theorem State.completeAtOnce_fsm (c : ErrCode) : (s.completeAtOnce c).fsm = s.fsm := rfl
@[simp] theorem State.completeAtOnce_first (c : ErrCode) : (s.completeAtOnce c).first = s.first := rfl
@[simp] theorem State.completeAtOnce_bsize (c : ErrCode) : (s.completeAtOnce c).bsize = s.bsize := rfl
@[simp] theorem State.completeAtOnce_rsize (c : ErrCode) : (s.completeAtOnce c).rsize = s.rsize := rfl
@[simp] theorem State.completeAtOnce_k (c : ErrCode) : (s.completeAtOnce c).k = s.k := rfl
@[simp] theorem State.completeAtOnce_elapsed (c : ErrCode) : (s.completeAtOnce c).elapsed = s.elapsed := rfl
@[simp] theorem State.completeAtOnce_buf (c : ErrCode) : (s.completeAtOnce c).buf = s.buf := rfl
@[simp] theorem State.completeAtOnce_base (c : ErrCode) : (s.completeAtOnce c).base = s.base := rfl
@[simp] theorem State.completeAtOnce_bufBytes (c : ErrCode) : (s.completeAtOnce c).bufBytes = s.bufBytes := rfl
@[simp] theorem State.completeAtOnce_bufEpoch (c : ErrCode) : (s.completeAtOnce c).bufEpoch = s.bufEpoch := rfl
@[simp] theorem State.completeAtOnce_cycle (c : ErrCode) : (s.completeAtOnce c).cycle = s.cycle := rfl
@[simp] theorem State.completeAtOnce_inputs (c : ErrCode) : (s.completeAtOnce c).inputs = s.inputs := rfl
@[simp] theorem State.completeAtOnce_out (c : ErrCode) : (s.completeAtOnce c).out = s.out := rfl

/-! ## abort -/

@[simp] theorem State.abort_irqEn (c : ErrCode) (r : Word) : (s.abort c r).irqEn = s.irqEn := rfl
@[simp] theorem State.abort_rxPartial (c : ErrCode) (r : Word) : (s.abort c r).rxPartial = s.rxPartial := rfl
@[simp] theorem State.abort_done (c : ErrCode) (r : Word) : (s.abort c r).done = true := rfl
@[simp] theorem State.abort_err (c : ErrCode) (r : Word) : (s.abort c r).err = c := rfl
@[simp] theorem State.abort_len (c : ErrCode) (r : Word) : (s.abort c r).len = s.len := rfl
@[simp] theorem State.abort_timeout (c : ErrCode) (r : Word) : (s.abort c r).timeout = s.timeout := rfl
@[simp] theorem State.abort_result (c : ErrCode) (r : Word) : (s.abort c r).result = r := rfl
@[simp] theorem State.abort_pos (c : ErrCode) (r : Word) : (s.abort c r).pos = s.pos := rfl
@[simp] theorem State.abort_hdr (c : ErrCode) (r : Word) : (s.abort c r).hdr = s.hdr := rfl
@[simp] theorem State.abort_codecData0 (c : ErrCode) (r : Word) : (s.abort c r).codecData0 = s.codecData0 := rfl
@[simp] theorem State.abort_codecData1 (c : ErrCode) (r : Word) : (s.abort c r).codecData1 = s.codecData1 := rfl
@[simp] theorem State.abort_cfgSize (c : ErrCode) (r : Word) : (s.abort c r).cfgSize = s.cfgSize := rfl
@[simp] theorem State.abort_cfgIsFirst (c : ErrCode) (r : Word) : (s.abort c r).cfgIsFirst = s.cfgIsFirst := rfl
@[simp] theorem State.abort_cfgHdrIn (c : ErrCode) (r : Word) : (s.abort c r).cfgHdrIn = s.cfgHdrIn := rfl
@[simp] theorem State.abort_resCk (c : ErrCode) (r : Word) : (s.abort c r).resCk = s.resCk := rfl
@[simp] theorem State.abort_resHdrOut (c : ErrCode) (r : Word) : (s.abort c r).resHdrOut = s.resHdrOut := rfl
@[simp] theorem State.abort_resDecCk (c : ErrCode) (r : Word) : (s.abort c r).resDecCk = s.resDecCk := rfl
@[simp] theorem State.abort_resDecFirst (c : ErrCode) (r : Word) : (s.abort c r).resDecFirst = s.resDecFirst := rfl
@[simp] theorem State.abort_resDecSize (c : ErrCode) (r : Word) : (s.abort c r).resDecSize = s.resDecSize := rfl
@[simp] theorem State.abort_fsm (c : ErrCode) (r : Word) : (s.abort c r).fsm = .idle := rfl
@[simp] theorem State.abort_first (c : ErrCode) (r : Word) : (s.abort c r).first = s.first := rfl
@[simp] theorem State.abort_bsize (c : ErrCode) (r : Word) : (s.abort c r).bsize = s.bsize := rfl
@[simp] theorem State.abort_rsize (c : ErrCode) (r : Word) : (s.abort c r).rsize = s.rsize := rfl
@[simp] theorem State.abort_k (c : ErrCode) (r : Word) : (s.abort c r).k = s.k := rfl
@[simp] theorem State.abort_elapsed (c : ErrCode) (r : Word) : (s.abort c r).elapsed = s.elapsed := rfl
@[simp] theorem State.abort_buf (c : ErrCode) (r : Word) : (s.abort c r).buf = s.buf := rfl
@[simp] theorem State.abort_base (c : ErrCode) (r : Word) : (s.abort c r).base = s.base := rfl
@[simp] theorem State.abort_bufBytes (c : ErrCode) (r : Word) : (s.abort c r).bufBytes = s.bufBytes := rfl
@[simp] theorem State.abort_bufEpoch (c : ErrCode) (r : Word) : (s.abort c r).bufEpoch = s.bufEpoch := rfl
@[simp] theorem State.abort_cycle (c : ErrCode) (r : Word) : (s.abort c r).cycle = s.cycle := rfl
@[simp] theorem State.abort_inputs (c : ErrCode) (r : Word) : (s.abort c r).inputs = s.inputs := rfl
@[simp] theorem State.abort_out (c : ErrCode) (r : Word) : (s.abort c r).out = s.out := rfl

/-! ## finish -/

@[simp] theorem State.finish_irqEn (r : Word) : (s.finish r).irqEn = s.irqEn := rfl
@[simp] theorem State.finish_rxPartial (r : Word) : (s.finish r).rxPartial = s.rxPartial := rfl
@[simp] theorem State.finish_done (r : Word) : (s.finish r).done = true := rfl
@[simp] theorem State.finish_err (r : Word) : (s.finish r).err = .noError := rfl
@[simp] theorem State.finish_len (r : Word) : (s.finish r).len = s.len := rfl
@[simp] theorem State.finish_timeout (r : Word) : (s.finish r).timeout = s.timeout := rfl
@[simp] theorem State.finish_result (r : Word) : (s.finish r).result = r := rfl
@[simp] theorem State.finish_pos (r : Word) : (s.finish r).pos = s.pos := rfl
@[simp] theorem State.finish_hdr (r : Word) : (s.finish r).hdr = s.hdr := rfl
@[simp] theorem State.finish_codecData0 (r : Word) : (s.finish r).codecData0 = s.codecData0 := rfl
@[simp] theorem State.finish_codecData1 (r : Word) : (s.finish r).codecData1 = s.codecData1 := rfl
@[simp] theorem State.finish_cfgSize (r : Word) : (s.finish r).cfgSize = s.cfgSize := rfl
@[simp] theorem State.finish_cfgIsFirst (r : Word) : (s.finish r).cfgIsFirst = s.cfgIsFirst := rfl
@[simp] theorem State.finish_cfgHdrIn (r : Word) : (s.finish r).cfgHdrIn = s.cfgHdrIn := rfl
@[simp] theorem State.finish_resCk (r : Word) : (s.finish r).resCk = s.resCk := rfl
@[simp] theorem State.finish_resHdrOut (r : Word) : (s.finish r).resHdrOut = s.resHdrOut := rfl
@[simp] theorem State.finish_resDecCk (r : Word) : (s.finish r).resDecCk = s.resDecCk := rfl
@[simp] theorem State.finish_resDecFirst (r : Word) : (s.finish r).resDecFirst = s.resDecFirst := rfl
@[simp] theorem State.finish_resDecSize (r : Word) : (s.finish r).resDecSize = s.resDecSize := rfl
@[simp] theorem State.finish_fsm (r : Word) : (s.finish r).fsm = .idle := rfl
@[simp] theorem State.finish_first (r : Word) : (s.finish r).first = s.first := rfl
@[simp] theorem State.finish_bsize (r : Word) : (s.finish r).bsize = s.bsize := rfl
@[simp] theorem State.finish_rsize (r : Word) : (s.finish r).rsize = s.rsize := rfl
@[simp] theorem State.finish_k (r : Word) : (s.finish r).k = s.k := rfl
@[simp] theorem State.finish_elapsed (r : Word) : (s.finish r).elapsed = s.elapsed := rfl
@[simp] theorem State.finish_buf (r : Word) : (s.finish r).buf = s.buf := rfl
@[simp] theorem State.finish_base (r : Word) : (s.finish r).base = s.base := rfl
@[simp] theorem State.finish_bufBytes (r : Word) : (s.finish r).bufBytes = s.bufBytes := rfl
@[simp] theorem State.finish_bufEpoch (r : Word) : (s.finish r).bufEpoch = s.bufEpoch := rfl
@[simp] theorem State.finish_cycle (r : Word) : (s.finish r).cycle = s.cycle := rfl
@[simp] theorem State.finish_inputs (r : Word) : (s.finish r).inputs = s.inputs := rfl
@[simp] theorem State.finish_out (r : Word) : (s.finish r).out = s.out := rfl

/-! ## sampled -/

@[simp] theorem State.sampled_irqEn : s.sampled.irqEn = s.irqEn := rfl
@[simp] theorem State.sampled_rxPartial : s.sampled.rxPartial = s.rxPartial := rfl
@[simp] theorem State.sampled_done : s.sampled.done = s.done := rfl
@[simp] theorem State.sampled_err : s.sampled.err = s.err := rfl
@[simp] theorem State.sampled_len : s.sampled.len = s.len := rfl
@[simp] theorem State.sampled_timeout : s.sampled.timeout = s.timeout := rfl
@[simp] theorem State.sampled_result : s.sampled.result = s.result := rfl
@[simp] theorem State.sampled_pos : s.sampled.pos = s.pos := rfl
@[simp] theorem State.sampled_hdr : s.sampled.hdr = s.hdr := rfl
@[simp] theorem State.sampled_codecData0 : s.sampled.codecData0 = s.codecData0 := rfl
@[simp] theorem State.sampled_codecData1 : s.sampled.codecData1 = s.codecData1 := rfl
@[simp] theorem State.sampled_cfgSize : s.sampled.cfgSize = s.cfgSize := rfl
@[simp] theorem State.sampled_cfgIsFirst : s.sampled.cfgIsFirst = s.cfgIsFirst := rfl
@[simp] theorem State.sampled_cfgHdrIn : s.sampled.cfgHdrIn = s.cfgHdrIn := rfl
@[simp] theorem State.sampled_resCk : s.sampled.resCk = s.resCk := rfl
@[simp] theorem State.sampled_resHdrOut : s.sampled.resHdrOut = s.resHdrOut := rfl
@[simp] theorem State.sampled_resDecCk : s.sampled.resDecCk = s.resDecCk := rfl
@[simp] theorem State.sampled_resDecFirst : s.sampled.resDecFirst = s.resDecFirst := rfl
@[simp] theorem State.sampled_resDecSize : s.sampled.resDecSize = s.resDecSize := rfl
@[simp] theorem State.sampled_fsm : s.sampled.fsm = s.fsm := rfl
@[simp] theorem State.sampled_first : s.sampled.first = s.first := rfl
@[simp] theorem State.sampled_bsize : s.sampled.bsize = s.bsize := rfl
@[simp] theorem State.sampled_rsize : s.sampled.rsize = s.rsize := rfl
@[simp] theorem State.sampled_k : s.sampled.k = s.k := rfl
@[simp] theorem State.sampled_elapsed : s.sampled.elapsed = s.elapsed := rfl
@[simp] theorem State.sampled_buf : s.sampled.buf = s.buf := rfl
@[simp] theorem State.sampled_base : s.sampled.base = s.base := rfl
@[simp] theorem State.sampled_bufBytes : s.sampled.bufBytes = s.bufBytes := rfl
@[simp] theorem State.sampled_bufEpoch : s.sampled.bufEpoch = s.bufEpoch := rfl
@[simp] theorem State.sampled_cycle : s.sampled.cycle = s.cycle + 1 := rfl
@[simp] theorem State.sampled_inputs : s.sampled.inputs = s.inputs.tail := rfl
@[simp] theorem State.sampled_out : s.sampled.out = cycleOutput s s.nextInput := rfl

/-! ## withInput -/

@[simp] theorem State.withInput_irqEn (x : CycleInput) : (s.withInput x).irqEn = s.irqEn := rfl
@[simp] theorem State.withInput_rxPartial (x : CycleInput) : (s.withInput x).rxPartial = s.rxPartial := rfl
@[simp] theorem State.withInput_done (x : CycleInput) : (s.withInput x).done = s.done := rfl
@[simp] theorem State.withInput_err (x : CycleInput) : (s.withInput x).err = s.err := rfl
@[simp] theorem State.withInput_len (x : CycleInput) : (s.withInput x).len = s.len := rfl
@[simp] theorem State.withInput_timeout (x : CycleInput) : (s.withInput x).timeout = s.timeout := rfl
@[simp] theorem State.withInput_result (x : CycleInput) : (s.withInput x).result = s.result := rfl
@[simp] theorem State.withInput_pos (x : CycleInput) : (s.withInput x).pos = s.pos := rfl
@[simp] theorem State.withInput_hdr (x : CycleInput) : (s.withInput x).hdr = s.hdr := rfl
@[simp] theorem State.withInput_codecData0 (x : CycleInput) : (s.withInput x).codecData0 = s.codecData0 := rfl
@[simp] theorem State.withInput_codecData1 (x : CycleInput) : (s.withInput x).codecData1 = s.codecData1 := rfl
@[simp] theorem State.withInput_cfgSize (x : CycleInput) : (s.withInput x).cfgSize = s.cfgSize := rfl
@[simp] theorem State.withInput_cfgIsFirst (x : CycleInput) : (s.withInput x).cfgIsFirst = s.cfgIsFirst := rfl
@[simp] theorem State.withInput_cfgHdrIn (x : CycleInput) : (s.withInput x).cfgHdrIn = s.cfgHdrIn := rfl
@[simp] theorem State.withInput_resCk (x : CycleInput) : (s.withInput x).resCk = s.resCk := rfl
@[simp] theorem State.withInput_resHdrOut (x : CycleInput) : (s.withInput x).resHdrOut = s.resHdrOut := rfl
@[simp] theorem State.withInput_resDecCk (x : CycleInput) : (s.withInput x).resDecCk = s.resDecCk := rfl
@[simp] theorem State.withInput_resDecFirst (x : CycleInput) : (s.withInput x).resDecFirst = s.resDecFirst := rfl
@[simp] theorem State.withInput_resDecSize (x : CycleInput) : (s.withInput x).resDecSize = s.resDecSize := rfl
@[simp] theorem State.withInput_fsm (x : CycleInput) : (s.withInput x).fsm = s.fsm := rfl
@[simp] theorem State.withInput_first (x : CycleInput) : (s.withInput x).first = s.first := rfl
@[simp] theorem State.withInput_bsize (x : CycleInput) : (s.withInput x).bsize = s.bsize := rfl
@[simp] theorem State.withInput_rsize (x : CycleInput) : (s.withInput x).rsize = s.rsize := rfl
@[simp] theorem State.withInput_k (x : CycleInput) : (s.withInput x).k = s.k := rfl
@[simp] theorem State.withInput_elapsed (x : CycleInput) : (s.withInput x).elapsed = s.elapsed := rfl
@[simp] theorem State.withInput_buf (x : CycleInput) : (s.withInput x).buf = s.buf := rfl
@[simp] theorem State.withInput_base (x : CycleInput) : (s.withInput x).base = s.base := rfl
@[simp] theorem State.withInput_bufBytes (x : CycleInput) : (s.withInput x).bufBytes = s.bufBytes := rfl
@[simp] theorem State.withInput_bufEpoch (x : CycleInput) : (s.withInput x).bufEpoch = s.bufEpoch := rfl
@[simp] theorem State.withInput_cycle (x : CycleInput) : (s.withInput x).cycle = s.cycle := rfl
@[simp] theorem State.withInput_inputs (x : CycleInput) : (s.withInput x).inputs = x.toBus s.base :: s.inputs.tail := rfl
@[simp] theorem State.withInput_out (x : CycleInput) : (s.withInput x).out = s.out := rfl

/-! ## withFetchWord -/

@[simp] theorem State.withFetchWord_irqEn (n w : Nat) : (s.withFetchWord n w).irqEn = s.irqEn := rfl
@[simp] theorem State.withFetchWord_rxPartial (n w : Nat) : (s.withFetchWord n w).rxPartial = s.rxPartial := rfl
@[simp] theorem State.withFetchWord_done (n w : Nat) : (s.withFetchWord n w).done = s.done := rfl
@[simp] theorem State.withFetchWord_err (n w : Nat) : (s.withFetchWord n w).err = s.err := rfl
@[simp] theorem State.withFetchWord_len (n w : Nat) : (s.withFetchWord n w).len = s.len := rfl
@[simp] theorem State.withFetchWord_timeout (n w : Nat) : (s.withFetchWord n w).timeout = s.timeout := rfl
@[simp] theorem State.withFetchWord_result (n w : Nat) : (s.withFetchWord n w).result = s.result := rfl
@[simp] theorem State.withFetchWord_pos (n w : Nat) : (s.withFetchWord n w).pos = s.pos := rfl
@[simp] theorem State.withFetchWord_hdr (n w : Nat) : (s.withFetchWord n w).hdr = s.hdr := rfl
@[simp] theorem State.withFetchWord_codecData0 (n w : Nat) : (s.withFetchWord n w).codecData0 = s.codecData0 := rfl
@[simp] theorem State.withFetchWord_codecData1 (n w : Nat) : (s.withFetchWord n w).codecData1 = s.codecData1 := rfl
@[simp] theorem State.withFetchWord_cfgSize (n w : Nat) : (s.withFetchWord n w).cfgSize = s.cfgSize := rfl
@[simp] theorem State.withFetchWord_cfgIsFirst (n w : Nat) : (s.withFetchWord n w).cfgIsFirst = s.cfgIsFirst := rfl
@[simp] theorem State.withFetchWord_cfgHdrIn (n w : Nat) : (s.withFetchWord n w).cfgHdrIn = s.cfgHdrIn := rfl
@[simp] theorem State.withFetchWord_resCk (n w : Nat) : (s.withFetchWord n w).resCk = s.resCk := rfl
@[simp] theorem State.withFetchWord_resHdrOut (n w : Nat) : (s.withFetchWord n w).resHdrOut = s.resHdrOut := rfl
@[simp] theorem State.withFetchWord_resDecCk (n w : Nat) : (s.withFetchWord n w).resDecCk = s.resDecCk := rfl
@[simp] theorem State.withFetchWord_resDecFirst (n w : Nat) : (s.withFetchWord n w).resDecFirst = s.resDecFirst := rfl
@[simp] theorem State.withFetchWord_resDecSize (n w : Nat) : (s.withFetchWord n w).resDecSize = s.resDecSize := rfl
@[simp] theorem State.withFetchWord_fsm (n w : Nat) : (s.withFetchWord n w).fsm = .idle := rfl
@[simp] theorem State.withFetchWord_first (n w : Nat) : (s.withFetchWord n w).first = s.first := rfl
@[simp] theorem State.withFetchWord_bsize (n w : Nat) : (s.withFetchWord n w).bsize = s.bsize := rfl
@[simp] theorem State.withFetchWord_rsize (n w : Nat) : (s.withFetchWord n w).rsize = s.rsize := rfl
@[simp] theorem State.withFetchWord_k (n w : Nat) : (s.withFetchWord n w).k = s.k := rfl
@[simp] theorem State.withFetchWord_elapsed (n w : Nat) : (s.withFetchWord n w).elapsed = s.elapsed := rfl
@[simp] theorem State.withFetchWord_buf (n w : Nat) : (s.withFetchWord n w).buf = s.buf := rfl
@[simp] theorem State.withFetchWord_base (n w : Nat) : (s.withFetchWord n w).base = s.base := rfl
@[simp] theorem State.withFetchWord_bufBytes (n w : Nat) : (s.withFetchWord n w).bufBytes = s.bufBytes := rfl
@[simp] theorem State.withFetchWord_bufEpoch (n w : Nat) : (s.withFetchWord n w).bufEpoch = s.bufEpoch := rfl
@[simp] theorem State.withFetchWord_cycle (n w : Nat) : (s.withFetchWord n w).cycle = s.cycle := rfl
@[simp] theorem State.withFetchWord_inputs (n w : Nat) :
    (s.withFetchWord n w).inputs = (commandInput (commandWord n w)).toBus s.base :: s.inputs := rfl
@[simp] theorem State.withFetchWord_out (n w : Nat) : (s.withFetchWord n w).out = s.out := rfl

/-! ## resetEdge -/

@[simp] theorem State.resetEdge_irqEn : s.resetEdge.irqEn = false := rfl
@[simp] theorem State.resetEdge_rxPartial : s.resetEdge.rxPartial = false := rfl
@[simp] theorem State.resetEdge_done : s.resetEdge.done = false := rfl
@[simp] theorem State.resetEdge_err : s.resetEdge.err = .noError := rfl
@[simp] theorem State.resetEdge_len : s.resetEdge.len = 0 := rfl
@[simp] theorem State.resetEdge_timeout : s.resetEdge.timeout = 0 := rfl
@[simp] theorem State.resetEdge_result : s.resetEdge.result = 0 := rfl
@[simp] theorem State.resetEdge_pos : s.resetEdge.pos = 0 := rfl
@[simp] theorem State.resetEdge_hdr : s.resetEdge.hdr = 0 := rfl
@[simp] theorem State.resetEdge_codecData0 : s.resetEdge.codecData0 = 0 := rfl
@[simp] theorem State.resetEdge_codecData1 : s.resetEdge.codecData1 = 0 := rfl
@[simp] theorem State.resetEdge_cfgSize : s.resetEdge.cfgSize = 0 := rfl
@[simp] theorem State.resetEdge_cfgIsFirst : s.resetEdge.cfgIsFirst = false := rfl
@[simp] theorem State.resetEdge_cfgHdrIn : s.resetEdge.cfgHdrIn = 0 := rfl
@[simp] theorem State.resetEdge_resCk : s.resetEdge.resCk = 0 := rfl
@[simp] theorem State.resetEdge_resHdrOut : s.resetEdge.resHdrOut = 0 := rfl
@[simp] theorem State.resetEdge_resDecCk : s.resetEdge.resDecCk = 0 := rfl
@[simp] theorem State.resetEdge_resDecFirst : s.resetEdge.resDecFirst = false := rfl
@[simp] theorem State.resetEdge_resDecSize : s.resetEdge.resDecSize = 0 := rfl
@[simp] theorem State.resetEdge_fsm : s.resetEdge.fsm = .idle := rfl
@[simp] theorem State.resetEdge_first : s.resetEdge.first = false := rfl
@[simp] theorem State.resetEdge_bsize : s.resetEdge.bsize = 0 := rfl
@[simp] theorem State.resetEdge_rsize : s.resetEdge.rsize = 0 := rfl
@[simp] theorem State.resetEdge_k : s.resetEdge.k = 0 := rfl
@[simp] theorem State.resetEdge_elapsed : s.resetEdge.elapsed = 0 := rfl
@[simp] theorem State.resetEdge_buf : s.resetEdge.buf = [] := rfl
@[simp] theorem State.resetEdge_base : s.resetEdge.base = s.base := rfl
@[simp] theorem State.resetEdge_bufBytes : s.resetEdge.bufBytes = s.bufBytes := rfl
@[simp] theorem State.resetEdge_bufEpoch : s.resetEdge.bufEpoch = s.bufEpoch + 1 := rfl
@[simp] theorem State.resetEdge_cycle : s.resetEdge.cycle = s.cycle := rfl
@[simp] theorem State.resetEdge_inputs : s.resetEdge.inputs = s.inputs := rfl
@[simp] theorem State.resetEdge_out : s.resetEdge.out = s.out := rfl

/-! ## The views -/

@[simp] theorem EngineView.ended_fsm (e : EngineView) (c : ErrCode) (r : Word) : (e.ended c r).fsm = .idle := rfl
@[simp] theorem EngineView.ended_err (e : EngineView) (c : ErrCode) (r : Word) : (e.ended c r).err = c := rfl
@[simp] theorem EngineView.ended_result (e : EngineView) (c : ErrCode) (r : Word) : (e.ended c r).result = r := rfl
@[simp] theorem EngineView.counted_elapsed (e : EngineView) (b : Bool) :
    (e.counted b).elapsed = countTick e.elapsed b := rfl
@[simp] theorem State.abort_engine (c : ErrCode) (r : Word) : (s.abort c r).engine = s.engine.ended c r := rfl
@[simp] theorem State.sampled_engine : s.sampled.engine = s.engine := rfl
@[simp] theorem State.sampled_hostRegs : s.sampled.hostRegs = s.hostRegs := rfl
@[simp] theorem State.sampled_busy : s.sampled.busy = s.busy := rfl
@[simp] theorem State.sampled_bufByte (i : Nat) : s.sampled.bufByte i = s.bufByte i := rfl
@[simp] theorem State.sampled_bufBlock (a n : Nat) : s.sampled.bufBlock a n = s.bufBlock a n := rfl
@[simp] theorem State.sampled_rxfail : s.sampled.rxfail = s.rxfail := rfl
@[simp] theorem State.sampled_timeoutExpired : s.sampled.timeoutExpired = s.timeoutExpired := rfl
@[simp] theorem State.sampled_payload : s.sampled.payload = s.payload := rfl

/-! ## The coming cycle's inputs -/

@[simp] theorem CycleInput.fromBus_rst (x : CycleInput) (b : Word) : (x.fromBus b).rst = x.rst := rfl
@[simp] theorem CycleInput.fromBus_tx (x : CycleInput) (b : Word) : (x.fromBus b).tx = x.tx := rfl
@[simp] theorem CycleInput.fromBus_rx (x : CycleInput) (b : Word) : (x.fromBus b).rx = x.rx := rfl
@[simp] theorem CycleInput.fromBus_rxData (x : CycleInput) (b : Word) : (x.fromBus b).rxData = x.rxData := rfl
@[simp] theorem CycleInput.fromBus_tick (x : CycleInput) (b : Word) : (x.fromBus b).tick = x.tick := rfl
@[simp] theorem CycleInput.fromBus_access (x : CycleInput) (b : Word) :
    (x.fromBus b).access = x.access.mapPlace (· - b) := rfl

/-- Taking BASE off an address gives the offset it was made of. -/
@[simp] theorem CycleInput.toBus_fromBus (x : CycleInput) (b : Word) : (x.toBus b).fromBus b = x := by
  obtain ⟨r, a, t, u, d, k⟩ := x
  cases a <;> simp [toBus, fromBus, HostAccess.mapPlace, BitVec.add_comm b]

/-- A listed input is the coming cycle's, its access at its offset. -/
theorem State.nextInput_cons {x : CycleInput} {l : List CycleInput} (h : s.inputs = x :: l) :
    s.nextInput = x.fromBus s.base := by simp only [nextInput, drawnInput, h]

@[simp] theorem State.withInput_nextInput (x : CycleInput) : (s.withInput x).nextInput = x :=
  CycleInput.toBus_fromBus x s.base

/-- Replacing the coming cycle's inputs changes what its pins show, and nothing else of the state its rules read. -/
theorem State.withInput_sampled (x : CycleInput) :
    (s.withInput x).sampled = { s.sampled with out := cycleOutput s x } := by
  rw [sampled, withInput_nextInput]; rfl
@[simp] theorem State.withInput_engine (x : CycleInput) : (s.withInput x).engine = s.engine := rfl
@[simp] theorem State.withFetchWord_nextInput (n w : Nat) :
    (s.withFetchWord n w).nextInput = commandInput (commandWord n w) :=
  CycleInput.toBus_fromBus (commandInput (commandWord n w)) s.base

/-- BUSY is 1 exactly outside IDLE (10_state.md R37). -/
theorem State.busy_iff : s.busy = true ↔ s.fsm ≠ .idle := by simp [State.busy]

/-- BUSY is 0 exactly in IDLE (10_state.md R37). -/
theorem State.not_busy_iff : s.busy = false ↔ s.fsm = .idle := by simp [State.busy]

/-- Equal engine views give equal engine registers. -/
theorem State.engine_eq_iff (t : State) : t.engine = s.engine ↔
    t.err = s.err ∧ t.len = s.len ∧ t.timeout = s.timeout ∧ t.rxPartial = s.rxPartial ∧ t.result = s.result ∧
      t.pos = s.pos ∧ t.hdr = s.hdr ∧ t.fsm = s.fsm ∧ t.first = s.first ∧ t.bsize = s.bsize ∧ t.rsize = s.rsize ∧
      t.k = s.k ∧ t.elapsed = s.elapsed ∧ t.buf = s.buf ∧ t.bufBytes = s.bufBytes ∧ t.bufEpoch = s.bufEpoch := by
  simp [State.engine]

end Sys2Proof.Machine
end

