-- ==== Sys2Proof/Laws/Memory.lean ====
section
/-!
SUPPORT. The payload buffer: a read after a write, the canonical form, and the bytes of a written block.
-/
namespace Sys2Proof.Machine

/-- A read after a write to the same index gives the byte written, to another index what it gave before. -/
theorem Memory.read_write (m : List Host.Cell) (i j : Nat) (b : Byte) :
    Memory.read (Memory.write m i b) j = if j = i then some b else Memory.read m j := by
  induction m with
  | nil => simp [Memory.write, Memory.read, eq_comm]
  | cons c m ih =>
    simp only [Memory.write]
    split
    · simp [Memory.read, eq_comm]
    · split <;> rename_i h
      · subst h; by_cases hj : j = c.1 <;> simp [Memory.read, eq_comm, hj]
      · simp only [Memory.read, ih]
        by_cases hj : j = i
        · subst hj; simp [h]
        · simp [hj]

/-- What the canonical form says of the first entry and the rest. -/
theorem Memory.wf_cons_iff (c : Host.Cell) (m : List Host.Cell) :
    Memory.wf (c :: m) = true ↔ Memory.wf m = true ∧ ∀ d ∈ m, c.1 < d.1 := by
  induction m generalizing c with
  | nil => simp [Memory.wf]
  | cons d m ih =>
    simp only [Memory.wf, Bool.and_eq_true, decide_eq_true_eq, List.mem_cons, forall_eq_or_imp]
    constructor
    · rintro ⟨hcd, hd⟩
      exact ⟨hd, hcd, fun e he => lt_trans hcd (((ih d).1 hd).2 e he)⟩
    · rintro ⟨hd, hcd, -⟩
      exact ⟨hcd, hd⟩

/-- Every entry after a write is the one written or one that stood there. -/
theorem Memory.mem_write {m : List Host.Cell} {i : Nat} {b : Byte} {c : Host.Cell}
    (h : c ∈ Memory.write m i b) : c = (i, b) ∨ c ∈ m := by
  induction m with
  | nil => simpa [Memory.write] using h
  | cons d m ih =>
    simp only [Memory.write] at h
    split at h
    · simpa using h
    · split at h
      · rcases List.mem_cons.1 h with h | h
        · exact .inl h
        · exact .inr (List.mem_cons_of_mem _ h)
      · rcases List.mem_cons.1 h with h | h
        · exact .inr (h ▸ List.mem_cons_self)
        · exact (ih h).imp_right (List.mem_cons_of_mem _)

/-- A write keeps the canonical form. -/
theorem Memory.wf_write {m : List Host.Cell} (h : Memory.wf m = true) (i : Nat) (b : Byte) :
    Memory.wf (Memory.write m i b) = true := by
  induction m with
  | nil => rfl
  | cons c m ih =>
    obtain ⟨hm, hc⟩ := (Memory.wf_cons_iff c m).1 h
    simp only [Memory.write]
    split <;> rename_i h1
    · refine (Memory.wf_cons_iff _ _).2 ⟨h, fun d hd => ?_⟩
      rcases List.mem_cons.1 hd with rfl | hd
      · exact h1
      · exact lt_trans h1 (hc d hd)
    · split <;> rename_i h2
      · exact (Memory.wf_cons_iff _ _).2 ⟨hm, fun d hd => h2 ▸ hc d hd⟩
      · refine (Memory.wf_cons_iff _ _).2 ⟨ih hm, fun d hd => ?_⟩
        rcases Memory.mem_write hd with rfl | hd
        · show c.1 < i; omega
        · exact hc d hd

/-- Equal readings make equal memories: the canonical form is canonical. -/
theorem Memory.eq_of_read_eq {m n : List Host.Cell} (hm : Memory.wf m = true) (hn : Memory.wf n = true)
    (h : ∀ i, Memory.read m i = Memory.read n i) : m = n := by
  have absent : ∀ (l : List Host.Cell) (i : Nat), (∀ d ∈ l, i < d.1) → Memory.read l i = none := by
    intro l i hl
    induction l with
    | nil => rfl
    | cons d l ih =>
      have := hl d List.mem_cons_self
      simp only [Memory.read]
      rw [if_neg (by omega)]
      exact ih fun e he => hl e (List.mem_cons_of_mem _ he)
  induction m generalizing n with
  | nil =>
    cases n with
    | nil => rfl
    | cons d n => have := h d.1; simp [Memory.read] at this
  | cons c m ih =>
    obtain ⟨hm', hc⟩ := (Memory.wf_cons_iff c m).1 hm
    cases n with
    | nil => have := h c.1; simp [Memory.read] at this
    | cons d n =>
      obtain ⟨hn', hd⟩ := (Memory.wf_cons_iff d n).1 hn
      have key : c.1 = d.1 := by
        rcases lt_trichotomy c.1 d.1 with hlt | heq | hgt
        · have := h c.1
          rw [absent (d :: n) c.1 (by
            intro e he
            rcases List.mem_cons.1 he with rfl | he
            · exact hlt
            · exact lt_trans hlt (hd e he))] at this
          simp [Memory.read] at this
        · exact heq
        · have := h d.1
          rw [absent (c :: m) d.1 (by
            intro e he
            rcases List.mem_cons.1 he with rfl | he
            · exact hgt
            · exact lt_trans hgt (hc e he))] at this
          simp [Memory.read] at this
      have hv : c.2 = d.2 := by have := h c.1; simpa [Memory.read, key] using this
      have hcd : c = d := Prod.ext key hv
      subst hcd
      congr 1
      refine ih hm' hn' fun i => ?_
      by_cases hi : c.1 = i
      · rw [absent m i fun e he => hi ▸ hc e he, absent n i fun e he => hi ▸ hd e he]
      · have := h i; simpa [Memory.read, hi] using this

/-- BUF after a write of one byte. -/
@[simp] theorem State.bufByte_writeByte (s : State) (i j : Nat) (b : Byte) :
    (s.writeByte i b).bufByte j = if j = i then b else s.bufByte j := by
  simp only [State.bufByte, State.writeByte_buf, State.writeByte_bufEpoch, Memory.read_write]
  split <;> rfl

/-- Writes of bytes change BUF alone. -/
theorem State.writeBytes_eq (s : State) (i : Nat) (bs : List Byte) :
    s.writeBytes i bs = { s with buf := (s.writeBytes i bs).buf } := by
  induction bs generalizing s i with
  | nil => rfl
  | cons b bs ih => rw [State.writeBytes, ih]; rfl

/-- BUF after writes of bytes at rising indices. -/
theorem State.bufByte_writeBytes (s : State) (i j : Nat) (bs : List Byte) :
    (s.writeBytes i bs).bufByte j = if i ≤ j ∧ j < i + bs.length then bs.getD (j - i) 0 else s.bufByte j := by
  induction bs generalizing s i with
  | nil => simp [State.writeBytes]
  | cons b bs ih =>
    rw [State.writeBytes, ih, State.bufByte_writeByte]
    by_cases hj : j = i
    · subst hj; simp
    · by_cases h : i ≤ j ∧ j < i + (b :: bs).length
      · have h' : i + 1 ≤ j ∧ j < i + 1 + bs.length := by simp only [List.length_cons] at h; omega
        rw [if_pos h', if_pos h]
        obtain ⟨d, rfl⟩ : ∃ d, j = i + 1 + d := ⟨j - (i + 1), by omega⟩
        simp [show i + 1 + d - i = d + 1 by omega]
      · have h' : ¬ (i + 1 ≤ j ∧ j < i + 1 + bs.length) := by simp only [List.length_cons] at h; omega
        rw [if_neg h', if_neg h, if_neg hj]

/-- Writes of bytes keep the canonical form. -/
theorem State.wf_writeBytes (s : State) (i : Nat) (bs : List Byte) (h : Memory.wf s.buf = true) :
    Memory.wf (s.writeBytes i bs).buf = true := by
  induction bs generalizing s i with
  | nil => exact h
  | cons b bs ih => exact ih _ _ (Memory.wf_write h i b)

/-- Writes of bytes inside a bound keep the entries inside it. -/
theorem State.bound_writeBytes (s : State) (i n : Nat) (bs : List Byte) (h : ∀ c ∈ s.buf, c.1 < n)
    (hi : i + bs.length ≤ n) : ∀ c ∈ (s.writeBytes i bs).buf, c.1 < n := by
  induction bs generalizing s i with
  | nil => exact h
  | cons b bs ih =>
    simp only [List.length_cons] at hi
    refine ih _ _ (fun c hc => ?_) (by omega)
    rcases Memory.mem_write hc with rfl | hc
    · show i < n; omega
    · exact h c hc

/-- The reset state's memory has the canonical form. -/
theorem State.reset_buf_wf : Memory.wf State.reset.buf = true := rfl

end Sys2Proof.Machine
end

