-- ==== Sys2Proof/Laws/Bus.lean ====
section
/-!
SUPPORT. What the host's half of an edge can do: in a cycle that starts with BUSY = 1, with BUSY = 0, and what each register
offset and window offset reaches.
-/
namespace Sys2Proof.Machine

/-- The state with these host registers and this DONE. -/
def State.setHost (s : State) (v : HostView) (d : Bool) : State :=
  { s with
    irqEn := v.irqEn, codecData0 := v.codecData0, codecData1 := v.codecData1, cfgSize := v.cfgSize
    cfgIsFirst := v.cfgIsFirst, cfgHdrIn := v.cfgHdrIn, resCk := v.resCk, resHdrOut := v.resHdrOut
    resDecCk := v.resDecCk, resDecFirst := v.resDecFirst, resDecSize := v.resDecSize, base := v.base, done := d }

section SetHost
variable (s : State) (v : HostView) (d : Bool)
@[simp] theorem State.setHost_engine : (s.setHost v d).engine = s.engine := rfl
@[simp] theorem State.setHost_hostRegs : (s.setHost v d).hostRegs = v := rfl
@[simp] theorem State.setHost_done : (s.setHost v d).done = d := rfl
@[simp] theorem State.setHost_fsm : (s.setHost v d).fsm = s.fsm := rfl
@[simp] theorem State.setHost_busy : (s.setHost v d).busy = s.busy := rfl
@[simp] theorem State.setHost_out : (s.setHost v d).out = s.out := rfl
@[simp] theorem State.setHost_base : (s.setHost v d).base = v.base := rfl
@[simp] theorem State.setHost_err : (s.setHost v d).err = s.err := rfl
@[simp] theorem State.setHost_len : (s.setHost v d).len = s.len := rfl
@[simp] theorem State.setHost_timeout : (s.setHost v d).timeout = s.timeout := rfl
@[simp] theorem State.setHost_rxPartial : (s.setHost v d).rxPartial = s.rxPartial := rfl
@[simp] theorem State.setHost_result : (s.setHost v d).result = s.result := rfl
@[simp] theorem State.setHost_pos : (s.setHost v d).pos = s.pos := rfl
@[simp] theorem State.setHost_hdr : (s.setHost v d).hdr = s.hdr := rfl
@[simp] theorem State.setHost_first : (s.setHost v d).first = s.first := rfl
@[simp] theorem State.setHost_bsize : (s.setHost v d).bsize = s.bsize := rfl
@[simp] theorem State.setHost_rsize : (s.setHost v d).rsize = s.rsize := rfl
@[simp] theorem State.setHost_k : (s.setHost v d).k = s.k := rfl
@[simp] theorem State.setHost_elapsed : (s.setHost v d).elapsed = s.elapsed := rfl
@[simp] theorem State.setHost_buf : (s.setHost v d).buf = s.buf := rfl
@[simp] theorem State.setHost_bufBytes : (s.setHost v d).bufBytes = s.bufBytes := rfl
@[simp] theorem State.setHost_bufEpoch : (s.setHost v d).bufEpoch = s.bufEpoch := rfl
@[simp] theorem State.setHost_cycle : (s.setHost v d).cycle = s.cycle := rfl
@[simp] theorem State.setHost_inputs : (s.setHost v d).inputs = s.inputs := rfl
@[simp] theorem State.setHost_rxfail : (s.setHost v d).rxfail = s.rxfail := rfl
@[simp] theorem State.setHost_timeoutExpired : (s.setHost v d).timeoutExpired = s.timeoutExpired := rfl
@[simp] theorem State.setHost_bufByte (i : Nat) : (s.setHost v d).bufByte i = s.bufByte i := rfl
@[simp] theorem State.setHost_bufBlock (a n : Nat) : (s.setHost v d).bufBlock a n = s.bufBlock a n := rfl
end SetHost

/-- The host registers after a host access to a busy FTBC (10_state.md R35, R45, R46). -/
def HostView.written (h : HostView) : HostAccess → HostView
  | .quiet => h
  | .read _ _ => h
  | .write off n v =>
    if n ≠ .four then h
    else if off = 0x000 then { h with irqEn := v.getLsbD 0 }
    else if off = 0x024 then { h with codecData0 := v }
    else if off = 0x028 then { h with codecData1 := v }
    else if off = 0x02C then
      { h with cfgSize := v.extractLsb' 0 4, cfgIsFirst := v.getLsbD 4, cfgHdrIn := v.extractLsb' 8 8 }
    else h

/-- The offset of a register (10_state.md R34). -/
def registerOffset : Reg → Word
  | .ctrl => 0x000
  | .cmd => 0x004
  | .status => 0x008
  | .err => 0x00C
  | .len => 0x010
  | .timeout => 0x014
  | .result => 0x018
  | .pos => 0x01C
  | .hdr => 0x020
  | .codecData0 => 0x024
  | .codecData1 => 0x028
  | .codecCfg => 0x02C
  | .codecRes => 0x030

@[simp] theorem registerAt_registerOffset (r : Reg) : registerAt (registerOffset r) = some r := by
  cases r <;> rfl

/-- The register map is one to one (10_state.md R34). -/
theorem registerAt_eq_some_iff (off : Word) (r : Reg) : registerAt off = some r ↔ off = registerOffset r := by
  constructor
  · intro h
    unfold registerAt at h
    split at h <;> first
      | (cases h; rename_i ho; exact BitVec.eq_of_toNat_eq ho)
      | cases h
  · rintro rfl
    exact registerAt_registerOffset r

/-- A register is reached by its offset and four bytes (20_memory.md R82). -/
theorem busTarget_register_iff (s : State) (off : Word) (n : AccessSize) (r : Reg) :
    busTarget s off n = .register r ↔ off = registerOffset r ∧ n = .four := by
  unfold busTarget
  split <;> rename_i q
  · rename_i r'
    rw [registerAt_eq_some_iff] at q
    subst q
    by_cases hn : n = .four
    · simp only [hn, if_true, and_true, BusTarget.register.injEq]
      constructor
      · rintro rfl; rfl
      · intro h
        have := congrArg registerAt h
        simpa using this
    · simp [hn]
  · have hne : off ≠ registerOffset r := by rintro rfl; simp at q
    simp only [hne, false_and, iff_false]
    split <;> simp

/-- A window access: inside the window, aligned, ending inside BUF (20_memory.md R83, R85). -/
theorem busTarget_buffer_iff (s : State) (off : Word) (n : AccessSize) (i : Nat) :
    busTarget s off n = .buffer i ↔
      off.toNat = 0x1000 + i ∧ i % accessBytes n = 0 ∧ i + accessBytes n ≤ s.bufBytes := by
  unfold busTarget
  split <;> rename_i q
  · rename_i r
    rw [registerAt_eq_some_iff] at q
    have hlt : off.toNat < 0x1000 := by subst q; cases r <;> decide
    constructor
    · intro h; split at h <;> cases h
    · rintro ⟨h, -⟩; omega
  · unfold bufferIndexAt Config.bufWindow
    dsimp only
    by_cases hc : 0x1000 ≤ off.toNat ∧ (off.toNat - 0x1000) % accessBytes n = 0 ∧
        off.toNat - 0x1000 + accessBytes n ≤ s.bufBytes
    · rw [if_pos hc]
      simp only [BusTarget.buffer.injEq]
      constructor
      · rintro rfl; exact ⟨by omega, hc.2⟩
      · rintro ⟨h, -⟩; omega
    · rw [if_neg hc]
      simp only [reduceCtorEq, false_iff]
      rintro ⟨h1, h2, h3⟩
      apply hc
      rw [show off.toNat - 0x1000 = i by omega]
      exact ⟨by omega, h2, h3⟩

@[simp] theorem busTarget_sampled (s : State) (off : Word) (n : AccessSize) :
    busTarget s.sampled off n = busTarget s off n := rfl

/-- A command written while BUSY = 1 is ignored (10_state.md R36). -/
theorem exec_busy (i : Instr) (s : State) (h : s.busy = true) : exec i s = .next s := by
  cases i <;>
    simp [exec, execChecksum, execEncodeHeader, execDecodeHeader, execSend, execReceive, execIllegalOp0,
      execIllegalOp6to7, execIllegalOp8toF, illegalCommand, acceptCommand, h]

/-- Everything the host's half of an edge can do in a cycle that starts with BUSY = 1: it answers a next state, in which only
the host registers and DONE may differ (92_eei_decisions.md D12). -/
theorem hostEdge_busy (s : State) (a : HostAccess) (h : s.busy = true) :
    hostEdge s a = .next (s.setHost (s.hostRegs.written a) (s.done && !a.clearsDone)) := by
  have hsame : s.setHost s.hostRegs s.done = s := rfl
  cases a with
  | quiet => simp [hostEdge, HostView.written, HostAccess.clearsDone, hsame]
  | read off n => simp [hostEdge, HostView.written, HostAccess.clearsDone, hsame]
  | write off n v =>
    simp only [hostEdge]
    split
    · rename_i r hr
      obtain ⟨rfl, rfl⟩ := (busTarget_register_iff _ _ _ _).1 hr
      cases r <;>
        simp [writeRegister, exec_busy, h, HostView.written, HostAccess.clearsDone, registerOffset, State.setHost,
          State.hostRegs]
    · rename_i i hi
      have hoff := (busTarget_buffer_iff _ _ _ _).1 hi
      have hne : ∀ w : Word, w.toNat < 0x1000 → off ≠ w := by
        rintro w hw rfl; omega
      have h0 : off ≠ 0#32 := hne _ (by decide)
      have h1 : off ≠ 36#32 := hne _ (by decide)
      have h2 : off ≠ 40#32 := hne _ (by decide)
      have h3 : off ≠ 44#32 := hne _ (by decide)
      have h4 : off ≠ 8#32 := hne _ (by decide)
      simp [writeBuffer, h, HostView.written, HostAccess.clearsDone, h0, h1, h2, h3, h4, hsame]
    · rename_i ht
      have hne : ∀ r : Reg, ¬ (off = registerOffset r ∧ n = .four) := by
        intro r hr
        rw [(busTarget_register_iff s off n r).2 hr] at ht
        cases ht
      have h0 := hne .ctrl; have h1 := hne .codecData0; have h2 := hne .codecData1; have h3 := hne .codecCfg
      have h4 := hne .status
      simp only [registerOffset] at h0 h1 h2 h3 h4
      by_cases hn : n = .four
      · simp_all [HostView.written, HostAccess.clearsDone]
      · simp [HostView.written, HostAccess.clearsDone, hn, hsame]

/-- A step of a busy FTBC without reset is the host's half and then the engine's (20_memory.md R81). -/
theorem step_busy (s : State) (hb : s.busy = true) (hr : s.nextInput.rst = false) :
    step s = engineEdge (s.sampled.setHost (s.hostRegs.written s.nextInput.access)
      (s.done && !s.nextInput.access.clearsDone)) s.nextInput := by
  have h := hostEdge_busy s.sampled s.nextInput.access hb
  simp only [step, clockEdge, hr, h, andThen, State.sampled_busy, hb, State.sampled_hostRegs, State.sampled_done]
  simp

/-- A step of an idle FTBC without reset is the host's half alone. -/
theorem step_idle (s : State) (hb : s.fsm = .idle) (hr : s.nextInput.rst = false) :
    step s = hostEdge s.sampled s.nextInput.access := by
  have hb' : s.sampled.busy = false := (State.not_busy_iff s).2 hb
  simp only [step, clockEdge, hr, hb']
  cases hostEdge s.sampled s.nextInput.access <;> simp [andThen]

/-- A step with `rst` = 1 is the reset edge (70_reset_and_hazards.md R300). -/
theorem step_reset (s : State) (hr : s.nextInput.rst = true) : step s = .next s.sampled.resetEdge := by
  simp [step, clockEdge, hr]

end Sys2Proof.Machine
end

