-- ==== Sys2Proof/Laws/Engine.lean ====
section
/-!
SUPPORT. What the engine's half of an edge can do: which edge each FSM state takes, and what the shared operations of the
stream and of the block advances answer.
-/
namespace Sys2Proof.Machine

@[simp] theorem Config.maxBlock_eq : Config.maxBlock = 8 := rfl

section Edges
variable (s : State) (x : CycleInput)

theorem engineEdge_idle (h : s.fsm = .idle) : engineEdge s x = .next s := by simp [engineEdge, h]
theorem engineEdge_sHdr (h : s.fsm = .sHdr) : engineEdge s x = sHdrEdge s x.tx := by simp [engineEdge, h]
theorem engineEdge_sPay (h : s.fsm = .sPay) : engineEdge s x = sPayEdge s x.tx := by simp [engineEdge, h]
theorem engineEdge_sAck (h : s.fsm = .sAck) : engineEdge s x = sAckEdge s x.rx x.tick := by simp [engineEdge, h]
theorem engineEdge_rHdr (h : s.fsm = .rHdr) : engineEdge s x = rHdrEdge s x.rx x.tick := by simp [engineEdge, h]
theorem engineEdge_rPay (h : s.fsm = .rPay) : engineEdge s x = rPayEdge s x.rx x.tick := by simp [engineEdge, h]
theorem engineEdge_rChk (h : s.fsm = .rChk) : engineEdge s x = rChkEdge s := by simp [engineEdge, h]
theorem engineEdge_rAck (h : s.fsm = .rAck) : engineEdge s x = rAckEdge s x.tx := by simp [engineEdge, h]
theorem engineEdge_rFlush (h : s.fsm = .rFlush) : engineEdge s x = rFlushEdge s x.rx := by simp [engineEdge, h]

end Edges

/-- The header packer does not fail on sizes 1 to 8 (40_codec.md R141). -/
theorem enc_eq_some (p : List Byte) (n : Nat) (first : Bool) (h1 : 1 ≤ n) (h8 : n ≤ 8) :
    enc p n first = some (packHeader p n first) := by
  rw [enc, if_neg]; simp only [Config.maxBlock_eq]; omega

/-- timeout_expired in the spec's words (43_timed_read.md R242). -/
theorem State.timeoutExpired_iff (s : State) :
    s.timeoutExpired = true ↔ s.timeout ≠ 0 ∧ s.elapsed.toNat > s.timeout.toNat := by
  simp [State.timeoutExpired]

/-- The ELAPSED count in numbers (43_timed_read.md R241). -/
theorem countTick_toNat (e : Elapsed) (tick : Bool) :
    (countTick e tick).toNat = min (e.toNat + tick.toNat) (2 ^ 33 - 1) := by
  have he := e.isLt
  cases tick
  · simp [countTick]; omega
  · by_cases h : e = BitVec.allOnes 33
    · subst h; decide
    · have hlt : e.toNat ≠ 2 ^ 33 - 1 := fun he' => h (BitVec.eq_of_toNat_eq (by rw [he']; decide))
      have : countTick e true = e + 1 := if_pos (by simpa only [Bool.true_and, decide_eq_true_eq, ne_eq] using h)
      rw [this]; simp; omega

/-- The size of the next block (10_state.md R49). -/
theorem blockSize_toNat (r : Word) : (blockSize r).toNat = min 8 r.toNat := by
  simp [blockSize]

/-- A block has at least one byte where bytes remain (10_state.md R49). -/
theorem blockSize_pos {r : Word} (h : r ≠ 0) : 1 ≤ (blockSize r).toNat := by
  rw [blockSize_toNat]
  have : r.toNat ≠ 0 := fun e => h (BitVec.eq_of_toNat_eq e)
  omega

/-- Adding a 4-bit count to a 32-bit index is exact inside BUF (41_send.md R182). -/
theorem add_nibble_toNat (p : Word) (b : Nibble) (h : p.toNat + b.toNat < 2 ^ 32) :
    (p + b.setWidth 32).toNat = p.toNat + b.toNat := by
  simp; omega

/-- K + 1 is exact inside a block (10_state.md R51). -/
theorem succ_nibble {k b : Nibble} (h : k.toNat < b.toNat) :
    (k + 1).toNat = k.toNat + 1 ∧ (k + 1 = b ↔ k.toNat + 1 = b.toNat) := by
  revert k b; decide

/-- Everything an offer to the stream can answer (20_memory.md R91). -/
theorem offerByte_eq_next {s t : State} {tx : TxResp} {r : Word} {acc : Result} (h : offerByte s tx r acc = .next t) :
    (tx = .accept ∧ acc = .next t) ∨ (tx = .wait ∧ t = s) ∨
      ∃ c, (c = .writeShort ∨ c = .writeFailed ∨ c = .streamClosed) ∧ tx ≠ .accept ∧ tx ≠ .wait ∧ t = s.abort c r := by
  cases tx <;> simp only [offerByte, Host.Outcome.next.injEq] at h
  · exact .inr (.inl ⟨rfl, h.symm⟩)
  · exact .inl ⟨rfl, h⟩
  · exact .inr (.inr ⟨_, .inl rfl, by simp, by simp, h.symm⟩)
  · exact .inr (.inr ⟨_, .inr (.inl rfl), by simp, by simp, h.symm⟩)
  · exact .inr (.inr ⟨_, .inr (.inr rfl), by simp, by simp, h.symm⟩)

/-- The state in which a timed read goes on: ELAPSED has counted the tick (43_timed_read.md R241). -/
def State.ticked (s : State) (tick : Bool) : State := { s with elapsed := countTick s.elapsed tick }

/-- Everything a cycle of a timed read can answer (43_timed_read.md R240 to R244). -/
theorem timedRead_eq_next {s t : State} {rx : RxResp} {tick : Bool} {r : Word} {took : Byte → State → Result}
    (h : timedRead s rx tick r took = .next t) :
    (∃ b, rx = .data b ∧ took b (s.ticked tick) = .next t) ∨
      (rx = .noData ∧ s.timeoutExpired = false ∧ t = s.ticked tick) ∨
      ∃ c, (c = .readTimeout ∨ c = .readFailed ∨ c = .streamClosed) ∧ (∀ b, rx ≠ .data b) ∧
        t = (s.ticked tick).abort c r := by
  cases rx <;> simp only [timedRead, Host.Outcome.next.injEq] at h
  · subst h
    split <;> rename_i hx
    · exact .inr (.inr ⟨_, .inl rfl, by simp, rfl⟩)
    · exact .inr (.inl ⟨rfl, by simpa using hx, rfl⟩)
  · exact .inl ⟨_, rfl, h⟩
  · exact .inr (.inr ⟨_, .inr (.inl rfl), by simp, h.symm⟩)
  · exact .inr (.inr ⟨_, .inr (.inr rfl), by simp, h.symm⟩)

/-- Everything a block advance can answer (41_send.md R177, 42_receive.md R212). -/
theorem advanceBlock_eq_next {s t : State} {size : Nibble} {go : State → Result}
    (h : advanceBlock s size go = .next t) :
    (s.pos + size.setWidth 32 = s.len ∧
      t = { s with pos := s.len, first := false }.finish s.len) ∨
      (s.pos + size.setWidth 32 ≠ s.len ∧
        go { s with
          pos := s.pos + size.setWidth 32, first := false
          bsize := blockSize (s.len - (s.pos + size.setWidth 32)) } = .next t) := by
  simp only [advanceBlock] at h
  split at h <;> rename_i hp
  · rw [Host.Outcome.next.injEq, hp] at h
    exact .inl ⟨hp, h.symm⟩
  · exact .inr ⟨hp, h⟩

/-- Everything the entry to S_HDR can answer (41_send.md R171). -/
theorem enterSendBlock_eq_next {s t : State} (h : enterSendBlock s = .next t) :
    s.pos.toNat + s.bsize.toNat ≤ s.bufBytes ∧
      t = { s with
        hdr := packHeader (s.bufBlock s.pos.toNat s.bsize.toNat) s.bsize.toNat s.first, k := 0, fsm := .sHdr } := by
  simp only [enterSendBlock] at h
  split at h <;> rename_i hp
  · exact ⟨hp, (Host.Outcome.next.inj h).symm⟩
  · cases h

/-- The entry to S_HDR answers a next state where the block lies in BUF (41_send.md R171). -/
theorem enterSendBlock_next (s : State) (h : s.pos.toNat + s.bsize.toNat ≤ s.bufBytes) :
    enterSendBlock s = .next { s with
      hdr := packHeader (s.bufBlock s.pos.toNat s.bsize.toNat) s.bsize.toNat s.first, k := 0, fsm := .sHdr } := by
  simp [enterSendBlock, h]

/-- Everything the start of a transfer can answer (41_send.md R170, 42_receive.md R200). -/
theorem startTransfer_eq_next {s t : State} {go : State → Result} (h : startTransfer s go = .next t) :
    (s.bufBytes < s.len.toNat ∧
      t = { s with err := .lengthTooLarge, result := 0, pos := 0, first := false, done := true }) ∨
      (s.len = 0 ∧ t = { s with err := .noError, result := 0, pos := 0, first := false, done := true }) ∨
      (s.len.toNat ≤ s.bufBytes ∧ s.len ≠ 0 ∧
        go { s with err := .noError, result := 0, pos := 0, first := true, bsize := blockSize s.len } = .next t) := by
  simp only [startTransfer] at h
  split at h <;> rename_i h1
  · exact .inl ⟨h1, (Host.Outcome.next.inj h).symm⟩
  · split at h <;> rename_i h2
    · exact .inr (.inl ⟨h2, (Host.Outcome.next.inj h).symm⟩)
    · exact .inr (.inr ⟨by omega, h2, h⟩)

/-- A cycle of a busy FTBC without reset, as its engine sees it: the host's half has left the engine's registers alone. -/
theorem step_busy_engine (s : State) (hb : s.fsm ≠ .idle) (hr : s.nextInput.rst = false) :
    ∃ h : State, step s = engineEdge h s.nextInput ∧ h.engine = s.engine ∧ h.out = s.sampled.out ∧
      h.hostRegs = s.hostRegs.written s.nextInput.access ∧ h.done = (s.done && !s.nextInput.access.clearsDone) ∧
      h.cycle = s.cycle + 1 ∧ h.inputs = s.inputs.tail :=
  ⟨_, step_busy s ((State.busy_iff s).2 hb) hr, rfl, rfl, rfl, rfl, rfl, rfl⟩

/-- Equal engine views, field by field, and the buffer readings they give. -/
theorem State.engine_fields {h s : State} (he : h.engine = s.engine) :
    s.err = h.err ∧ s.len = h.len ∧ s.timeout = h.timeout ∧ s.rxPartial = h.rxPartial ∧ s.result = h.result ∧
      s.pos = h.pos ∧ s.hdr = h.hdr ∧ s.fsm = h.fsm ∧ s.first = h.first ∧ s.bsize = h.bsize ∧ s.rsize = h.rsize ∧
      s.k = h.k ∧ s.elapsed = h.elapsed ∧ s.buf = h.buf ∧ s.bufBytes = h.bufBytes ∧ s.bufEpoch = h.bufEpoch ∧
      s.bufByte = h.bufByte ∧ s.bufBlock = h.bufBlock := by
  obtain ⟨h1, h2, h3, h4, h5, h6, h7, h8, h9, h10, h11, h12, h13, h14, h15, h16⟩ := (State.engine_eq_iff h s).1 he.symm
  have hbyte : s.bufByte = h.bufByte := by funext i; simp only [State.bufByte, h14, h16]
  exact ⟨h1, h2, h3, h4, h5, h6, h7, h8, h9, h10, h11, h12, h13, h14, h15, h16, hbyte,
    by funext a n; simp only [State.bufBlock, hbyte]⟩

end Sys2Proof.Machine
end

