-- ==== Sys2Proof/Laws/PerInstr.lean ====
section
/-!
SUPPORT. What holds of every command as syntax, one lemma per constructor.
-/
namespace Sys2Proof.Laws.EncodingMatchesTable

/-- The word a well-formed command encodes to has its row's match value under its row's mask (spec/opcode_table.json), and
nothing above OP (30_encoding.md R113). -/
def Statement (i : Instr) : Prop :=
  i.wf = true → encode i &&& tableMask i = tableMatch i ∧ encode i &&& 0xFFFFFFF0 = 0

theorem checksum : Statement .checksum := fun _ => by decide

theorem encodeHeader : Statement .encodeHeader := fun _ => by decide

theorem decodeHeader : Statement .decodeHeader := fun _ => by decide

theorem send : Statement .send := fun _ => by decide

theorem receive : Statement .receive := fun _ => by decide

theorem illegalOp0 : Statement .illegalOp0 := fun _ => by decide

theorem illegalOp6to7 (op : Nibble) : Statement (.illegalOp6to7 op) := by
  unfold Statement; revert op; decide

theorem illegalOp8toF (op : Nibble) : Statement (.illegalOp8toF op) := by
  unfold Statement; revert op; decide

end Sys2Proof.Laws.EncodingMatchesTable
end

