-- ==== Sys2Proof/Laws/Step.lean ====
section
/-!
SUPPORT. What a step leaves alone: the engine's half of an edge touches no host register and no model field, and sets DONE
exactly when it ends the command; every step records its cycle's outputs and takes its cycle's inputs.
-/
namespace Sys2Proof.Machine

/-- What a piece of the engine's work leaves alone, with DONE set exactly when the command has ended (60_exceptions.md R262). -/
abbrev State.EngineKeeps (s t : State) : Prop :=
  t.out = s.out ∧ t.hostRegs = s.hostRegs ∧ t.cycle = s.cycle ∧ t.inputs = s.inputs ∧
    t.done = (decide (t.fsm = .idle) || s.done)

/-- An ending keeps it. -/
theorem State.EngineKeeps.abort (s : State) (c : ErrCode) (r : Word) : s.EngineKeeps (s.abort c r) :=
  ⟨rfl, rfl, rfl, rfl, rfl⟩

/-- Going on without an ending keeps it. -/
theorem State.EngineKeeps.goOn {s t : State} (ht : t.fsm ≠ .idle) (h1 : t.out = s.out) (h2 : t.hostRegs = s.hostRegs)
    (h3 : t.cycle = s.cycle) (h4 : t.inputs = s.inputs) (h5 : t.done = s.done) : s.EngineKeeps t :=
  ⟨h1, h2, h3, h4, by simp [ht, h5]⟩

/-- The entry to S_HDR keeps it. -/
theorem State.EngineKeeps.enterSend {s t : State} (h : enterSendBlock s = .next t) : s.EngineKeeps t := by
  obtain ⟨-, rfl⟩ := enterSendBlock_eq_next h
  exact .goOn (by simp) rfl rfl rfl rfl rfl

/-- The entry to R_HDR keeps it. -/
theorem State.EngineKeeps.enterReceive {s t : State} (h : enterReceiveBlock s = .next t) : s.EngineKeeps t := by
  cases h
  exact .goOn (by simp) rfl rfl rfl rfl rfl

/-- A block advance keeps it where what it goes on with does. -/
theorem State.EngineKeeps.advance {s t : State} {size : Nibble} {go : State → Result}
    (h : advanceBlock s size go = .next t) (hgo : ∀ u v, go u = .next v → u.EngineKeeps v) : s.EngineKeeps t := by
  obtain ⟨-, rfl⟩ | ⟨-, h⟩ := advanceBlock_eq_next h
  · exact ⟨rfl, rfl, rfl, rfl, rfl⟩
  · have := hgo _ _ h; exact this

/-- An offered byte keeps it where what follows its acceptance does. -/
theorem State.EngineKeeps.offer {s t : State} {tx : TxResp} {r : Word} {acc : Result} (hf : s.fsm ≠ .idle)
    (h : offerByte s tx r acc = .next t) (hacc : ∀ v, acc = .next v → s.EngineKeeps v) : s.EngineKeeps t := by
  obtain ⟨-, h⟩ | ⟨-, rfl⟩ | ⟨c, -, -, -, rfl⟩ := offerByte_eq_next h
  · exact hacc _ h
  · exact .goOn hf rfl rfl rfl rfl rfl
  · exact .abort ..

/-- A cycle of a timed read keeps it where what takes the byte does. -/
theorem State.EngineKeeps.timed {s t : State} {rx : RxResp} {tick : Bool} {r : Word} {took : Byte → State → Result}
    (hf : s.fsm ≠ .idle) (h : timedRead s rx tick r took = .next t)
    (htook : ∀ b v, took b (s.ticked tick) = .next v → s.EngineKeeps v) : s.EngineKeeps t := by
  obtain ⟨b, -, h⟩ | ⟨-, -, rfl⟩ | ⟨c, -, -, rfl⟩ := timedRead_eq_next h
  · exact htook _ _ h
  · exact .goOn hf rfl rfl rfl rfl rfl
  · exact ⟨rfl, rfl, rfl, rfl, rfl⟩

/-- The engine's half of an edge keeps it, in every FSM state (10_state.md R33). -/
theorem engineEdge_keeps {s t : State} {x : CycleInput} (hf : s.fsm ≠ .idle) (h : engineEdge s x = .next t) :
    s.EngineKeeps t := by
  cases hs : s.fsm with
  | idle => exact absurd hs hf
  | sHdr =>
    rw [engineEdge_sHdr _ _ hs] at h
    refine .offer hf h fun v hv => ?_
    cases hv; exact .goOn (by simp) rfl rfl rfl rfl rfl
  | sPay =>
    rw [engineEdge_sPay _ _ hs, sPayEdge] at h
    split at h
    · refine .offer hf h fun v hv => ?_
      split at hv <;> cases hv
      · exact .goOn (by simp) rfl rfl rfl rfl rfl
      · exact .goOn hf rfl rfl rfl rfl rfl
    · cases h
  | sAck =>
    rw [engineEdge_sAck _ _ hs] at h
    refine .timed hf h fun b v hv => ?_
    split at hv
    · exact State.EngineKeeps.advance (s := s.ticked x.tick) hv fun _ _ => .enterSend
    · cases hv; exact ⟨rfl, rfl, rfl, rfl, rfl⟩
  | rHdr =>
    rw [engineEdge_rHdr _ _ hs] at h
    refine .timed hf h fun b v hv => ?_
    dsimp only at hv
    split at hv
    · cases hv; exact ⟨rfl, rfl, rfl, rfl, rfl⟩
    · split at hv <;> cases hv <;> exact .goOn (by simp) rfl rfl rfl rfl rfl
  | rPay =>
    rw [engineEdge_rPay _ _ hs] at h
    refine .timed hf h fun b v hv => ?_
    dsimp only at hv
    split at hv
    · split at hv <;> cases hv
      · exact .goOn (by simp) rfl rfl rfl rfl rfl
      · exact .goOn hf rfl rfl rfl rfl rfl
    · cases hv
  | rChk =>
    rw [engineEdge_rChk _ _ hs, rChkEdge] at h
    split at h
    · split at h <;> cases h
      · exact .goOn (by simp) rfl rfl rfl rfl rfl
      · exact .abort ..
    · cases h
  | rAck =>
    rw [engineEdge_rAck _ _ hs] at h
    exact .offer hf h fun _ hv => .advance hv fun _ _ => .enterReceive
  | rFlush =>
    rw [engineEdge_rFlush _ _ hs, rFlushEdge.eq_def] at h
    split at h <;> cases h
    · exact .goOn hf rfl rfl rfl rfl rfl
    all_goals exact .abort ..

/-- Everything a command accepted or ignored leaves alone: the parameters, the buffer, the inputs and the last outputs. -/
theorem exec_keeps {i : Instr} {s t : State} (h : exec i s = .next t) :
    t.out = s.out ∧ t.cycle = s.cycle ∧ t.inputs = s.inputs ∧ t.buf = s.buf ∧ t.bufBytes = s.bufBytes ∧
      t.bufEpoch = s.bufEpoch ∧ t.base = s.base := by
  by_cases hb : s.busy = true
  · rw [exec_busy i s hb] at h; cases h; exact ⟨rfl, rfl, rfl, rfl, rfl, rfl, rfl⟩
  have hb : s.busy = false := by simpa using hb
  cases i
  case checksum =>
    simp only [exec, execChecksum, acceptCommand, hb, Bool.false_eq_true, if_false] at h
    split at h <;> cases h <;> exact ⟨rfl, rfl, rfl, rfl, rfl, rfl, rfl⟩
  case encodeHeader =>
    simp only [exec, execEncodeHeader, acceptCommand, hb, Bool.false_eq_true, if_false] at h
    split at h <;> cases h <;> exact ⟨rfl, rfl, rfl, rfl, rfl, rfl, rfl⟩
  case decodeHeader =>
    simp only [exec, execDecodeHeader, acceptCommand, hb, Bool.false_eq_true, if_false] at h
    cases h; exact ⟨rfl, rfl, rfl, rfl, rfl, rfl, rfl⟩
  case send =>
    simp only [exec, execSend, acceptCommand, hb, Bool.false_eq_true, if_false] at h
    obtain ⟨-, rfl⟩ | ⟨-, rfl⟩ | ⟨-, -, h⟩ := startTransfer_eq_next h
    · exact ⟨rfl, rfl, rfl, rfl, rfl, rfl, rfl⟩
    · exact ⟨rfl, rfl, rfl, rfl, rfl, rfl, rfl⟩
    · obtain ⟨-, rfl⟩ := enterSendBlock_eq_next h; exact ⟨rfl, rfl, rfl, rfl, rfl, rfl, rfl⟩
  case receive =>
    simp only [exec, execReceive, acceptCommand, hb, Bool.false_eq_true, if_false] at h
    obtain ⟨-, rfl⟩ | ⟨-, rfl⟩ | ⟨-, -, h⟩ := startTransfer_eq_next h
    · exact ⟨rfl, rfl, rfl, rfl, rfl, rfl, rfl⟩
    · exact ⟨rfl, rfl, rfl, rfl, rfl, rfl, rfl⟩
    · cases h; exact ⟨rfl, rfl, rfl, rfl, rfl, rfl, rfl⟩
  all_goals
    simp only [exec, execIllegalOp0, execIllegalOp6to7, execIllegalOp8toF, illegalCommand, acceptCommand, hb,
      Bool.false_eq_true, if_false] at h
    cases h; exact ⟨rfl, rfl, rfl, rfl, rfl, rfl, rfl⟩

/-- The host's half of an edge leaves the inputs, the recorded outputs and the parameters alone. -/
theorem hostEdge_keeps {a : HostAccess} {s t : State} (h : hostEdge s a = .next t) :
    t.out = s.out ∧ t.cycle = s.cycle ∧ t.inputs = s.inputs ∧ t.bufBytes = s.bufBytes ∧ t.base = s.base := by
  cases a with
  | quiet => cases h; exact ⟨rfl, rfl, rfl, rfl, rfl⟩
  | read => cases h; exact ⟨rfl, rfl, rfl, rfl, rfl⟩
  | write off n v =>
    simp only [hostEdge] at h
    split at h
    · rename_i r hr
      cases r <;> simp only [writeRegister] at h
      case cmd => obtain ⟨h1, h2, h3, -, h4, -, h5⟩ := exec_keeps h; exact ⟨h1, h2, h3, h4, h5⟩
      all_goals cases h; exact ⟨rfl, rfl, rfl, rfl, rfl⟩
    · cases h
      simp only [writeBuffer]
      split
      · exact ⟨rfl, rfl, rfl, rfl, rfl⟩
      · rw [State.writeBytes_eq]; exact ⟨rfl, rfl, rfl, rfl, rfl⟩
    · cases h; exact ⟨rfl, rfl, rfl, rfl, rfl⟩

/-- Every step shows its cycle's outputs and takes its cycle's inputs. -/
theorem step_keeps {s t : State} (h : step s = .next t) :
    t.out = cycleOutput s s.nextInput ∧ t.cycle = s.cycle + 1 ∧ t.inputs = s.inputs.tail := by
  by_cases hr : s.nextInput.rst = true
  · rw [step_reset s hr] at h; cases h; exact ⟨rfl, rfl, rfl⟩
  have hr : s.nextInput.rst = false := by simpa using hr
  by_cases hf : s.fsm = .idle
  · rw [step_idle s hf hr] at h
    obtain ⟨h1, h2, h3, -⟩ := hostEdge_keeps h
    exact ⟨h1, h2, h3⟩
  · obtain ⟨h', hst, he, hout, -, -, hc, hi⟩ := step_busy_engine s hf hr
    rw [hst] at h
    have hf' : h'.fsm ≠ .idle := by rw [← (State.engine_fields he).2.2.2.2.2.2.2.1]; exact hf
    obtain ⟨h1, -, h2, h3, -⟩ := engineEdge_keeps hf' h
    exact ⟨by rw [h1, hout]; rfl, by rw [h2, hc], by rw [h3, hi]⟩

/-- The state with everything but the engine's view replaced. -/
def State.setRest (s : State) (v : HostView) (d : Bool) (o : CycleOutput) (c : Nat) (i : List CycleInput) : State :=
  { s.setHost v d with out := o, cycle := c, inputs := i }

/-- Equal engine views make states that differ in the rest alone. -/
theorem State.eq_setRest {s u : State} (h : u.engine = s.engine) :
    u = s.setRest u.hostRegs u.done u.out u.cycle u.inputs := by
  obtain ⟨h1, h2, h3, h4, h5, h6, h7, h8, h9, h10, h11, h12, h13, h14, h15, h16, -⟩ := State.engine_fields h.symm
  cases u; simp_all [State.setRest, State.setHost, State.hostRegs]

/-- A state is its engine view and the rest. -/
theorem State.ext_views {s u : State} (h1 : u.engine = s.engine) (h2 : u.hostRegs = s.hostRegs) (h3 : u.done = s.done)
    (h4 : u.out = s.out) (h5 : u.cycle = s.cycle) (h6 : u.inputs = s.inputs) : u = s := by
  rw [State.eq_setRest h1, h2, h3, h4, h5, h6]; rfl

/-- A block advance works on the engine's view alone where what it goes on with does. -/
theorem advanceBlock_setRest {s t : State} {size : Nibble} {go : State → Result} (v d o c i)
    (h : advanceBlock s size go = .next t)
    (hgo : ∀ u w, go u = .next w → ∃ w', go (u.setRest v d o c i) = .next w' ∧ w'.engine = w.engine) :
    ∃ u, advanceBlock (s.setRest v d o c i) size go = .next u ∧ u.engine = t.engine := by
  obtain ⟨hp, rfl⟩ | ⟨hp, h⟩ := advanceBlock_eq_next h
  · refine ⟨_, if_pos hp, ?_⟩
    show EngineView.mk .. = EngineView.mk ..
    simp only [EngineView.mk.injEq]
    exact ⟨rfl, rfl, rfl, rfl, rfl, hp, rfl, rfl, rfl, rfl, rfl, rfl, rfl, rfl, rfl, rfl⟩
  · obtain ⟨w', h1, h2⟩ := hgo _ _ h
    exact ⟨w', (if_neg hp).trans h1, h2⟩

/-- The entry to S_HDR works on the engine's view alone. -/
theorem enterSendBlock_setRest {s t : State} (v d o c i) (h : enterSendBlock s = .next t) :
    ∃ u, enterSendBlock (s.setRest v d o c i) = .next u ∧ u.engine = t.engine := by
  obtain ⟨hp, rfl⟩ := enterSendBlock_eq_next h
  exact ⟨_, if_pos hp, rfl⟩

/-- An offered byte works on the engine's view alone where what follows its acceptance does. -/
theorem offerByte_setRest {s t : State} {tx : TxResp} {r : Word} {acc acc' : Result} (v d o c i)
    (h : offerByte s tx r acc = .next t)
    (hacc : ∀ w, acc = .next w → ∃ w', acc' = .next w' ∧ w'.engine = w.engine) :
    ∃ u, offerByte (s.setRest v d o c i) tx r acc' = .next u ∧ u.engine = t.engine := by
  cases tx <;> simp only [offerByte] at h ⊢
  case accept => exact hacc _ h
  all_goals cases h; exact ⟨_, rfl, rfl⟩

/-- A cycle of a timed read works on the engine's view alone where what takes the byte does. -/
theorem timedRead_setRest {s t : State} {rx : RxResp} {tick : Bool} {r : Word} {took took' : Byte → State → Result}
    (v d o c i) (h : timedRead s rx tick r took = .next t)
    (htook : ∀ b w, took b (s.ticked tick) = .next w →
      ∃ w', took' b ((s.ticked tick).setRest v d o c i) = .next w' ∧ w'.engine = w.engine) :
    ∃ u, timedRead (s.setRest v d o c i) rx tick r took' = .next u ∧ u.engine = t.engine := by
  cases rx <;> simp only [timedRead] at h ⊢
  case data b => exact htook b _ h
  case noData =>
    rw [show (s.setRest v d o c i).timeoutExpired = s.timeoutExpired from rfl]
    cases h
    refine ⟨_, rfl, ?_⟩
    split <;> rfl
  all_goals cases h; exact ⟨_, rfl, rfl⟩

/-- The engine's half of an edge works on the engine's view alone (92_eei_decisions.md D12). -/
theorem engineEdge_setRest {s t : State} {x : CycleInput} (v d o c i) (h : engineEdge s x = .next t) :
    ∃ u, engineEdge (s.setRest v d o c i) x = .next u ∧ u.engine = t.engine := by
  have hr : (s.setRest v d o c i).fsm = s.fsm := rfl
  cases hs : s.fsm with
  | idle =>
    rw [engineEdge_idle _ _ hs] at h; cases h
    exact ⟨_, engineEdge_idle _ _ hs, rfl⟩
  | sHdr =>
    rw [engineEdge_sHdr _ _ hs] at h; rw [engineEdge_sHdr _ _ (hr.trans hs)]
    refine offerByte_setRest v d o c i h fun w hw => ?_
    cases hw; exact ⟨_, rfl, rfl⟩
  | sPay =>
    rw [engineEdge_sPay _ _ hs, sPayEdge] at h; rw [engineEdge_sPay _ _ (hr.trans hs), sPayEdge]
    split at h <;> rename_i hp
    · obtain ⟨u, h1, h2⟩ := offerByte_setRest (acc' := if s.k + 1 = s.bsize then
          .next { s.setRest v d o c i with k := 0, elapsed := 0, fsm := .sAck }
        else .next { s.setRest v d o c i with k := s.k + 1 }) v d o c i h fun w hw => by
          split at hw <;> rename_i hq <;> cases hw
          · exact ⟨_, if_pos hq, rfl⟩
          · exact ⟨_, if_neg hq, rfl⟩
      exact ⟨u, (if_pos hp).trans h1, h2⟩
    · cases h
  | sAck =>
    rw [engineEdge_sAck _ _ hs] at h; rw [engineEdge_sAck _ _ (hr.trans hs)]
    refine timedRead_setRest v d o c i h fun b w hw => ?_
    split at hw <;> rename_i hq
    · obtain ⟨u, h1, h2⟩ := advanceBlock_setRest v d o c i hw fun _ _ => enterSendBlock_setRest v d o c i
      exact ⟨u, (if_pos hq).trans h1, h2⟩
    · cases hw; exact ⟨_, if_neg hq, rfl⟩
  | rHdr =>
    rw [engineEdge_rHdr _ _ hs] at h; rw [engineEdge_rHdr _ _ (hr.trans hs)]
    refine timedRead_setRest v d o c i h fun b w hw => ?_
    dsimp only at hw
    split at hw <;> rename_i hp
    · cases hw; exact ⟨_, if_pos hp, rfl⟩
    · split at hw <;> rename_i hq <;> cases hw
      · exact ⟨_, (if_neg hp).trans (if_pos hq), rfl⟩
      · exact ⟨_, (if_neg hp).trans (if_neg hq), rfl⟩
  | rPay =>
    rw [engineEdge_rPay _ _ hs] at h; rw [engineEdge_rPay _ _ (hr.trans hs)]
    refine timedRead_setRest v d o c i h fun b w hw => ?_
    dsimp only at hw
    split at hw <;> rename_i hp
    · split at hw <;> rename_i hq <;> cases hw
      · exact ⟨_, (if_pos hp).trans (if_pos hq), rfl⟩
      · exact ⟨_, (if_pos hp).trans (if_neg hq), rfl⟩
    · cases hw
  | rChk =>
    rw [engineEdge_rChk _ _ hs, rChkEdge] at h; rw [engineEdge_rChk _ _ (hr.trans hs), rChkEdge]
    split at h <;> rename_i hp
    · split at h <;> rename_i hq <;> cases h
      · exact ⟨_, (if_pos hp).trans (if_pos hq), rfl⟩
      · exact ⟨_, (if_pos hp).trans (if_neg hq), rfl⟩
    · cases h
  | rAck =>
    rw [engineEdge_rAck _ _ hs] at h; rw [engineEdge_rAck _ _ (hr.trans hs)]
    refine offerByte_setRest v d o c i h fun w hw => ?_
    refine advanceBlock_setRest v d o c i hw fun _ _ hg => ?_
    cases hg; exact ⟨_, rfl, rfl⟩
  | rFlush =>
    rw [engineEdge_rFlush _ _ hs, rFlushEdge.eq_def] at h; rw [engineEdge_rFlush _ _ (hr.trans hs), rFlushEdge.eq_def]
    split at h <;> rename_i hp <;> cases h <;> exact ⟨_, rfl, rfl⟩

end Sys2Proof.Machine
end

