-- ==== Sys2Proof/Laws/Run.lean ====
section
/-!
SUPPORT. Runs of several cycles, one cycle at a time, and the bytes they put on the stream and take from it.
-/
namespace Sys2Proof.Machine

theorem run_zero (s : State) : core.run 0 s = .next s := rfl

/-- A run goes on from the first cycle's next state. -/
theorem run_succ {s t : State} (k : Nat) (h : step s = .next t) : core.run (k + 1) s = core.run k t := by
  have h' : core.step s = .next t := h
  simp only [Host.Core.run, h']

/-- A run in two parts. -/
theorem run_add : ∀ (a b : Nat) (s t : State), core.run a s = .next t → core.run (a + b) s = core.run b t := by
  intro a
  induction a with
  | zero => intro b s t h; cases h; simp
  | succ a ih =>
    intro b s t h
    rw [show a + 1 + b = a + b + 1 by omega]
    cases hs : step s with
    | next u =>
      rw [run_succ _ hs] at h ⊢
      exact ih _ _ _ h
    | fault r =>
      have h' : core.step s = .fault r := hs
      simp only [Host.Core.run, h'] at h; cases h
    | refused r =>
      have h' : core.step s = .refused r := hs
      simp only [Host.Core.run, h'] at h; cases h

theorem sentDuring_succ {s t : State} (k : Nat) (h : step s = .next t) :
    sentDuring (k + 1) s = (sentByte s s.nextInput).toList ++ sentDuring k t := by
  simp only [sentDuring, h]

theorem consumedDuring_succ {s t : State} (k : Nat) (h : step s = .next t) :
    consumedDuring (k + 1) s = (consumedByte s s.nextInput).toList ++ consumedDuring k t := by
  simp only [consumedDuring, h]

/-- The stream bytes of a run in two parts. -/
theorem during_add : ∀ (a b : Nat) (s t : State), core.run a s = .next t →
    sentDuring (a + b) s = sentDuring a s ++ sentDuring b t ∧
      consumedDuring (a + b) s = consumedDuring a s ++ consumedDuring b t := by
  intro a
  induction a with
  | zero => intro b s t h; cases h; simp [sentDuring, consumedDuring]
  | succ a ih =>
    intro b s t h
    rw [show a + 1 + b = a + b + 1 by omega]
    cases hs : step s with
    | next u =>
      rw [run_succ _ hs] at h
      obtain ⟨h1, h2⟩ := ih b u t h
      rw [sentDuring_succ _ hs, sentDuring_succ _ hs, consumedDuring_succ _ hs, consumedDuring_succ _ hs, h1, h2]
      simp
    | fault r =>
      have h' : core.step s = .fault r := hs
      simp only [Host.Core.run, h'] at h; cases h
    | refused r =>
      have h' : core.step s = .refused r := hs
      simp only [Host.Core.run, h'] at h; cases h

/-- The number of ticks grows by one for each cycle that carries one (20_memory.md R94). -/
theorem ticksIn_cons (x : CycleInput) (l : List CycleInput) : ticksIn (x :: l) = x.tick.toNat + ticksIn l := by
  unfold ticksIn; cases h : x.tick <;> simp [h]; omega

theorem ticksIn_append (l m : List CycleInput) : ticksIn (l ++ m) = ticksIn l + ticksIn m := by
  simp [ticksIn]

end Sys2Proof.Machine
end

