-- ==== Sys2Proof/Tests/Slice0.lean ====
section
/-!
SUPPORT. Tests of this model. Expected values come from spec/95_test_vectors.md (the vector's number stands with each test) or are
written out from the rule named. The second half shows, for each statement with hypotheses, states that meet them.
-/
namespace Sys2Proof.Tests

/-! The proofs below are elaborated one after another, which keeps the number of threads small. -/
set_option Elab.async false
open Sys2Proof Sys2Proof.Machine

/-! ## Helpers -/

/-- What holds of the next state, if there is one. -/
def holdsNext (r : Result) (p : State → Bool) : Bool :=
  match r with
  | .next t => p t
  | .fault _ => false
  | .refused _ => false

/-- A cycle without reset: the host's access, the two response pins, the read byte and the tick. -/
def cyc (access : HostAccess) (tx rx : Code3) (d : Byte) (tick : Bool) : CycleInput where
  rst := false
  access := access
  txPins := tx
  rxPins := rx
  rxData := d
  tick := tick

/-- A cycle in which only the host acts. -/
def hostCyc (access : HostAccess) : CycleInput := cyc access 0 0 0 false

/-- A cycle with `rst` = 1. -/
def rstCyc (access : HostAccess) : CycleInput := { hostCyc access with rst := true }

/-- The state after reset, with these inputs to come. -/
def idleWith (inputs : List CycleInput) : State := { State.reset with inputs := inputs }

/-- BUF[0..9] = 01 .. 0A (95_test_vectors.md section 3). -/
def tenBytes : List Host.Cell :=
  [(0, 0x01), (1, 0x02), (2, 0x03), (3, 0x04), (4, 0x05), (5, 0x06), (6, 0x07), (7, 0x08), (8, 0x09), (9, 0x0A)]

/-- SEND of 10 bytes in its first block (vector S4). -/
def sending (fsm : FsmState) (k : Nibble) (inputs : List CycleInput) : State :=
  { State.reset with
    len := 10, buf := tenBytes, first := true, bsize := 8, hdr := 0x2F, fsm := fsm, k := k, inputs := inputs }

/-- SEND of 10 bytes in its second and last block (vector S4). -/
def sendingLast (fsm : FsmState) (inputs : List CycleInput) : State :=
  { State.reset with len := 10, buf := tenBytes, pos := 8, bsize := 2, hdr := 0x31, fsm := fsm, inputs := inputs }

/-- RECEIVE of 10 bytes in its first block, with the header 2F of vector V4 read. -/
def receiving (fsm : FsmState) (k : Nibble) (buf : List Host.Cell) (inputs : List CycleInput) : State :=
  { State.reset with
    len := 10, buf := buf, first := true, bsize := 8, rsize := 8, hdr := 0x2F, fsm := fsm, k := k, inputs := inputs }

/-- RECEIVE of 10 bytes in its last block, with the header 31 of vector V4 read. -/
def receivingLast (fsm : FsmState) (k : Nibble) (inputs : List CycleInput) : State :=
  { State.reset with
    len := 10, buf := tenBytes, pos := 8, bsize := 2, rsize := 2, hdr := 0x31, fsm := fsm, k := k, inputs := inputs }

/-- SEND of the one byte A5 (vector S3). -/
def sendOne : State := { State.reset with len := 1, buf := [(0, 0xA5)] }

/-! ## WellFormed refuses what no opcode stands for -/

theorem test_wf_refuses_illegalOp6to7_below : (Instr.illegalOp6to7 5).wf = false := by decide +kernel
theorem test_wf_refuses_illegalOp6to7_above : (Instr.illegalOp6to7 8).wf = false := by decide +kernel
theorem test_wf_refuses_illegalOp8toF_below : (Instr.illegalOp8toF 7).wf = false := by decide +kernel

/-! ## Decoding: words written out from 30_encoding.md R113 -/

theorem test_decode_checksum : decode 0b00000000000000000000000000000001 = .checksum := by decide +kernel
theorem test_decode_encodeHeader : decode 0b00000000000000000000000000000010 = .encodeHeader := by decide +kernel
theorem test_decode_decodeHeader : decode 0b00000000000000000000000000000011 = .decodeHeader := by decide +kernel
theorem test_decode_send : decode 0b00000000000000000000000000000100 = .send := by decide +kernel
theorem test_decode_receive : decode 0b00000000000000000000000000000101 = .receive := by decide +kernel
theorem test_decode_illegalOp0 : decode 0b00000000000000000000000000000000 = .illegalOp0 := by decide +kernel
theorem test_decode_illegalOp6to7 : decode 0b00000000000000000000000000000110 = .illegalOp6to7 6 := by decide +kernel
theorem test_decode_illegalOp8toF : decode 0b00000000000000000000000000001000 = .illegalOp8toF 8 := by decide +kernel
/-- Vector K15: bits 31:4 are ignored. -/
theorem test_decode_ignores_high_bits : decode 0xFFFFFFF1 = .checksum := by decide +kernel
theorem test_decodeTableWord_reads_low_bits : decodeTableWord 32 5 = some .receive := by decide +kernel

/-! ## The codec's functions (95_test_vectors.md section 2) -/

theorem test_crc4_single_bits : [0x01, 0x02, 0x04, 0x08, 0x10, 0x20, 0x40, 0x80].map (fun b => crc4 [b] 1) =
    [0x3, 0x6, 0xC, 0xB, 0x5, 0xA, 0x7, 0xE] := by decide +kernel
theorem test_crc4_order : crc4 [0x01, 0x00] 2 = 0xF ∧ crc4 [0x00, 0x01] 2 = 0x3 := by decide +kernel
theorem test_crc4_uses_first_n : crc4 [0xDE, 0xAD, 0xBE, 0xEF] 4 = 0xA ∧ crc4 [0xDE, 0xAD, 0xBE, 0xEF] 1 = 0xD := by
  decide +kernel
theorem test_crc4_eight : crc4 [0x31, 0x32, 0x33, 0x34, 0x35, 0x36, 0x37, 0x38] 8 = 0xC := by decide +kernel
theorem test_enc_rows : enc [0x01] 1 true = some 0x38 ∧ enc [0x80] 1 true = some 0xE8 ∧
    enc [0xAA, 0xBB] 2 false = some 0x41 ∧ enc [0xDE, 0xAD, 0xBE, 0xEF] 4 false = some 0xA3 := by decide +kernel
theorem test_enc_invalid_sizes : enc [0x01] 0 true = none ∧ enc [0x01] 9 true = none := by decide +kernel
theorem test_dec_rows : dec 0xCF = (0xC, true, 7) ∧ dec 0x31 = (0x3, false, 1) ∧ dec 0x88 = (0x8, true, 0) := by decide +kernel
theorem test_readSize : readSize 0x2F = 8 ∧ readSize 0x30 = 1 := by decide +kernel

/-! ## One step of each command -/

/-- Vector K2: p = DE AD BE EF, little-endian. -/
theorem test_checksum_K2 :
    holdsNext (exec .checksum { State.reset with codecData0 := 0xEFBEADDE, cfgSize := 4 })
      (fun t => readRegister .codecRes t == 0x0000000A && readRegister .status t == 0x02) = true := by decide +kernel
/-- Vector K6: SIZE 15 is rejected. -/
theorem test_checksum_K6 :
    holdsNext (exec .checksum { State.reset with cfgSize := 15, resCk := 9 })
      (fun t => t.err == .invalidSize && t.resCk == 9 && readRegister .status t == 0x06) = true := by decide +kernel
/-- Vector K7. -/
theorem test_encodeHeader_K7 :
    holdsNext (exec .encodeHeader
        { State.reset with codecData0 := 0x04030201, codecData1 := 0x08070605, cfgSize := 8, cfgIsFirst := true })
      (fun t => readRegister .codecRes t == 0x00002F00 && t.err == .noError && t.done) = true := by decide +kernel
/-- Vector K5: SIZE 9 is rejected. -/
theorem test_encodeHeader_K5 :
    holdsNext (exec .encodeHeader { State.reset with cfgSize := 9, resHdrOut := 0x55 })
      (fun t => readRegister .err t == 10 && t.resHdrOut == 0x55) = true := by decide +kernel
/-- Vectors K9 and K10. -/
theorem test_decodeHeader_K9_K10 :
    holdsNext (exec .decodeHeader { State.reset with cfgHdrIn := 0xCF }) (fun t => readRegister .codecRes t == 0x071C0000) = true ∧
    holdsNext (exec .decodeHeader { State.reset with cfgHdrIn := 0xFF }) (fun t => readRegister .codecRes t == 0x071F0000) = true := by
  decide +kernel
/-- The first cycle of vector S4. -/
theorem test_send_start_S4 :
    holdsNext (exec .send { State.reset with len := 10, buf := tenBytes, done := true })
      (fun t => t.hdr == 0x2F && t.bsize == 8 && readRegister .status t == 0x19) = true := by decide +kernel
/-- Vectors S1 and S2. -/
theorem test_send_ends_at_once :
    holdsNext (exec .send { State.reset with len := 0 }) (fun t => readRegister .status t == 0x02) = true ∧
    holdsNext (exec .send { State.reset with len := 65 }) (fun t => readRegister .err t == 12 && readRegister .status t == 0x06) = true := by
  decide +kernel
/-- The first cycle of vector H12. -/
theorem test_receive_start_H12 :
    holdsNext (exec .receive { State.reset with len := 2, elapsed := 5 })
      (fun t => t.bsize == 2 && t.elapsed == 0 && readRegister .status t == 0x49) = true := by decide +kernel
/-- Vectors V2 and V3. -/
theorem test_receive_ends_at_once :
    holdsNext (exec .receive { State.reset with len := 0 }) (fun t => readRegister .status t == 0x02) = true ∧
    holdsNext (exec .receive { State.reset with len := 65 }) (fun t => readRegister .err t == 12 && readRegister .status t == 0x06) = true := by
  decide +kernel
/-- Vector K13. -/
theorem test_illegalOp0_K13 :
    holdsNext (exec .illegalOp0 State.reset) (fun t => readRegister .err t == 11 && readRegister .status t == 0x06) = true := by
  decide +kernel
/-- Vector K14. -/
theorem test_illegalOp6to7_K14 :
    holdsNext (exec (.illegalOp6to7 6) State.reset) (fun t => readRegister .err t == 11 && t.done) = true := by decide +kernel
/-- Vector K14. -/
theorem test_illegalOp8toF_K14 :
    holdsNext (exec (.illegalOp8toF 15) State.reset) (fun t => readRegister .err t == 11 && t.done) = true := by decide +kernel

/-! ## Single cycles of the engine -/

/-- Vector S9, its last cycle: SHORT at payload byte 3 reports POS + 3. -/
theorem test_sPay_short_S9 : holdsNext (step (sending .sPay 3 [cyc .quiet 2 0 0 false]))
    (fun t => t.err == .writeShort && t.result == 3 && t.pos == 0 && readRegister .status t == 0x0E) = true := by decide +kernel
/-- Vector S4: the acknowledgment of block 0 loads the header of block 1. -/
theorem test_sAck_advances_S4 : holdsNext (step (sending .sAck 0 [cyc .quiet 0 1 0x2F false]))
    (fun t => t.pos == 8 && t.hdr == 0x31 && t.bsize == 2 && readRegister .status t == 0x11) = true := by decide +kernel
/-- Vector S8, its last cycle: another byte than HDR. -/
theorem test_sAck_mismatch_S8 : holdsNext (step (sendingLast .sAck [cyc .quiet 0 1 0x30 false]))
    (fun t => t.err == .ackMismatch && t.result == 8 && readRegister .status t == 0x06) = true := by decide +kernel
/-- Vectors V5 and V6: the size check comes before the sequence check. -/
theorem test_rHdr_size_first_V6 :
    holdsNext (step { receiving .rHdr 0 [] [cyc .quiet 0 1 0x87 false] with len := 4, bsize := 4 })
      (fun t => t.err == .sizeExceedsBuffer && t.hdr == 0x87 && readRegister .status t == 0x0E) = true := by decide +kernel
/-- Vector V13, its first cycle: F = 0 on block 0. -/
theorem test_rHdr_flush_V13 : holdsNext (step (receiving .rHdr 0 [] [cyc .quiet 0 1 0x30 false]))
    (fun t => readRegister .status t == 0x89) = true := by decide +kernel
/-- Vector V4 and program P4: the check of a block that is right, and of one whose last byte is corrupt. -/
theorem test_rChk_P4 :
    holdsNext (step (receivingLast .rChk 0 [hostCyc .quiet])) (fun t => t.fsm == .rAck) = true ∧
    holdsNext (step { receivingLast .rChk 0 [hostCyc .quiet] with buf := [(8, 0x09), (9, 0x08)], rxPartial := true })
      (fun t => t.err == .checksumMismatch && t.result == 8 && t.pos == 8) = true := by decide +kernel
/-- Vector V4, its last cycle: the echo is accepted. -/
theorem test_rAck_finishes_V4 : holdsNext (step (receivingLast .rAck 0 [cyc .quiet 1 0 0 false]))
    (fun t => t.out.sent == some 0x31 && t.result == 10 && t.pos == 10 && readRegister .status t == 0x02) = true := by
  decide +kernel
/-- Vector S16 at cycles e3 and e4: with TIMEOUT = 1 the read waits at ELAPSED = 1 and ends at 2. -/
theorem test_timeout_S16 :
    holdsNext (step { sending .sAck 0 [cyc .quiet 0 0 0 true] with timeout := 1, elapsed := 1 })
      (fun t => t.fsm == .sAck && t.elapsed == 2) = true ∧
    holdsNext (step { sending .sAck 0 [cyc .quiet 0 0 0 true] with timeout := 1, elapsed := 2 })
      (fun t => t.err == .readTimeout && t.done) = true := by decide +kernel
/-- Vector T7: DATA at the deadline is taken. -/
theorem test_data_beats_deadline_T7 :
    holdsNext (step { receiving .rHdr 0 [] [cyc .quiet 0 1 0x0F true] with timeout := 1, elapsed := 2 })
      (fun t => t.fsm == .rPay && t.elapsed == 0) = true := by decide +kernel

/-! ## The bus -/

/-- Vectors H2, H3: the reserved bits are not kept. -/
theorem test_register_writes_H2_H3 :
    holdsNext (step (idleWith [hostCyc (.write 0x000 .four 0xFFFFFFFF)])) (fun t => readRegister .ctrl t == 0x00000003) = true ∧
    holdsNext (step (idleWith [hostCyc (.write 0x02C .four 0xFFFFFFFF)])) (fun t => readRegister .codecCfg t == 0x0000FF1F) = true := by
  decide +kernel
/-- Vectors H7, H8: little-endian, and a misaligned access. -/
theorem test_window_H7_H8 :
    readBus { State.reset with buf := [(0, 0x11), (1, 0x22), (2, 0x33), (3, 0x44)] } 0x1000 .four = .readData 0x44332211 ∧
    readBus { State.reset with buf := [(2, 0x33), (3, 0x44)] } 0x1002 .one = .readData 0x00000033 ∧
    readBus State.reset 0x1002 .four = .busError := by decide +kernel
/-- Vectors H9, H10: narrow and misaligned register accesses, unmapped offsets, the end of the window (0x1040 at 64 bytes). -/
theorem test_bus_errors_H9_H10 :
    readBus State.reset 0x000 .one = .busError ∧ readBus State.reset 0x006 .four = .busError ∧
    readBus State.reset 0x034 .four = .busError ∧ readBus State.reset 0xFFC .four = .busError ∧
    readBus State.reset 0x1040 .one = .busError := by decide +kernel
/-- Vector H11: the last word of the window. -/
theorem test_window_end_H11 : holdsNext (step (idleWith [hostCyc (.write 0x103C .four 0xAABBCCDD)]))
    (fun t => readBus t 0x103F .one == .readData 0x000000AA) = true := by decide +kernel
/-- Vector H12: while RECEIVE runs, IRQ_EN is taken and RX_PARTIAL and LEN are not. -/
theorem test_locked_H12 :
    holdsNext (step (receiving .rHdr 0 [] [hostCyc (.write 0x000 .four 3)])) (fun t => readRegister .ctrl t == 0x00000001) = true ∧
    holdsNext (step (receiving .rHdr 0 [] [hostCyc (.write 0x010 .four 7)])) (fun t => t.len == 10) = true := by decide +kernel
/-- Vector H14: the engine's DONE wins over the host's clear. -/
theorem test_done_race_H14 :
    holdsNext (step (sendingLast .sAck [cyc (.write 0x008 .four 2) 0 1 0x31 false])) (fun t => t.done && t.result == 10) = true := by
  decide +kernel

/-- R9, R80: with BASE = 0x40600000 the access at address 0x40600010 writes LEN, and one at the bare offset reaches nothing. -/
theorem test_base_R80 :
    holdsNext (step { idleWith [hostCyc (.write 0x40600010 .four 7)] with base := 0x40600000 })
      (fun t => t.len == 7 && t.base == 0x40600000) = true ∧
    holdsNext (step { idleWith [hostCyc (.write 0x010 .four 7)] with base := 0x40600000 })
      (fun t => t.len == 0 && t.out.bus == .busError) = true := by decide +kernel
/-- R300: a write under `rst` = 1 has no effect and answers read data 0 with `berr` = 0, even at an unmapped offset. -/
theorem test_write_under_reset_R300 :
    [(0x010 : Word), 0x034].all (fun off => holdsNext (step (idleWith [rstCyc (.write off .four 7)]))
      (fun t => t.len == 0 && t.out.bus == .readData 0)) = true := by decide +kernel

/-! ## Memory -/

theorem test_memory_form :
    Memory.write (Memory.write (Memory.write [] 7 1) 3 2) 7 5 = [(3, 2), (7, 5)] ∧
    Memory.wf [(3, 2), (7, 5)] = true ∧ Memory.wf [(7, 5), (3, 2)] = false ∧ Memory.wf [(3, 2), (3, 2)] = false := by
  decide +kernel

/-! ## States that meet the statements' hypotheses, each clause at its bounds -/

theorem witness_DecodeEncodeAgree :
    (Instr.illegalOp6to7 6).wf = true ∧ (Instr.illegalOp6to7 7).wf = true ∧ (Instr.illegalOp8toF 8).wf = true ∧
    (0xFFFFFFF5 : Word) &&& 0x0000000F = 0x00000005 &&& 0x0000000F := by decide +kernel
theorem witness_OpcodeRowsTotalAndDisjoint :
    (0xFFFFFFF7 : Word) &&& tableMask (.illegalOp6to7 7) = tableMatch (.illegalOp6to7 7) := by decide +kernel
theorem witness_CrcIsPolynomialRemainder : 8 ≤ (List.replicate 8 (0xFF : Byte)).length := by decide +kernel
theorem witness_CrcIsLinear : [(0x12 : Byte), 0x34].length = [(0x0F : Byte), 0xF0].length := by decide +kernel
theorem witness_CrcDetectsEverySingleBitChange : 0 < 1 ∧ 1 ≤ [(0x01 : Byte)].length ∧ 7 < 8 := by decide +kernel
theorem witness_CrcByTable : 1 ≤ 8 ∧ 8 ≤ 8 ∧ 8 ≤ (List.replicate 8 (0xFF : Byte)).length := by decide +kernel
theorem witness_HeaderRoundTrip : (1 ≤ 1 ∧ 1 ≤ 8) ∧ (1 ≤ 8 ∧ 8 ≤ 8) := by decide +kernel
/-- Sizes 0, 1, 8 and 9. -/
theorem witness_ChecksumCommandResult :
    (∀ n ∈ [(0 : Nibble), 9, 15], { State.reset with cfgSize := n }.busy = false ∧ (n.toNat = 0 ∨ 8 < n.toNat)) ∧
    ∀ n ∈ [(1 : Nibble), 8], { State.reset with cfgSize := n }.busy = false ∧ 1 ≤ n.toNat ∧ n.toNat ≤ 8 := by decide +kernel
theorem witness_EncodeHeaderCommandResult :
    (∀ n ∈ [(0 : Nibble), 9, 15], { State.reset with cfgSize := n }.busy = false ∧ (n.toNat = 0 ∨ 8 < n.toNat)) ∧
    ∀ n ∈ [(1 : Nibble), 8], { State.reset with cfgSize := n, cfgIsFirst := true }.busy = false ∧ 1 ≤ n.toNat ∧ n.toNat ≤ 8 := by
  decide +kernel
theorem witness_DecodeHeaderCommandResult : { State.reset with cfgHdrIn := 0xCF }.busy = false := by decide +kernel
theorem witness_ReservedOpcodeResult : { State.reset with done := true }.busy = false := by decide +kernel
/-- Lengths 65, 0, 1 and 64 at BUF_BYTES = 64. -/
theorem witness_SendCommandStart :
    ({ State.reset with len := 65 }.busy = false ∧ 64 < (65 : Word).toNat ∧ State.reset.bufBytes = 64) ∧
    { State.reset with len := 0 }.busy = false ∧
    ({ State.reset with len := 1 }.busy = false ∧ (1 : Word) ≠ 0 ∧ (1 : Word).toNat ≤ State.reset.bufBytes) ∧
    { State.reset with len := 64 }.busy = false ∧ (64 : Word) ≠ 0 ∧ (64 : Word).toNat ≤ State.reset.bufBytes := by
  decide +kernel
theorem witness_ReceiveCommandStart :
    ({ State.reset with len := 65 }.busy = false ∧ State.reset.bufBytes < (65 : Word).toNat) ∧
    { State.reset with len := 0 }.busy = false ∧
    ({ State.reset with len := 1 }.busy = false ∧ (1 : Word) ≠ 0 ∧ (1 : Word).toNat ≤ State.reset.bufBytes) ∧
    { State.reset with len := 64 }.busy = false ∧ (64 : Word) ≠ 0 ∧ (64 : Word).toNat ≤ State.reset.bufBytes := by
  decide +kernel
theorem witness_StepRunsDecodedCommand :
    (idleWith [commandInput 0xFFFFFFF4]).fsm = .idle ∧ (idleWith [commandInput 0xFFFFFFF4]).nextInput.rst = false ∧
    (idleWith [commandInput 0xFFFFFFF4]).nextInput.access = .write 0x004 .four 0xFFFFFFF4 := by decide +kernel
theorem witness_ResetCycle :
    (∀ a ∈ [HostAccess.quiet, .read 0x008 .four, .write 0x010 .four 7],
      (receiving .rPay 3 tenBytes [rstCyc a]).nextInput.rst = true) ∧
    (receiving .rPay 3 tenBytes [rstCyc (.read 0x008 .four)]).nextInput.access = .read 0x008 .four ∧
    (receiving .rPay 3 tenBytes [rstCyc (.write 0x010 .four 7)]).nextInput.access = .write 0x010 .four 7 := by decide +kernel
theorem witness_ResetLeavesBufferUnknown :
    (receiving .rPay 3 tenBytes [rstCyc .quiet]).nextInput.rst = true ∧
    ∃ t, step (receiving .rPay 3 tenBytes [rstCyc .quiet]) = .next t := ⟨by decide +kernel, _, rfl⟩
/-- One state for each output the statement distinguishes. -/
theorem witness_StreamPortOutputs :
    (∀ f ∈ [FsmState.sHdr, .sPay, .sAck], (sending f 0 [hostCyc .quiet]).nextInput.rst = false ∧
      holdsNext (step (sending f 0 [hostCyc .quiet])) (fun _ => true) = true) ∧
    ∀ f ∈ [FsmState.idle, .rHdr, .rPay, .rChk, .rAck, .rFlush], (receiving f 0 tenBytes [hostCyc .quiet]).nextInput.rst = false ∧
      holdsNext (step (receiving f 0 tenBytes [hostCyc .quiet])) (fun _ => true) = true := by decide +kernel
theorem witness_StreamBytesMove :
    holdsNext (step (sending .sPay 7 [cyc .quiet 1 0 0 false])) (fun t => t.out.sent == some 0x08) = true ∧
    holdsNext (step (receiving .rPay 7 [] [cyc .quiet 0 1 0x08 false])) (fun t => t.out.consumed == some 0x08) = true := by
  decide +kernel
theorem witness_InterruptOutput :
    { idleWith [hostCyc .quiet] with irqEn := true, done := true }.nextInput.rst = false ∧
    holdsNext (step { idleWith [hostCyc .quiet] with irqEn := true, done := true }) (fun t => t.out.irq) = true := by
  decide +kernel
theorem witness_AccessTargets :
    busTarget State.reset 0x030 .four = .register .codecRes ∧ busTarget State.reset 0x103F .one = .buffer 63 ∧
    busTarget State.reset 0x034 .four = .nowhere ∧ busTarget State.reset 0x031 .one = .nowhere ∧
    busTarget { State.reset with bufBytes := 9 } 0x1008 .two = .nowhere ∧
    [(Reg.ctrl, (0x000 : Word)), (.err, 0x00C), (.result, 0x018), (.pos, 0x01C), (.hdr, 0x020), (.codecRes, 0x030)].all (fun x =>
      decide (busTarget State.reset x.2 .four = .register x.1)) = true := by decide +kernel
theorem witness_ReadsAndBusErrorsChangeNothing :
    (sending .sHdr 0 [hostCyc .quiet]).nextInput.access = .quiet ∧ (sending .sHdr 0 [hostCyc .quiet]).nextInput.rst = false ∧
    (∃ t, step (sending .sHdr 0 [hostCyc .quiet]) = .next t) ∧
    busTarget (sending .sHdr 0 [hostCyc .quiet]) 0x034 .four = .nowhere ∧
    busTarget (sending .sHdr 0 [hostCyc .quiet]) 0x103E .four = .nowhere ∧
    busTarget (sending .sHdr 0 [hostCyc .quiet]) 0x030 .four = .register .codecRes ∧
    busTarget (sending .sHdr 0 [hostCyc .quiet]) 0x1000 .four = .buffer 0 ∧
    busTarget (sending .sHdr 0 [hostCyc .quiet]) 0x103F .one = .buffer 63 :=
  ⟨by decide +kernel, by decide +kernel, ⟨_, rfl⟩, by decide +kernel, by decide +kernel, by decide +kernel, by decide +kernel,
    by decide +kernel⟩
theorem witness_RegisterWritesInIdle :
    [(0x000 : Word), 0x008, 0x00C, 0x010, 0x014, 0x018, 0x01C, 0x020, 0x024, 0x028, 0x02C, 0x030].all (fun off =>
      decide ((idleWith [hostCyc (.write off .four 0xFFFFFFFF)]).fsm = .idle ∧
        (idleWith [hostCyc (.write off .four 0xFFFFFFFF)]).nextInput.rst = false ∧
        (idleWith [hostCyc (.write off .four 0xFFFFFFFF)]).nextInput.access = .write off .four 0xFFFFFFFF)) = true := by
  decide +kernel
theorem witness_WrittenRegistersReadBack :
    ∀ x ∈ [((0x000 : Word), Reg.ctrl), (0x00C, .err), (0x010, .len), (0x014, .timeout), (0x018, .result), (0x01C, .pos),
        (0x020, .hdr), (0x024, .codecData0), (0x028, .codecData1), (0x02C, .codecCfg), (0x030, .codecRes)],
      (idleWith [hostCyc (.write x.1 .four 0x12345678)]).fsm = .idle ∧
      (idleWith [hostCyc (.write x.1 .four 0x12345678)]).nextInput.rst = false ∧
      (idleWith [hostCyc (.write x.1 .four 0x12345678)]).nextInput.access = .write x.1 .four 0x12345678 ∧
      busTarget (idleWith [hostCyc (.write x.1 .four 0x12345678)]) x.1 .four = .register x.2 ∧
      holdsNext (step (idleWith [hostCyc (.write x.1 .four 0x12345678)])) (fun _ => true) = true := by decide +kernel
/-- The first and the last place of each size. -/
theorem witness_BufferWindowWriteThenRead :
    ∀ x ∈ [((0x1000 : Word), AccessSize.one, 0), (0x103F, .one, 63), (0x1000, .two, 0), (0x103E, .two, 62),
        (0x1000, .four, 0), (0x103C, .four, 60)],
      (idleWith [hostCyc (.write x.1 x.2.1 0xAABBCCDD)]).fsm = .idle ∧
      (idleWith [hostCyc (.write x.1 x.2.1 0xAABBCCDD)]).nextInput.rst = false ∧
      (idleWith [hostCyc (.write x.1 x.2.1 0xAABBCCDD)]).nextInput.access = .write x.1 x.2.1 0xAABBCCDD ∧
      busTarget (idleWith [hostCyc (.write x.1 x.2.1 0xAABBCCDD)]) x.1 x.2.1 = .buffer x.2.2 := by decide +kernel
theorem witness_BusyLocksOperands :
    ∀ x ∈ [cyc (.write 0x010 .four 7) 0 1 0x08 false, cyc (.write 0x1000 .one 0x99) 0 0 0 false,
        cyc (.write 0x000 .four 3) 0 3 0 false],
      (receiving .rPay 7 tenBytes [x]).busy = true ∧ (receiving .rPay 7 tenBytes [x]).nextInput.rst = false ∧
      holdsNext (step (receiving .rPay 7 tenBytes [x])) (fun _ => true) = true := by decide +kernel
theorem witness_CommandIgnoredWhileBusy :
    (receiving .rHdr 0 [] [hostCyc .quiet]).busy = true ∧ (receiving .rHdr 0 [] [hostCyc .quiet]).nextInput.rst = false ∧
    (receiving .rHdr 0 [] [hostCyc .quiet]).nextInput.access = .quiet ∧
    ∃ t, step (receiving .rHdr 0 [] [hostCyc .quiet]) = .next t := ⟨by decide +kernel, by decide +kernel, by decide +kernel, _, rfl⟩
theorem witness_BusyCycleHostRegisters :
    ∀ a ∈ [HostAccess.quiet, .read 0x008 .four, .write 0x000 .one 1, .write 0x000 .four 1, .write 0x024 .four 1,
        .write 0x028 .four 1, .write 0x02C .four 1, .write 0x008 .four 2],
      (receiving .rHdr 0 [] [hostCyc a]).busy = true ∧ (receiving .rHdr 0 [] [hostCyc a]).nextInput.rst = false ∧
      holdsNext (step (receiving .rHdr 0 [] [hostCyc a])) (fun _ => true) = true := by decide +kernel
theorem witness_DoneClearRace :
    (sendingLast .sAck [cyc (.write 0x008 .four 2) 0 1 0x31 false]).busy = true ∧
    (sendingLast .sAck [cyc (.write 0x008 .four 2) 0 1 0x31 false]).nextInput.rst = false ∧
    (sendingLast .sAck [cyc (.write 0x008 .four 2) 0 1 0x31 false]).nextInput.access.clearsDone = true ∧
    holdsNext (step (sendingLast .sAck [cyc (.write 0x008 .four 2) 0 1 0x31 false])) (fun t => t.fsm == .idle) = true := by
  decide +kernel
theorem witness_RunningCommandIgnoresHost :
    (sending .sHdr 0 [cyc .quiet 1 0 0 false]).busy = true ∧
    (sending .sHdr 0 [cyc .quiet 1 0 0 false]).nextInput.rst = false ∧
    holdsNext (step ((sending .sHdr 0 [cyc .quiet 1 0 0 false]).withInput (cyc (.write 0x1000 .four 0) 1 0 0 false)))
      (fun _ => true) = true := by decide +kernel
theorem witness_IdleEngineIsQuiescent :
    ∀ a ∈ [HostAccess.quiet, .write 0x010 .four 7, .write 0x1000 .four 7],
      (idleWith [hostCyc a]).fsm = .idle ∧ (idleWith [hostCyc a]).nextInput.rst = false ∧
      (idleWith [hostCyc a]).nextInput.access.isCommand = false ∧
      holdsNext (step (idleWith [hostCyc a])) (fun _ => true) = true := by decide +kernel
/-- All five responses. -/
theorem witness_SendOffersHeader :
    ∀ c ∈ [(0 : Code3), 1, 2, 3, 4], (sending .sHdr 0 [cyc .quiet c 0 0 false]).fsm = .sHdr ∧
      (sending .sHdr 0 [cyc .quiet c 0 0 false]).nextInput.rst = false := by decide +kernel
/-- The first and the last payload byte, all five responses. -/
theorem witness_SendOffersPayload :
    ((sending .sPay 0 [cyc .quiet 1 0 0 false]).Inv ∧ (sending .sPay 7 [cyc .quiet 1 0 0 false]).Inv) ∧
    [((0 : Code3), (7 : Nibble)), (1, 7), (2, 7), (3, 7), (4, 7), (1, 0)].all (fun x =>
      decide ((sending .sPay x.2 [cyc .quiet x.1 0 0 false]).fsm = .sPay) &&
        !(sending .sPay x.2 [cyc .quiet x.1 0 0 false]).nextInput.rst) = true :=
  ⟨⟨by decide +kernel, by decide +kernel⟩, by decide +kernel⟩
/-- A differing byte, no data before and after the deadline, FAIL, CLOSED. -/
theorem witness_SendWithoutAcknowledgment :
    [((1 : Code3), (0x30 : Byte)), (0, 0), (3, 0), (4, 0)].all (fun x =>
      decide ((sending .sAck 0 [cyc .quiet 0 x.1 x.2 true]).fsm = .sAck ∧
        (sending .sAck 0 [cyc .quiet 0 x.1 x.2 true]).nextInput.rst = false ∧
        (sending .sAck 0 [cyc .quiet 0 x.1 x.2 true]).nextInput.rx ≠ .data 0x2F)) = true ∧
    { sending .sAck 0 [cyc .quiet 0 0 0 true] with timeout := 1, elapsed := 2 }.timeoutExpired = true := by decide +kernel
/-- A block that is not the last, and the last. -/
theorem witness_SendAdvancesBlock :
    let s := sending .sAck 0 [cyc .quiet 0 1 0x2F false]
    let u := sendingLast .sAck [cyc .quiet 0 1 0x31 false]
    (s.Inv ∧ s.fsm = .sAck ∧ s.nextInput.rst = false ∧ s.nextInput.rx = .data s.hdr) ∧
    u.Inv ∧ u.fsm = .sAck ∧ u.nextInput.rst = false ∧ u.nextInput.rx = .data u.hdr :=
  ⟨⟨by decide +kernel, by decide +kernel⟩, by decide +kernel, by decide +kernel⟩
/-- No data, FAIL, CLOSED, and headers of sizes 1 and 8 with either F, and one that is too large for the last block. -/
theorem witness_ReceiveReadsHeader :
    [((0 : Code3), (0 : Byte)), (3, 0), (4, 0), (1, 0x08), (1, 0x0F), (1, 0x07)].all (fun x =>
      decide ((receiving .rHdr 0 [] [cyc .quiet 0 x.1 x.2 true]).fsm = .rHdr) &&
        !(receiving .rHdr 0 [] [cyc .quiet 0 x.1 x.2 true]).nextInput.rst) = true ∧
    (receivingLast .rHdr 0 [cyc .quiet 0 1 0x02 true]).fsm = .rHdr ∧
    (receivingLast .rHdr 0 [cyc .quiet 0 1 0x02 true]).nextInput.rst = false ∧
    (receivingLast .rHdr 0 [cyc .quiet 0 1 0x02 true]).nextInput.rx = .data 0x02 := by decide +kernel
theorem witness_ReceiveFlushes :
    ∀ c ∈ [(0 : Code3), 1, 3, 4], (receiving .rFlush 0 [] [cyc .quiet 0 c 0x55 false]).fsm = .rFlush ∧
      (receiving .rFlush 0 [] [cyc .quiet 0 c 0x55 false]).nextInput.rst = false := by
  decide +kernel
/-- The first and the last payload byte, all four responses. -/
theorem witness_ReceiveStoresPayload :
    ((receiving .rPay 0 tenBytes [cyc .quiet 0 1 0x55 true]).Inv ∧ (receiving .rPay 7 tenBytes [cyc .quiet 0 1 0x55 true]).Inv) ∧
    [((0 : Code3), (7 : Nibble)), (1, 7), (3, 7), (4, 7), (1, 0)].all (fun x =>
      decide ((receiving .rPay x.2 tenBytes [cyc .quiet 0 x.1 0x55 true]).fsm = .rPay) &&
        !(receiving .rPay x.2 tenBytes [cyc .quiet 0 x.1 0x55 true]).nextInput.rst) = true :=
  ⟨⟨by decide +kernel, by decide +kernel⟩, by decide +kernel⟩
theorem witness_ReceiveChecksBlock :
    let s := receiving .rChk 0 tenBytes [hostCyc .quiet]
    let u := { receivingLast .rChk 0 [hostCyc .quiet] with buf := [(8, 0x09), (9, 0x08)] }
    (s.Inv ∧ s.fsm = .rChk ∧ s.nextInput.rst = false) ∧ u.Inv ∧ u.fsm = .rChk ∧ u.nextInput.rst = false :=
  ⟨⟨by decide +kernel, by decide +kernel⟩, by decide +kernel, by decide +kernel⟩
theorem witness_ReceiveEchoNotAccepted :
    ∀ c ∈ [(0 : Code3), 2, 3, 4], (receiving .rAck 0 tenBytes [cyc .quiet c 0 0 false]).fsm = .rAck ∧
      (receiving .rAck 0 tenBytes [cyc .quiet c 0 0 false]).nextInput.rst = false ∧
      (receiving .rAck 0 tenBytes [cyc .quiet c 0 0 false]).nextInput.tx ≠ .accept := by decide +kernel
theorem witness_ReceiveAdvancesBlock :
    let s := receiving .rAck 0 tenBytes [cyc .quiet 1 0 0 false]
    let u := receivingLast .rAck 0 [cyc .quiet 1 0 0 false]
    (s.Inv ∧ s.fsm = .rAck ∧ s.nextInput.rst = false ∧ s.nextInput.tx = .accept) ∧
    u.Inv ∧ u.fsm = .rAck ∧ u.nextInput.rst = false ∧ u.nextInput.tx = .accept :=
  ⟨⟨by decide +kernel, by decide +kernel⟩, by decide +kernel, by decide +kernel⟩
/-- An edge that enters a timed read, one that stays in it at the saturation value, one outside. -/
theorem witness_ElapsedUpdate :
    holdsNext (step { sending .sPay 7 [cyc .quiet 1 0 0 true] with elapsed := 9 }) (fun t => t.fsm == .sAck) = true ∧
    holdsNext (step { sending .sAck 0 [cyc .quiet 0 0 0 true] with elapsed := 0x1FFFFFFFF })
      (fun t => t.elapsed == 0x1FFFFFFFF) = true ∧
    holdsNext (step { sending .sHdr 0 [cyc .quiet 0 0 0 true] with elapsed := 9 }) (fun t => t.elapsed == 9) = true := by
  decide +kernel
theorem witness_ZeroTimeoutNeverExpires :
    { receiving .rHdr 0 [] [cyc .quiet 0 0 0 true] with elapsed := 0x1FFFFFFFF }.timeout = 0 ∧
    FsmState.rHdr.timed = true ∧ (receiving .rHdr 0 [] [cyc .quiet 0 0 0 true]).nextInput.rst = false ∧
    (receiving .rHdr 0 [] [cyc .quiet 0 0 0 true]).nextInput.rx = .noData := by decide +kernel
/-- Vector T1: TIMEOUT = 1, a tick in every cycle. -/
theorem witness_TimedReadDeadline :
    let x := cyc .quiet 0 0 0 true
    let s := { receiving .rHdr 0 [] [x, x, x] with timeout := 1 }
    s.fsm.timed = true ∧ s.elapsed = 0 ∧ s.timeout ≠ 0 ∧ s.inputs = [x] ++ x :: x :: [] ∧
    (∀ y ∈ [x] ++ [x, x], y.rst = false ∧ y.rx = .noData) ∧ ticksIn [x] = s.timeout.toNat ∧ x.tick = true := by decide +kernel
/-- Program P5 in small: TICK_PERIOD = 2, TIMEOUT = 1, the first tick in the read's last possible cycle of a period. -/
theorem witness_TimedReadTimeBound :
    let x := cyc .quiet 0 0 0 false
    let y := cyc .quiet 0 0 0 true
    let s := { receiving .rHdr 0 [] [x, y, x, y, x] with timeout := 1 }
    (s.fsm.timed = true ∧ s.elapsed = 0 ∧ s.timeout ≠ 0 ∧ s.inputs = [x, y, x, y, x] ++ [] ∧
      (s.timeout.toNat + 1) * 2 + 1 ≤ [x, y, x, y, x].length ∧ ∀ z ∈ [x, y, x, y, x], z.rst = false ∧ z.rx = .noData) ∧
    tickSource 2 1 [x, y, x, y, x] := by
  refine ⟨by decide +kernel, by decide, fun i z h => ?_⟩
  match i, h with
  | 0, h | 1, h | 2, h | 3, h | 4, h => cases h; rfl
/-- An ending with NONE and one with an error code. -/
theorem witness_CommandEndings :
    let s := sendingLast .sAck [cyc .quiet 0 1 0x31 false]
    let u := sending .sPay 7 [cyc .quiet 2 0 0 false]
    (s.Inv ∧ s.busy = true ∧ s.nextInput.rst = false ∧
      holdsNext (step s) (fun t => t.fsm == .idle && t.err == .noError) = true) ∧
    u.Inv ∧ u.busy = true ∧ u.nextInput.rst = false ∧
      holdsNext (step u) (fun t => t.fsm == .idle && t.err == .writeShort) = true :=
  ⟨⟨by decide +kernel, by decide +kernel⟩, by decide +kernel, by decide +kernel⟩
theorem witness_StepKeepsInvariant :
    (receiving .rPay 7 tenBytes [cyc .quiet 0 1 0x08 false]).Inv ∧
    holdsNext (step (receiving .rPay 7 tenBytes [cyc .quiet 0 1 0x08 false])) (fun t => t.fsm == .rChk) = true := by
  decide +kernel
theorem witness_SafeStateAlwaysSteps : (sending .sHdr 0 []).Inv ∧ (receivingLast .rPay 1 []).Inv :=
  ⟨by decide +kernel, by decide +kernel⟩
/-- A machine at BASE = 0x40600000, with a read and with a write to come. -/
theorem witness_ParametersAndBase :
    let s (a : HostAccess) : State := { idleWith [hostCyc a] with base := 0x40600000 }
    (s (.read 0x40600008 .four)).inputs = hostCyc (.read 0x40600008 .four) :: [] ∧
    (s (.write 0x40600010 .four 7)).inputs = hostCyc (.write 0x40600010 .four 7) :: [] ∧
    holdsNext (step (s (.write 0x40600010 .four 7))) (fun _ => true) = true ∧
    holdsNext (step ((s .quiet).withInput (hostCyc (.write 0x010 .four 7)))) (fun _ => true) = true := by decide +kernel
theorem witness_BufferStaysCanonical :
    Memory.wf (receiving .rPay 7 tenBytes [cyc .quiet 0 1 0x08 false]).buf = true ∧
    holdsNext (step (receiving .rPay 7 tenBytes [cyc .quiet 0 1 0x08 false])) (fun _ => true) = true := by decide +kernel
/-- The last block of vector S4. -/
theorem witness_SendBlockRun :
    let x := cyc .quiet 1 0 0 false
    let ack := cyc .quiet 0 1 0x31 false
    let s := sendingLast .sHdr [x, x, x, ack]
    s.Inv ∧ s.fsm = .sHdr ∧ s.inputs = [x, x, x] ++ ack :: [] ∧ [x, x, x].length = s.bsize.toNat + 1 ∧
    (∀ y ∈ [x, x, x], y.rst = false ∧ y.tx = .accept) ∧ ack.rst = false ∧ ack.rx = .data s.hdr := by decide +kernel
/-- Vector S3: the byte A5, three cycles. -/
theorem witness_SendWholeTransfer :
    let x := cyc .quiet 1 1 0xB8 false
    let s : State := { sendOne with inputs := [x, x, x] }
    s.Inv ∧ s.busy = false ∧ s.len ≠ 0 ∧ s.len.toNat ≤ s.bufBytes ∧
      ∃ u, exec .send s = .next u ∧ 3 = s.len.toNat + 2 * ((s.len.toNat + 7) / 8) ∧ echoingPeer 3 u := by
  refine ⟨by decide +kernel, by decide +kernel, by decide +kernel, by decide +kernel, _, rfl, by decide +kernel, ?_⟩
  refine ⟨by decide +kernel, fun _ => by decide +kernel, fun h => absurd h (by decide +kernel), fun t ht => ?_⟩
  cases ht
  refine ⟨by decide +kernel, fun _ => by decide +kernel, fun h => absurd h (by decide +kernel), fun t ht => ?_⟩
  cases ht
  exact ⟨by decide +kernel, fun h => absurd h (by decide +kernel), fun _ => by decide +kernel, fun _ _ => trivial⟩
/-- The last block of vector V4, and the same frame with its last byte corrupt (program P4). -/
theorem witness_ReceiveBlockRun :
    ∀ b ∈ [((0x0A : Byte), true), (0x08, false)],
      let d (y : Byte) := cyc .quiet 0 1 y false
      let acc := cyc .quiet 1 0 0 false
      let s := receivingLast .rHdr 0 [d 0x31, d 0x09, d b.1, acc, acc]
      s.Inv ∧ s.inputs = d 0x31 :: [d 0x09, d b.1] ++ acc :: acc :: [] ∧ (d 0x31).rx = .data 0x31 ∧
      (0x31 : Byte).getLsbD 3 = s.first ∧ [(0x09 : Byte), b.1].length = (0x31 : Byte).toNat % 8 + 1 ∧
      [(0x09 : Byte), b.1].length ≤ s.bsize.toNat ∧
      [d 0x09, d b.1].map CycleInput.rx = [(0x09 : Byte), b.1].map .data ∧ acc.rst = false ∧ acc.tx = .accept ∧
      decide (crc4 [0x09, b.1] 2 = (0x31 : Byte).extractLsb' 4 4) = b.2 := by decide +kernel
/-- Vector V4's bytes 09 0A, sent as two blocks of one byte. -/
theorem witness_ReceiveWholeTransfer :
    let d (y : Byte) := cyc .quiet 0 1 y false
    let acc := cyc .quiet 1 0 0 false
    let blocks : List (List Byte) := [[0x09], [0x0A]]
    let inputs := [d (packHeader [0x09] 1 true), d 0x09, acc, acc, d (packHeader [0x0A] 1 false), d 0x0A, acc, acc]
    let s : State := { State.reset with len := 2, inputs := inputs }
    (s.Inv ∧ s.busy = false ∧ s.len ≠ 0 ∧ s.len.toNat ≤ s.bufBytes ∧ blocks.flatten.length = s.len.toNat ∧
      ∀ p ∈ blocks, 1 ≤ p.length ∧ p.length ≤ 8) ∧
    ∃ u, exec .receive s = .next u ∧ framesArrive true blocks u.inputs := by
  refine ⟨by decide +kernel, _, rfl, _, _, _, [_], _, rfl, by decide +kernel, by decide +kernel, by decide +kernel,
    by decide +kernel, ?_⟩
  exact ⟨_, _, _, [_], _, rfl, by decide +kernel, by decide +kernel, by decide +kernel, by decide +kernel, trivial⟩

end Sys2Proof.Tests
end

section
/-!
The stream port's outputs (20_memory.md R90): what each is in the FSM states, what a cycle without reset shows of it, and O21.
-/
namespace Sys2Proof.Machine

/-! ## The outputs by FSM state -/

/-- The FSM states that offer a byte (20_memory.md R90). -/
theorem State.txValid_iff (s : State) : s.txValid = true ↔ s.fsm = .sHdr ∨ s.fsm = .sPay ∨ s.fsm = .rAck := by
  cases h : s.fsm <;> simp [State.txValid, h]

/-- The FSM states that ask for a byte (20_memory.md R90). -/
theorem State.rxRd_iff (s : State) :
    s.rxRd = true ↔ s.fsm = .sAck ∨ s.fsm = .rHdr ∨ s.fsm = .rPay ∨ s.fsm = .rFlush := by
  cases h : s.fsm <;> simp [State.rxRd, h]

/-- The byte offered is the header, as it is sent and as it is acknowledged (20_memory.md R90). -/
theorem State.txData_header {s : State} (h : s.fsm = .sHdr ∨ s.fsm = .rAck) : s.txData = s.hdr := by
  obtain h | h := h <;> simp [State.txData, h]

/-- The byte offered is the payload byte at K of the block at POS (20_memory.md R90). -/
theorem State.txData_payload {s : State} (h : s.fsm = .sPay) : s.txData = s.bufByte (s.pos.toNat + s.k.toNat) := by
  simp [State.txData, h]

/-- Where no byte is offered, `tx_data` is 0 (20_memory.md R90). -/
theorem State.txData_of_not_txValid {s : State} (h : ¬ s.txValid = true) : s.txData = 0 := by
  rw [State.txValid_iff] at h
  cases hf : s.fsm
  case sHdr | sPay | rAck => simp [hf] at h
  all_goals simp [State.txData, hf]

/-! ## The outputs of a cycle -/

/-- Without reset a cycle shows the stream port's outputs of the state it starts in (20_memory.md R90): `rst` forces none of
them to 0 (70_reset_and_hazards.md R300). -/
theorem step_streamOutputs {s t : State} (hr : s.nextInput.rst = false) (h : step s = .next t) :
    t.out.txValid = s.txValid ∧ t.out.txData = s.txData ∧ t.out.rxRd = s.rxRd := by
  obtain ⟨hout, -, -⟩ := step_keeps h
  simp [hout, cycleOutput, hr]

/-- Settles O21: every step records its cycle's outputs, which without reset are those of the FSM state it starts in. -/
theorem streamPortOutputs : Obligations.StreamPortOutputs := by
  intro s t hr h
  obtain ⟨hvalid, hdata, hrd⟩ := step_streamOutputs hr h
  rw [hvalid, hdata, hrd]
  refine ⟨s.txValid_iff, State.txData_header, State.txData_payload, fun hHdr hAck hPay => ?_, s.rxRd_iff⟩
  exact State.txData_of_not_txValid (by simp [State.txValid_iff, hHdr, hAck, hPay])

end Sys2Proof.Machine
end

section
/-!
Accepting a command (30_encoding.md R114), the reserved opcodes' common effect (30_encoding.md R115), and O14.
-/
namespace Sys2Proof.Machine

/-- A command written while BUSY = 0 is accepted: its own rule runs on the state with DONE cleared (30_encoding.md R114). -/
theorem acceptCommand_of_not_busy {s : State} (h : s.busy = false) (rule : State → Result) :
    acceptCommand s rule = rule { s with done := false } := by
  simp [acceptCommand, h]

/-- Accepting a reserved opcode writes ERR.CODE and DONE only: the DONE it cleared on acceptance is set again at the same edge
(30_encoding.md R114, R115). -/
theorem illegalCommand_of_not_busy {s : State} (h : s.busy = false) :
    illegalCommand s = .next { s with err := .illegalCommand, done := true } := by
  rw [illegalCommand, acceptCommand_of_not_busy h]
  rfl

/-! ## The three reserved rows have one effect, whatever opcode they carry -/

theorem exec_illegalOp0 (s : State) : exec .illegalOp0 s = illegalCommand s := rfl

theorem exec_illegalOp6to7 (op : Nibble) (s : State) : exec (.illegalOp6to7 op) s = illegalCommand s := rfl

theorem exec_illegalOp8toF (op : Nibble) (s : State) : exec (.illegalOp8toF op) s = illegalCommand s := rfl

/-- Settles O14: each reserved row runs `illegalCommand`, whose effect with BUSY = 0 is the one stated. -/
theorem reservedOpcodeResult : Obligations.ReservedOpcodeResult := by
  intro s hb
  have heffect := illegalCommand_of_not_busy hb
  refine ⟨?op0, fun op => ?op6to7, fun op => ?op8toF⟩
  case op0 => rw [exec_illegalOp0, heffect]
  case op6to7 => rw [exec_illegalOp6to7, heffect]
  case op8toF => rw [exec_illegalOp8toF, heffect]

end Sys2Proof.Machine
end

section
/-!
The header packer as the source's own formula (40_codec.md R141), the codec commands by their outcome (40_codec.md R143 to R145),
and O8, O11, O12 and O13.
-/
namespace Sys2Proof.Machine

/-! ## The header packer -/

/-- The header packer fails exactly on sizes outside 1 to 8 (40_codec.md R141). -/
theorem enc_eq_none_iff (p : List Byte) (n : Nat) (first : Bool) : enc p n first = none ↔ n = 0 ∨ 8 < n := by
  rw [enc, ite_eq_left_iff]
  simp only [Config.maxBlock_eq, reduceCtorEq, imp_false, not_not]

/-- The fields of a header side by side are the fields shifted to their places and joined: no two of them share a bit
(30_encoding.md R110). -/
theorem header_append_eq_or (ck : Nibble) (first : Bool) (sc : Code3) :
    (ck ++ BitVec.ofBool first ++ sc : Byte) =
      (ck.setWidth 8 <<< 4) ||| (if first then 0x8 else 0) ||| sc.setWidth 8 := by
  revert ck first sc; decide

/-- Cutting a number to the 3 bits of a size code is masking it with 0x7. -/
theorem sizeCode_setWidth (m : Nat) : (BitVec.ofNat 3 m).setWidth 8 = BitVec.ofNat 8 m &&& 0x7 := by
  refine BitVec.eq_of_toNat_eq ?_
  rw [BitVec.toNat_setWidth, BitVec.toNat_ofNat, BitVec.toNat_and, BitVec.toNat_ofNat]
  calc m % 2 ^ 3 % 2 ^ 8
    _ = m % 2 ^ 8 % 2 ^ 3 := by omega
    _ = m % 2 ^ 8 &&& 7 := (Nat.and_two_pow_sub_one_eq_mod (m % 2 ^ 8) 3).symm

/-- The packed header in the source's own formula (40_codec.md R141). -/
theorem packHeader_eq_or (p : List Byte) (n : Nat) (first : Bool) :
    packHeader p n first =
      ((crc4 p n).setWidth 8 <<< 4) ||| (if first then 0x8 else 0) ||| (BitVec.ofNat 8 (n - 1) &&& 0x7) := by
  rw [packHeader, header_append_eq_or, sizeCode_setWidth]

/-- Settles O8: outside sizes 1 to 8 the packer fails, inside it packs the header, which is the formula's byte. -/
theorem headerPackingFormula : Obligations.HeaderPackingFormula := by
  intro p n first
  split
  case isTrue hsize => exact (enc_eq_none_iff p n first).2 hsize
  case isFalse hsize => rw [enc_eq_some p n first (by omega) (by omega), packHeader_eq_or]

/-! ## The codec commands, accepted with BUSY = 0 -/

/-- The payload operand is the bytes of CODEC_DATA0 and CODEC_DATA1 from the low end, each at its bit offset (10_state.md R45). -/
theorem State.payload_eq_map (s : State) :
    s.payload = [0, 8, 16, 24].map (s.codecData0.extractLsb' · 8) ++ [0, 8, 16, 24].map (s.codecData1.extractLsb' · 8) := rfl

/-- Clearing DONE on acceptance leaves the payload operand alone. -/
@[simp] theorem State.payload_setDone (s : State) (d : Bool) : ({ s with done := d } : State).payload = s.payload := rfl

theorem exec_checksum (s : State) : exec .checksum s = execChecksum s := rfl

theorem exec_encodeHeader (s : State) : exec .encodeHeader s = execEncodeHeader s := rfl

theorem exec_decodeHeader (s : State) : exec .decodeHeader s = execDecodeHeader s := rfl

/-- CHECKSUM with a size that no block has (40_codec.md R143). -/
theorem execChecksum_of_size_invalid {s : State} (hb : s.busy = false)
    (hsize : s.cfgSize.toNat = 0 ∨ 8 < s.cfgSize.toNat) :
    execChecksum s = .next { s with err := .invalidSize, done := true } := by
  rw [execChecksum, acceptCommand_of_not_busy hb]
  exact if_pos hsize

/-- CHECKSUM with a block's size: the DONE cleared on acceptance is set again at the same edge (40_codec.md R143). -/
theorem execChecksum_of_size_valid {s : State} (hb : s.busy = false)
    (hsize : ¬ (s.cfgSize.toNat = 0 ∨ 8 < s.cfgSize.toNat)) :
    execChecksum s = .next { s with resCk := crc4 s.payload s.cfgSize.toNat, err := .noError, done := true } := by
  rw [execChecksum, acceptCommand_of_not_busy hb]
  exact if_neg hsize

/-- ENCODE_HEADER where the packer answers INVALID_SIZE: CODEC_RES is left unchanged (40_codec.md R144). -/
theorem execEncodeHeader_of_enc_eq_none {s : State} (hb : s.busy = false)
    (henc : enc s.payload s.cfgSize.toNat s.cfgIsFirst = none) :
    execEncodeHeader s = .next { s with err := .invalidSize, done := true } := by
  simp only [execEncodeHeader, acceptCommand_of_not_busy hb, State.payload_setDone, henc]
  rfl

/-- ENCODE_HEADER where the packer answers a header (40_codec.md R144). -/
theorem execEncodeHeader_of_enc_eq_some {s : State} {h : Byte} (hb : s.busy = false)
    (henc : enc s.payload s.cfgSize.toNat s.cfgIsFirst = some h) :
    execEncodeHeader s = .next { s with resHdrOut := h, err := .noError, done := true } := by
  simp only [execEncodeHeader, acceptCommand_of_not_busy hb, State.payload_setDone, henc]
  rfl

/-- Settles O11: the two clauses are CHECKSUM's two branches, on the payload operand. -/
theorem checksumCommandResult : Obligations.ChecksumCommandResult := by
  intro s hb p
  have hp : p = s.payload := s.payload_eq_map.symm
  rw [hp, exec_checksum]
  exact ⟨execChecksum_of_size_invalid hb, fun h1 h8 => execChecksum_of_size_valid hb (by omega)⟩

/-- Settles O12: the two clauses are the two answers of the header packer, on the payload operand. -/
theorem encodeHeaderCommandResult : Obligations.EncodeHeaderCommandResult := by
  intro s hb p
  have hp : p = s.payload := s.payload_eq_map.symm
  rw [hp, exec_encodeHeader]
  refine ⟨fun hsize => ?invalid, fun h1 h8 => ?packed⟩
  case invalid => exact execEncodeHeader_of_enc_eq_none hb ((enc_eq_none_iff ..).2 hsize)
  case packed =>
    have henc := enc_eq_some s.payload s.cfgSize.toNat s.cfgIsFirst h1 h8
    exact ⟨_, henc, execEncodeHeader_of_enc_eq_some hb henc⟩

/-- Settles O13: the fields written are those of `dec`, which never fails (40_codec.md R142). -/
theorem decodeHeaderCommandResult : Obligations.DecodeHeaderCommandResult := by
  intro s hb
  rw [exec_decodeHeader, execDecodeHeader, acceptCommand_of_not_busy hb]
  rfl

end Sys2Proof.Machine
end

section
/-!
A cycle of a busy FTBC by what its engine does from the state the cycle starts in, and the shared operations of the engine by their
outcome: the offer of a byte, the block in BUF, the block advance and the start of a transfer.
-/
namespace Sys2Proof.Machine

/-! ## From the engine's half of an edge to the step -/

/-- What the engine answers from the state a busy cycle starts in, the step answers too, as far as the engine's view goes: the
host's half of the edge changes nothing the engine reads (92_eei_decisions.md D12). DONE is set where the command has ended
(60_exceptions.md R262). -/
theorem step_of_engineEdge {s u : State} (hf : s.fsm ≠ .idle) (hr : s.nextInput.rst = false)
    (hu : engineEdge s s.nextInput = .next u) :
    ∃ t, step s = .next t ∧ t.engine = u.engine ∧ (t.fsm = .idle → t.done = true) := by
  obtain ⟨h, hstep, hengine, -⟩ := step_busy_engine s hf hr
  obtain ⟨t, ht, hview⟩ := engineEdge_setRest h.hostRegs h.done h.out h.cycle h.inputs hu
  rw [← State.eq_setRest hengine] at ht
  have hfsm : h.fsm ≠ .idle := (congrArg EngineView.fsm hengine).trans_ne hf
  obtain ⟨-, -, -, -, hdone⟩ := engineEdge_keeps hfsm ht
  exact ⟨t, hstep.trans ht, hview, fun hidle => by simp [hdone, hidle]⟩

/-! ## The offer of a byte -/

/-- The engine's registers after an offered byte: `accepted` on ACCEPT, otherwise those of WAIT or of the abort with this result
(41_send.md R172, R174; 42_receive.md R210). -/
def EngineView.offered (e : EngineView) (tx : TxResp) (result : Word) (accepted : EngineView) : EngineView :=
  match tx with
  | .accept => accepted
  | .wait => e
  | .short => e.ended .writeShort result
  | .fail => e.ended .writeFailed result
  | .closed => e.ended .streamClosed result

/-- An offered byte answers a next state where its acceptance does. -/
theorem offerByte_next (s v : State) (tx : TxResp) (r : Word) :
    ∃ u, offerByte s tx r (.next v) = .next u ∧ u.engine = s.engine.offered tx r v.engine := by
  cases tx <;> exact ⟨_, rfl, rfl⟩

/-! ## The block in BUF -/

/-- While a command runs, the block at POS lies below LEN, and LEN in BUF (10_state.md R56). -/
theorem State.Inv.block_bounds {s : State} (hinv : s.Inv) (hf : s.fsm ≠ .idle) :
    s.pos.toNat + s.bsize.toNat ≤ s.len.toNat ∧ s.len.toNat ≤ s.bufBytes := by
  obtain ⟨-, htransfer, -, -⟩ := hinv
  obtain ⟨-, -, hpos, hlen, hbsize, -⟩ := htransfer hf
  omega

/-- In S_PAY K counts inside the block (10_state.md R56). -/
theorem State.Inv.k_lt_bsize {s : State} (hinv : s.Inv) (hf : s.fsm = .sPay) : s.k.toNat < s.bsize.toNat := by
  obtain ⟨-, -, ⟨-, hk⟩, -⟩ := hinv
  exact hk hf

/-- A 32-bit index and a 4-bit count add as numbers do, cut to 32 bits. -/
theorem add_nibble_eq_ofNat (p : Word) (b : Nibble) : p + b.setWidth 32 = BitVec.ofNat 32 (p.toNat + b.toNat) := by
  simp [BitVec.ofNat_add]

/-- K + 1 as a number cut to 4 bits. -/
theorem succ_nibble_eq_ofNat (k : Nibble) : k + 1 = BitVec.ofNat 4 (k.toNat + 1) := by
  simp [BitVec.ofNat_add]

/-- The entry to S_HDR, with the place and the size of the block as numbers (41_send.md R171). -/
theorem enterSendBlock_at {s : State} {p n : Nat} (hp : s.pos.toNat = p) (hn : s.bsize.toNat = n)
    (hin : p + n ≤ s.bufBytes) :
    enterSendBlock s = .next { s with hdr := packHeader (s.bufBlock p n) n s.first, k := 0, fsm := .sHdr } := by
  subst hp hn
  exact enterSendBlock_next s hin

/-! ## The block advance -/

/-- The advance past the last block finishes the command with LEN (41_send.md R177, 42_receive.md R212). -/
theorem advanceBlock_of_eq_len {s : State} {size : Nibble} {go : State → Result}
    (h : s.pos.toNat + size.toNat = s.len.toNat) :
    advanceBlock s size go = .next ({ s with pos := s.len, first := false }.finish s.len) := by
  have hpos : s.pos + size.setWidth 32 = s.len := by
    rw [add_nibble_eq_ofNat, h, BitVec.ofNat_toNat, BitVec.setWidth_eq]
  simp only [advanceBlock, hpos, if_true]

/-- The advance past an earlier block goes on with the next block's place and size (41_send.md R177, 42_receive.md R212). -/
theorem advanceBlock_of_lt_len {s : State} {size : Nibble} {go : State → Result}
    (h : s.pos.toNat + size.toNat < s.len.toNat) :
    advanceBlock s size go = go { s with
      pos := BitVec.ofNat 32 (s.pos.toNat + size.toNat), first := false
      bsize := BitVec.ofNat 4 (min 8 (s.len.toNat - (s.pos.toNat + size.toNat))) } := by
  have hpos : (s.pos + size.setWidth 32).toNat = s.pos.toNat + size.toNat :=
    add_nibble_toNat _ _ (h.trans s.len.isLt)
  have hne : s.pos + size.setWidth 32 ≠ s.len := fun heq => by
    rw [heq] at hpos
    omega
  have hleft : (s.len - (s.pos + size.setWidth 32)).toNat = s.len.toNat - (s.pos.toNat + size.toNat) := by
    rw [BitVec.toNat_sub_of_le (by rw [BitVec.le_def, hpos]; omega), hpos]
  rw [← add_nibble_eq_ofNat, ← hleft]
  exact if_neg hne

/-! ## The start of a transfer -/

/-- A transfer of more bytes than BUF holds ends at once (41_send.md R170, 42_receive.md R200). -/
theorem startTransfer_of_too_long {s : State} {go : State → Result} (h : s.bufBytes < s.len.toNat) :
    startTransfer s go =
      .next { s with err := .lengthTooLarge, result := 0, pos := 0, first := false, done := true } :=
  if_pos h

/-- A transfer of no bytes ends at once (41_send.md R170, 42_receive.md R200). -/
theorem startTransfer_of_empty {s : State} {go : State → Result} (h : s.len = 0) :
    startTransfer s go = .next { s with err := .noError, result := 0, pos := 0, first := false, done := true } :=
  (if_neg (by simp [h])).trans (if_pos h)

/-- Any other transfer goes on with the first block's size (41_send.md R170, 42_receive.md R200). -/
theorem startTransfer_of_fits {s : State} {go : State → Result} (h0 : s.len ≠ 0) (h : s.len.toNat ≤ s.bufBytes) :
    startTransfer s go =
      go { s with
        err := .noError, result := 0, pos := 0, first := true, bsize := BitVec.ofNat 4 (min 8 s.len.toNat) } :=
  (if_neg (by omega)).trans (if_neg h0)

end Sys2Proof.Machine
end

section
/-!
SEND and the send path of the engine (41_send.md R170 to R178): O15, O38, O39 and O41.
-/
namespace Sys2Proof.Machine

/-! ## SEND's acceptance -/

/-- SEND accepted with BUSY = 0 starts a transfer on the state with DONE cleared (30_encoding.md R114, 41_send.md R170). -/
theorem exec_send_of_not_busy {s : State} (hb : s.busy = false) :
    exec .send s = startTransfer { s with done := false } enterSendBlock :=
  acceptCommand_of_not_busy hb fun s => startTransfer s enterSendBlock

/-- Settles O15: the three clauses are the three outcomes of the start of a transfer; in the third the first block, at index 0,
lies in BUF and has a size the header packer takes. -/
theorem sendCommandStart : Obligations.SendCommandStart := by
  intro s hb
  rw [exec_send_of_not_busy hb]
  refine ⟨fun hlong => ?tooLong, fun h0 => ?empty, fun h0 hfits => ?fits⟩
  case tooLong => exact startTransfer_of_too_long hlong
  case empty => exact startTransfer_of_empty h0
  case fits =>
    have hpos : s.len.toNat ≠ 0 := fun h => h0 (BitVec.eq_of_toNat_eq h)
    have hn : (BitVec.ofNat 4 (min 8 s.len.toNat)).toNat = min 8 s.len.toNat :=
      (BitVec.toNat_ofNat ..).trans (Nat.mod_eq_of_lt (by omega))
    have hin : 0 + min 8 s.len.toNat ≤ s.bufBytes := by omega
    exact ⟨_, enc_eq_some _ _ _ (by omega) (by omega),
      (startTransfer_of_fits (s := { s with done := false }) h0 hfits).trans (enterSendBlock_at rfl hn hin)⟩

/-! ## The offers of S_HDR and S_PAY -/

/-- Settles O38: S_HDR is an offer of HDR that goes on to S_PAY, in the five cases of the response. -/
theorem sendOffersHeader : Obligations.SendOffersHeader := by
  intro s hf hr
  obtain ⟨u, hoffer, hview⟩ := offerByte_next s { s with k := 0, fsm := .sPay } s.nextInput.tx s.pos
  obtain ⟨t, hstep, hengine, hdone⟩ := step_of_engineEdge (by simp [hf]) hr ((engineEdge_sHdr _ _ hf).trans hoffer)
  obtain ⟨hvalid, hdata, -⟩ := step_streamOutputs hr hstep
  refine ⟨t, hstep, hvalid.trans (s.txValid_iff.2 (.inl hf)), hdata.trans (State.txData_header (.inl hf)), hdone, ?_⟩
  rw [hengine, hview]
  cases s.nextInput.tx <;> rfl

/-- The state S_PAY goes on with when its byte is accepted (41_send.md R174). -/
def State.payloadSent (s : State) : State :=
  if s.k.toNat + 1 = s.bsize.toNat then { s with k := 0, elapsed := 0, fsm := .sAck }
  else { s with k := BitVec.ofNat 4 (s.k.toNat + 1) }

/-- In S_PAY the engine offers a byte of BUF; the index and the count are exact inside the block (41_send.md R173, R174). -/
theorem sPayEdge_eq_offerByte {s : State} {tx : TxResp} (hin : s.pos.toNat + s.k.toNat < s.bufBytes)
    (hk : s.k.toNat < s.bsize.toNat) :
    sPayEdge s tx = offerByte s tx (BitVec.ofNat 32 (s.pos.toNat + s.k.toNat)) (.next s.payloadSent) := by
  obtain ⟨-, hlast⟩ := succ_nibble hk
  rw [sPayEdge, if_pos hin, add_nibble_eq_ofNat, State.payloadSent]
  by_cases h : s.k.toNat + 1 = s.bsize.toNat
  · rw [if_pos h, if_pos (hlast.2 h)]
  · rw [if_neg h, if_neg (mt hlast.1 h), succ_nibble_eq_ofNat]

/-- Settles O39: the invariant puts BUF[POS + K] inside BUF, so S_PAY is an offer of it, in the five cases of the response. -/
theorem sendOffersPayload : Obligations.SendOffersPayload := by
  intro s hinv hf hr
  have hbusy : s.fsm ≠ .idle := by simp [hf]
  have hk := hinv.k_lt_bsize hf
  obtain ⟨hblock, hlen⟩ := hinv.block_bounds hbusy
  obtain ⟨u, hoffer, hview⟩ :=
    offerByte_next s s.payloadSent s.nextInput.tx (BitVec.ofNat 32 (s.pos.toNat + s.k.toNat))
  have hedge := (engineEdge_sPay _ _ hf).trans ((sPayEdge_eq_offerByte (by omega) hk).trans hoffer)
  obtain ⟨t, hstep, hengine, hdone⟩ := step_of_engineEdge hbusy hr hedge
  obtain ⟨hvalid, hdata, -⟩ := step_streamOutputs hr hstep
  refine ⟨t, hstep, hvalid.trans (s.txValid_iff.2 (.inr (.inl hf))), hdata.trans (State.txData_payload hf), hdone, ?_⟩
  rw [hengine, hview]
  cases s.nextInput.tx
  case accept => exact apply_ite State.engine ..
  all_goals rfl

/-! ## The acknowledgment -/

/-- In S_ACK a byte equal to HDR advances to the next block, ELAPSED counted (41_send.md R177, 43_timed_read.md R241). -/
theorem sAckEdge_matching (s : State) (tick : Bool) :
    sAckEdge s (.data s.hdr) tick = advanceBlock (s.ticked tick) s.bsize enterSendBlock :=
  if_pos rfl

/-- Settles O41: the two clauses are the two outcomes of the block advance; in the second the next block lies below LEN, so in BUF,
and has a size the header packer takes. -/
theorem sendAdvancesBlock : Obligations.SendAdvancesBlock := by
  intro s hinv hf hr hrx e p n
  have hbusy : s.fsm ≠ .idle := by simp [hf]
  obtain ⟨hblock, hlen⟩ := hinv.block_bounds hbusy
  have hedge : engineEdge s s.nextInput = advanceBlock (s.ticked s.nextInput.tick) s.bsize enterSendBlock := by
    rw [engineEdge_sAck _ _ hf, hrx, sAckEdge_matching]
  refine ⟨hblock, ?_⟩
  by_cases hlast : p = s.len.toNat
  case pos =>
    have hfinish := hedge.trans (advanceBlock_of_eq_len (s := s.ticked _) hlast)
    obtain ⟨t, hstep, hengine, hdone⟩ := step_of_engineEdge hbusy hr hfinish
    have hidle : t.fsm = .idle := congrArg EngineView.fsm hengine
    exact ⟨t, hstep, fun _ => ⟨hengine, hdone hidle⟩, fun hne => absurd hlast hne⟩
  case neg =>
    have hmore : p < s.len.toNat := lt_of_le_of_ne hblock hlast
    have hp : (BitVec.ofNat 32 p).toNat = p :=
      (BitVec.toNat_ofNat ..).trans (Nat.mod_eq_of_lt (hmore.trans s.len.isLt))
    have hn : (BitVec.ofNat 4 n).toNat = n := (BitVec.toNat_ofNat ..).trans (Nat.mod_eq_of_lt (by omega))
    have hin : p + n ≤ s.bufBytes := by omega
    have hgoOn := (hedge.trans (advanceBlock_of_lt_len (s := s.ticked _) hmore)).trans (enterSendBlock_at hp hn hin)
    obtain ⟨t, hstep, hengine, -⟩ := step_of_engineEdge hbusy hr hgoOn
    have henc := enc_eq_some (s.bufBlock p n) n false (by omega) (by omega)
    exact ⟨t, hstep, fun heq => absurd heq hlast, fun _ => ⟨_, henc, hengine⟩⟩

end Sys2Proof.Machine
end

section
/-!
RECEIVE and the receive path of the engine (42_receive.md R200, R205, R210, R212, R213): O16, O43, O46 and O47.
-/
namespace Sys2Proof.Machine

/-! ## RECEIVE's acceptance -/

/-- RECEIVE accepted with BUSY = 0 starts a transfer on the state with DONE cleared (30_encoding.md R114, 42_receive.md R200). -/
theorem exec_receive_of_not_busy {s : State} (hb : s.busy = false) :
    exec .receive s = startTransfer { s with done := false } enterReceiveBlock :=
  acceptCommand_of_not_busy hb fun s => startTransfer s enterReceiveBlock

/-- Settles O16: the three clauses are the three outcomes of the start of a transfer; the third goes on to the header read. -/
theorem receiveCommandStart : Obligations.ReceiveCommandStart := by
  intro s hb
  rw [exec_receive_of_not_busy hb]
  refine ⟨fun hlong => ?tooLong, fun h0 => ?empty, fun h0 hfits => ?fits⟩
  case tooLong => exact startTransfer_of_too_long hlong
  case empty => exact startTransfer_of_empty h0
  case fits => exact startTransfer_of_fits (s := { s with done := false }) h0 hfits

/-! ## The discard of R_FLUSH -/

/-- The engine's registers after a cycle of the discard: a byte changes nothing, anything else ends it with SEQUENCE_MISMATCH and
this result (42_receive.md R205). -/
def EngineView.flushed (e : EngineView) (rx : RxResp) (result : Word) : EngineView :=
  match rx with
  | .data _ => e
  | .noData | .fail | .closed => e.ended .sequenceMismatch result

/-- R_FLUSH answers a next state on every response (42_receive.md R205). -/
theorem rFlushEdge_next (s : State) (rx : RxResp) :
    ∃ u, rFlushEdge s rx = .next u ∧ u.engine = s.engine.flushed rx s.rxfail := by
  cases rx <;> exact ⟨_, rfl, rfl⟩

/-- Settles O43: R_FLUSH asks for a byte and discards it or ends, in the four cases of the response. -/
theorem receiveFlushes : Obligations.ReceiveFlushes := by
  intro s hf hr
  obtain ⟨u, hflush, hview⟩ := rFlushEdge_next s s.nextInput.rx
  obtain ⟨t, hstep, hengine, hdone⟩ := step_of_engineEdge (by simp [hf]) hr ((engineEdge_rFlush _ _ hf).trans hflush)
  obtain ⟨-, -, hrd⟩ := step_streamOutputs hr hstep
  refine ⟨t, hstep, hrd.trans (s.rxRd_iff.2 (.inr (.inr (.inr hf)))), hdone, ?_⟩
  rw [hengine, hview]
  cases s.nextInput.rx <;> rfl

/-! ## The echo of R_ACK -/

/-- An offered byte that is not accepted answers a next state, whatever its acceptance would do. -/
theorem offerByte_next_of_ne_accept {s : State} {tx : TxResp} {r : Word} {acc : Result} (h : tx ≠ .accept) :
    ∃ u, offerByte s tx r acc = .next u ∧ ∀ e, u.engine = s.engine.offered tx r e := by
  cases tx
  case accept => exact absurd rfl h
  all_goals exact ⟨_, rfl, fun _ => rfl⟩

/-- Settles O46: R_ACK is an offer of HDR with POS as the result of its abort, in the four cases that do not accept it. -/
theorem receiveEchoNotAccepted : Obligations.ReceiveEchoNotAccepted := by
  intro s hf hr hne
  obtain ⟨u, hoffer, hview⟩ := offerByte_next_of_ne_accept (s := s) (r := s.pos) hne
  obtain ⟨t, hstep, hengine, hdone⟩ := step_of_engineEdge (by simp [hf]) hr ((engineEdge_rAck _ _ hf).trans hoffer)
  obtain ⟨hvalid, hdata, -⟩ := step_streamOutputs hr hstep
  refine ⟨t, hstep, hvalid.trans (s.txValid_iff.2 (.inr (.inr hf))), hdata.trans (State.txData_header (.inr hf)), hdone, ?_⟩
  rw [hengine, hview t.engine]
  cases s.nextInput.tx <;> rfl

/-- The byte offered moves in a cycle without reset that accepts it (20_memory.md R88, R91). -/
theorem step_sent_of_accept {s t : State} (hr : s.nextInput.rst = false) (htx : s.nextInput.tx = .accept)
    (hvalid : s.txValid = true) (h : step s = .next t) : t.out.sent = some s.txData := by
  obtain ⟨hout, -, -⟩ := step_keeps h
  simp [hout, cycleOutput, sentByte, hr, htx, hvalid]

/-- In R_ACK the received block is no longer than the one expected (10_state.md R56). -/
theorem State.Inv.rsize_le_bsize {s : State} (hinv : s.Inv) (hf : s.fsm = .rAck) : s.rsize.toNat ≤ s.bsize.toNat := by
  obtain ⟨-, -, -, ⟨hblock, -⟩⟩ := hinv
  obtain ⟨-, hle, -⟩ := hblock (.inr (.inr hf))
  exact hle

/-- In R_ACK an accepted echo advances by the received block's size (42_receive.md R212). -/
theorem rAckEdge_accept (s : State) : rAckEdge s .accept = advanceBlock s s.rsize enterReceiveBlock := rfl

/-- Settles O47: the accepted byte is HDR, and the two clauses are the two outcomes of the block advance, which by the invariant
does not pass LEN. -/
theorem receiveAdvancesBlock : Obligations.ReceiveAdvancesBlock := by
  intro s hinv hf hr htx p
  have hbusy : s.fsm ≠ .idle := by simp [hf]
  obtain ⟨hblock, -⟩ := hinv.block_bounds hbusy
  have hle : p ≤ s.len.toNat := (Nat.add_le_add_left (hinv.rsize_le_bsize hf) _).trans hblock
  have hedge : engineEdge s s.nextInput = advanceBlock s s.rsize enterReceiveBlock := by
    rw [engineEdge_rAck _ _ hf, htx, rAckEdge_accept]
  have hsent {t : State} (hstep : step s = .next t) : t.out.sent = some s.hdr := by
    rw [step_sent_of_accept hr htx (s.txValid_iff.2 (.inr (.inr hf))) hstep, State.txData_header (.inr hf)]
  refine ⟨hle, ?_⟩
  by_cases hlast : p = s.len.toNat
  case pos =>
    obtain ⟨t, hstep, hengine, hdone⟩ := step_of_engineEdge hbusy hr (hedge.trans (advanceBlock_of_eq_len hlast))
    have hidle : t.fsm = .idle := congrArg EngineView.fsm hengine
    exact ⟨t, hstep, hsent hstep, fun _ => ⟨hengine, hdone hidle⟩, fun hne => absurd hlast hne⟩
  case neg =>
    have hmore : p < s.len.toNat := lt_of_le_of_ne hle hlast
    obtain ⟨t, hstep, hengine, -⟩ := step_of_engineEdge hbusy hr (hedge.trans (advanceBlock_of_lt_len hmore))
    exact ⟨t, hstep, hsent hstep, fun heq => absurd heq hlast, fun _ => hengine⟩

end Sys2Proof.Machine
end

section
/-!
ELAPSED and the timed reads (43_timed_read.md R241, R245): a cycle of a read without data that goes on, what each edge leaves in
ELAPSED, O48 and O49.
-/
namespace Sys2Proof.Machine

/-- The timed-read states (43_timed_read.md R240). -/
theorem FsmState.timed_iff (f : FsmState) : f.timed = true ↔ f = .sAck ∨ f = .rHdr ∨ f = .rPay := by
  cases f <;> decide

/-! ## A read without data goes on until its deadline -/

/-- Before the deadline a cycle of a timed read without data only counts its tick (43_timed_read.md R241, R242). -/
theorem timedRead_noData_of_not_expired {s : State} {tick : Bool} {r : Word} {took : Byte → State → Result}
    (h : s.timeoutExpired = false) : timedRead s .noData tick r took = .next (s.ticked tick) := by
  simp [timedRead, h, State.ticked]

/-- Before the deadline the three timed-read states answer a cycle without data alike (43_timed_read.md R240). -/
theorem engineEdge_noData_of_not_expired {s : State} {x : CycleInput} (hf : s.fsm.timed = true)
    (hx : s.timeoutExpired = false) (hrx : x.rx = .noData) : engineEdge s x = .next (s.ticked x.tick) := by
  obtain hf | hf | hf := s.fsm.timed_iff.1 hf
  · exact (engineEdge_sAck _ _ hf).trans (hrx ▸ timedRead_noData_of_not_expired hx)
  · exact (engineEdge_rHdr _ _ hf).trans (hrx ▸ timedRead_noData_of_not_expired hx)
  · exact (engineEdge_rPay _ _ hf).trans (hrx ▸ timedRead_noData_of_not_expired hx)

/-- TIMEOUT = 0 is no deadline, whatever ELAPSED holds (43_timed_read.md R245). -/
theorem State.timeoutExpired_of_timeout_zero {s : State} (h : s.timeout = 0) : s.timeoutExpired = false := by
  simp [State.timeoutExpired, h]

/-- Settles O49: TIMEOUT = 0 is no deadline, so the cycle only counts its tick. -/
theorem zeroTimeoutNeverExpires : Obligations.ZeroTimeoutNeverExpires := by
  intro s h0 hf hr hrx
  have hbusy : s.fsm ≠ .idle := fun hidle => by simp [hidle, FsmState.timed_iff] at hf
  have hedge := engineEdge_noData_of_not_expired hf (State.timeoutExpired_of_timeout_zero h0) hrx
  obtain ⟨t, hstep, hengine, -⟩ := step_of_engineEdge hbusy hr hedge
  have helapsed : t.elapsed = countTick s.elapsed s.nextInput.tick := congrArg EngineView.elapsed hengine
  refine ⟨t, hstep, ?_, ?_⟩
  · rw [hengine, helapsed]
    rfl
  · rw [helapsed, countTick_toNat]

/-! ## What an edge leaves in ELAPSED -/

/-- An edge from FSM state f leaves ELAPSED at 0 where it enters a timed read, and at e elsewhere (43_timed_read.md R241). -/
def State.ElapsedUpdated (f : FsmState) (e : Elapsed) (t : State) : Prop :=
  t.elapsed = if t.fsm.timed = true ∧ t.fsm ≠ f then 0 else e

section ElapsedUpdated
variable {s t : State} {f : FsmState} {e : Elapsed}

theorem State.ElapsedUpdated.stay (hf : t.fsm = f) (he : t.elapsed = e) : t.ElapsedUpdated f e := by
  simp [ElapsedUpdated, hf, he]

theorem State.ElapsedUpdated.untimed (hf : t.fsm.timed = false) (he : t.elapsed = e) : t.ElapsedUpdated f e := by
  simp [ElapsedUpdated, hf, he]

theorem State.ElapsedUpdated.enter (hf : t.fsm.timed = true) (hne : t.fsm ≠ f) (he : t.elapsed = 0) :
    t.ElapsedUpdated f e := by
  simp [ElapsedUpdated, hf, hne, he]

/-! ## The engine's operations -/

/-- S_HDR is no timed read (41_send.md R171). -/
theorem State.ElapsedUpdated.enterSend (h : enterSendBlock s = .next t) : t.ElapsedUpdated f s.elapsed := by
  obtain ⟨-, rfl⟩ := enterSendBlock_eq_next h
  exact .untimed rfl rfl

/-- The header read begins with ELAPSED at 0 (42_receive.md R200, R212). -/
theorem State.ElapsedUpdated.enterReceive (hf : f ≠ .rHdr) (h : enterReceiveBlock s = .next t) :
    t.ElapsedUpdated f s.elapsed := by
  cases h
  exact .enter rfl hf.symm rfl

/-- A block advance ends the command or leaves what it goes on with (41_send.md R177, 42_receive.md R212). -/
theorem State.ElapsedUpdated.advance {size : Nibble} {go : State → Result} (h : advanceBlock s size go = .next t)
    (hgo : ∀ u v, go u = .next v → v.ElapsedUpdated f u.elapsed) : t.ElapsedUpdated f s.elapsed := by
  obtain ⟨-, rfl⟩ | ⟨-, h⟩ := advanceBlock_eq_next h
  · exact .untimed rfl rfl
  · have hnext := hgo _ _ h
    exact hnext

/-- The start of a transfer stays in IDLE or leaves what it goes on with (41_send.md R170, 42_receive.md R200). -/
theorem State.ElapsedUpdated.start {go : State → Result} (hf : s.fsm = .idle) (h : startTransfer s go = .next t)
    (hgo : ∀ u v, go u = .next v → v.ElapsedUpdated .idle u.elapsed) : t.ElapsedUpdated .idle s.elapsed := by
  obtain ⟨-, rfl⟩ | ⟨-, rfl⟩ | ⟨-, -, h⟩ := startTransfer_eq_next h
  · exact .stay hf rfl
  · exact .stay hf rfl
  · have hnext := hgo _ _ h
    exact hnext

/-- An offered byte waits, ends the command, or leaves what its acceptance does (20_memory.md R91). -/
theorem State.ElapsedUpdated.offer {tx : TxResp} {r : Word} {acc : Result} (h : offerByte s tx r acc = .next t)
    (hacc : ∀ v, acc = .next v → v.ElapsedUpdated s.fsm s.elapsed) : t.ElapsedUpdated s.fsm s.elapsed := by
  obtain ⟨-, h⟩ | ⟨-, rfl⟩ | ⟨c, -, -, -, rfl⟩ := offerByte_eq_next h
  · exact hacc _ h
  · exact .stay rfl rfl
  · exact .untimed rfl rfl

/-- A cycle of a timed read counts its tick, also where it ends the command (43_timed_read.md R241, log entry 6). -/
theorem State.ElapsedUpdated.timed {rx : RxResp} {tick : Bool} {r : Word} {took : Byte → State → Result}
    (h : timedRead s rx tick r took = .next t)
    (htook : ∀ b v, took b (s.ticked tick) = .next v → v.ElapsedUpdated s.fsm (countTick s.elapsed tick)) :
    t.ElapsedUpdated s.fsm (countTick s.elapsed tick) := by
  obtain ⟨b, -, h⟩ | ⟨-, -, rfl⟩ | ⟨c, -, -, rfl⟩ := timedRead_eq_next h
  · exact htook _ _ h
  · exact .stay rfl rfl
  · exact .untimed rfl rfl

end ElapsedUpdated

/-! ## The edge of each FSM state -/

section Edges
variable {s t : State} {tx : TxResp} {rx : RxResp} {tick : Bool}

theorem sHdrEdge_elapsed (h : sHdrEdge s tx = .next t) : t.ElapsedUpdated s.fsm s.elapsed := by
  refine .offer h fun v hv => ?_
  cases hv
  exact .untimed rfl rfl

/-- S_PAY's last accepted byte enters S_ACK (41_send.md R173). -/
theorem sPayEdge_elapsed (hf : s.fsm = .sPay) (h : sPayEdge s tx = .next t) : t.ElapsedUpdated s.fsm s.elapsed := by
  rw [sPayEdge] at h
  split at h
  next =>
    refine .offer h fun v hv => ?_
    split at hv <;> cases hv
    · exact .enter rfl (by simp [hf]) rfl
    · exact .stay rfl rfl
  next => cases h

theorem sAckEdge_elapsed (h : sAckEdge s rx tick = .next t) :
    t.ElapsedUpdated s.fsm (countTick s.elapsed tick) := by
  refine .timed h fun b v hv => ?_
  split at hv
  next => exact State.ElapsedUpdated.advance (s := s.ticked tick) hv fun _ _ => .enterSend
  next =>
    cases hv
    exact .untimed rfl rfl

/-- R_HDR's header enters R_PAY, a timed read again, unless it ends the command or starts the discard (42_receive.md R204). -/
theorem rHdrEdge_elapsed (hf : s.fsm = .rHdr) (h : rHdrEdge s rx tick = .next t) :
    t.ElapsedUpdated s.fsm (countTick s.elapsed tick) := by
  refine .timed h fun b v hv => ?_
  dsimp only at hv
  split at hv
  next =>
    cases hv
    exact .untimed rfl rfl
  next =>
    split at hv <;> cases hv
    · exact .untimed rfl rfl
    · exact .enter rfl (by simp [hf]) rfl

/-- One deadline covers the whole payload: a byte in R_PAY does not restart ELAPSED (43_timed_read.md R247). -/
theorem rPayEdge_elapsed (h : rPayEdge s rx tick = .next t) :
    t.ElapsedUpdated s.fsm (countTick s.elapsed tick) := by
  refine .timed h fun b v hv => ?_
  dsimp only at hv
  split at hv
  next =>
    split at hv <;> cases hv
    · exact .untimed rfl rfl
    · exact .stay rfl rfl
  next => cases hv

theorem rChkEdge_elapsed (h : rChkEdge s = .next t) : t.ElapsedUpdated s.fsm s.elapsed := by
  rw [rChkEdge] at h
  split at h
  next => split at h <;> cases h <;> exact .untimed rfl rfl
  next => cases h

theorem rAckEdge_elapsed (hf : s.fsm = .rAck) (h : rAckEdge s tx = .next t) : t.ElapsedUpdated s.fsm s.elapsed :=
  .offer h fun _ hv => .advance hv fun _ _ => .enterReceive (by simp [hf])

theorem rFlushEdge_elapsed (h : rFlushEdge s rx = .next t) : t.ElapsedUpdated s.fsm s.elapsed := by
  cases rx <;> cases h
  case data => exact .stay rfl rfl
  all_goals exact .untimed rfl rfl

end Edges

/-- ELAPSED after a cycle that enters no timed read: the tick counts inside one only (43_timed_read.md R241). -/
def State.elapsedAfter (s : State) (tick : Bool) : Elapsed :=
  if s.fsm.timed = true then countTick s.elapsed tick else s.elapsed

/-- The engine's half of an edge updates ELAPSED as R241 says, in every FSM state (43_timed_read.md R241). -/
theorem engineEdge_elapsed {s t : State} {x : CycleInput} (h : engineEdge s x = .next t) :
    t.ElapsedUpdated s.fsm (s.elapsedAfter x.tick) := by
  rw [State.elapsedAfter]
  cases hf : s.fsm
  case idle =>
    cases (engineEdge_idle _ _ hf).symm.trans h
    exact .stay hf rfl
  case sHdr =>
    simpa [hf, FsmState.timed_iff] using sHdrEdge_elapsed ((engineEdge_sHdr _ _ hf).symm.trans h)
  case sPay =>
    simpa [hf, FsmState.timed_iff] using sPayEdge_elapsed hf ((engineEdge_sPay _ _ hf).symm.trans h)
  case sAck =>
    simpa [hf, FsmState.timed_iff] using sAckEdge_elapsed ((engineEdge_sAck _ _ hf).symm.trans h)
  case rHdr =>
    simpa [hf, FsmState.timed_iff] using rHdrEdge_elapsed hf ((engineEdge_rHdr _ _ hf).symm.trans h)
  case rPay =>
    simpa [hf, FsmState.timed_iff] using rPayEdge_elapsed ((engineEdge_rPay _ _ hf).symm.trans h)
  case rChk =>
    simpa [hf, FsmState.timed_iff] using rChkEdge_elapsed ((engineEdge_rChk _ _ hf).symm.trans h)
  case rAck =>
    simpa [hf, FsmState.timed_iff] using rAckEdge_elapsed hf ((engineEdge_rAck _ _ hf).symm.trans h)
  case rFlush =>
    simpa [hf, FsmState.timed_iff] using rFlushEdge_elapsed ((engineEdge_rFlush _ _ hf).symm.trans h)

/-! ## The host's half of an edge in IDLE -/

/-- Of the commands only RECEIVE enters a timed read (42_receive.md R200). -/
theorem exec_elapsed {i : Instr} {s t : State} (hf : s.fsm = .idle) (h : exec i s = .next t) :
    t.ElapsedUpdated .idle s.elapsed := by
  have hb : s.busy = false := s.not_busy_iff.2 hf
  cases i
  case checksum =>
    rw [exec_checksum, execChecksum, acceptCommand_of_not_busy hb] at h
    dsimp only at h
    split at h <;> cases h <;> exact .stay hf rfl
  case encodeHeader =>
    rw [exec_encodeHeader, execEncodeHeader, acceptCommand_of_not_busy hb] at h
    dsimp only at h
    split at h <;> cases h <;> exact .stay hf rfl
  case decodeHeader =>
    rw [exec_decodeHeader, execDecodeHeader, acceptCommand_of_not_busy hb] at h
    cases h
    exact .stay hf rfl
  case send =>
    rw [exec_send_of_not_busy hb] at h
    exact State.ElapsedUpdated.start (s := { s with done := false }) hf h fun _ _ => .enterSend
  case receive =>
    rw [exec_receive_of_not_busy hb] at h
    exact State.ElapsedUpdated.start (s := { s with done := false }) hf h fun _ _ => .enterReceive (by simp)
  case illegalOp0 | illegalOp6to7 | illegalOp8toF =>
    cases (illegalCommand_of_not_busy hb).symm.trans h
    exact .stay hf rfl

/-- Of the host's accesses only a command can start a timed read. -/
theorem hostEdge_elapsed {a : HostAccess} {s t : State} (hf : s.fsm = .idle) (h : hostEdge s a = .next t) :
    t.ElapsedUpdated .idle s.elapsed := by
  cases a with
  | quiet | read => cases h; exact .stay hf rfl
  | write off n v =>
    rw [hostEdge] at h
    split at h
    next r _ =>
      cases r
      case cmd => exact exec_elapsed hf h
      all_goals cases h; exact .stay hf rfl
    next =>
      cases h
      rw [writeBuffer, if_neg (by simp [State.busy, hf]), State.writeBytes_eq]
      exact .stay hf rfl
    next => cases h; exact .stay hf rfl

/-! ## The step -/

/-- Every step without reset updates ELAPSED as R241 says: in IDLE by the host's half of the edge, else by the engine's. -/
theorem step_elapsed {s t : State} (hr : s.nextInput.rst = false) (h : step s = .next t) :
    t.ElapsedUpdated s.fsm (s.elapsedAfter s.nextInput.tick) := by
  by_cases hf : s.fsm = .idle
  case pos =>
    have hsame : s.elapsedAfter s.nextInput.tick = s.elapsed := if_neg (by simp [hf, FsmState.timed_iff])
    rw [step_idle s hf hr] at h
    rw [hsame, hf]
    exact hostEdge_elapsed (s := s.sampled) hf h
  case neg =>
    obtain ⟨u, hstep, hengine, -⟩ := step_busy_engine s hf hr
    have hfsm : u.fsm = s.fsm := congrArg EngineView.fsm hengine
    have helapsed : u.elapsed = s.elapsed := congrArg EngineView.elapsed hengine
    have hupdate := engineEdge_elapsed (hstep.symm.trans h)
    rwa [State.elapsedAfter, hfsm, helapsed] at hupdate

/-- Settles O48: every step leaves in ELAPSED what R241 says, here in numbers. -/
theorem elapsedUpdate : Obligations.ElapsedUpdate := by
  intro s t hr h
  have hupdate : t.elapsed = _ := step_elapsed hr h
  rw [hupdate, State.elapsedAfter, apply_ite BitVec.toNat, apply_ite BitVec.toNat, countTick_toNat]
  rfl

end Sys2Proof.Machine
end

section
/-!
A cycle with `rst` = 1 (70_reset_and_hazards.md R300): what it shows on the pins and answers on the bus, what its edge loads, and
O18.
-/
namespace Sys2Proof.Machine

/-! ## The outputs while `rst` = 1 -/

/-- The stream takes no byte while `rst` = 1, because `tx_valid` is 0. -/
theorem sentByte_of_rst (s : State) {x : CycleInput} (hr : x.rst = true) : sentByte s x = none := by
  simp [sentByte, hr]

/-- FTBC takes no byte from the stream while `rst` = 1, because `rx_rd` is 0. -/
theorem consumedByte_of_rst (s : State) {x : CycleInput} (hr : x.rst = true) : consumedByte s x = none := by
  simp [consumedByte, hr]

/-- A read under reset is answered with 0 and no error, whatever it names. -/
theorem busResponse_read_of_rst (s : State) (off : Word) (n : AccessSize) :
    busResponse s true (.read off n) = .readData 0 := rfl

/-- A write under reset is answered as a read is, whatever it names. -/
theorem busResponse_write_of_rst (s : State) (off : Word) (n : AccessSize) (v : Word) :
    busResponse s true (.write off n v) = .readData 0 := rfl

/-- `rst` = 1 forces the stream's strobes and the interrupt to 0, so no stream byte moves. -/
theorem cycleOutput_of_rst (s : State) {x : CycleInput} (hr : x.rst = true) :
    cycleOutput s x =
      { txValid := false, txData := s.txData, rxRd := false, irq := false, bus := busResponse s true x.access
        sent := none, consumed := none } := by
  simp [cycleOutput, hr, sentByte_of_rst s hr, consumedByte_of_rst s hr]

/-! ## The reset edge -/

/-- The engine is IDLE after a reset edge, so a command in flight is gone (70_reset_and_hazards.md R302). -/
@[simp] theorem State.resetEdge_busy (s : State) : s.resetEdge.busy = false :=
  s.resetEdge.not_busy_iff.2 s.resetEdge_fsm

/-- The reset edge keeps the record of its cycle's outputs, which are the forced ones. -/
theorem State.resetEdge_sampled_out {s : State} (hr : s.nextInput.rst = true) :
    s.sampled.resetEdge.out =
      { txValid := false, txData := s.txData, rxRd := false, irq := false
        bus := busResponse s true s.nextInput.access, sent := none, consumed := none } := by
  rw [State.resetEdge_out, State.sampled_out, cycleOutput_of_rst s hr]

/-- Settles O18: the step is the reset edge, whatever the host's access is; it loads the reset values and records the forced
outputs. -/
theorem resetCycle : Obligations.ResetCycle := by
  intro s hr
  have hout := State.resetEdge_sampled_out hr
  refine ⟨s.sampled.resetEdge, step_reset s hr, by simp, ?_⟩
  rw [hout]
  refine ⟨rfl, rfl, rfl, rfl, rfl, fun off n hread => ?_, fun off n v hwrite => ?_, State.resetEdge_busy _⟩
  · simpa only [hread] using busResponse_read_of_rst s off n
  · simpa only [hwrite] using busResponse_write_of_rst s off n v

end Sys2Proof.Machine
end

section
/-!
The command word (30_encoding.md R113): decoding and encoding meet in OP, the low four bits of the word, so what holds of every
word is checked on the 16 values of OP. O1, O2 and O3.
-/
namespace Sys2Proof

/-! ## OP, the part of a word that counts -/

/-- OP of a word that is an opcode with zeros above it. -/
@[simp] theorem cmdOp_setWidth (op : Nibble) : cmdOp (op.setWidth 32) = op := by
  revert op; decide

/-- OP with zeros above it is the word's low four bits. -/
theorem setWidth_cmdOp (w : Word) : (cmdOp w).setWidth 32 = w &&& 0x0000000F := by
  refine BitVec.eq_of_toNat_eq ?_
  calc ((cmdOp w).setWidth 32).toNat
    _ = w.toNat % 2 ^ 4 := by simp [cmdOp]; omega
    _ = (w &&& 0x0000000F).toNat := (Nat.and_two_pow_sub_one_eq_mod w.toNat 4).symm

/-- A row's mask looks at OP alone (spec/opcode_table.json). -/
theorem and_tableMask (w : Word) (i : Instr) : w &&& tableMask i = (cmdOp w).setWidth 32 &&& tableMask i := by
  have hmask : tableMask i = 0x0000000F &&& tableMask i := by cases i <;> simp [tableMask]
  rw [setWidth_cmdOp, BitVec.and_assoc, ← hmask]

/-! ## The decoder and the encoder on the opcodes -/

theorem decodeOp_wf (op : Nibble) : (decodeOp op).wf = true := by
  revert op; decide

theorem encodeOp_decodeOp (op : Nibble) : encodeOp (decodeOp op) = op := by
  revert op; decide

theorem decodeOp_encodeOp {i : Instr} (h : i.wf = true) : decodeOp (encodeOp i) = i := by
  cases i
  case illegalOp6to7 op => revert op; decide
  case illegalOp8toF op => revert op; decide
  all_goals rfl

/-- The table's rows share no opcode: a row that an opcode matches is the row of its command (30_encoding.md R113). -/
theorem tableRow_unique (op : Nibble) (i : Instr) (h : op.setWidth 32 &&& tableMask i = tableMatch i) :
    tableMask (decodeOp op) = tableMask i ∧ tableMatch (decodeOp op) = tableMatch i := by
  cases i <;> revert op <;> simp only [tableMask, tableMatch] <;> decide

/-! ## The decoder and the encoder on words -/

/-- A word's command encodes to OP with zeros above it (30_encoding.md R113, log entry 12). -/
theorem encode_decode (w : Word) : encode (decode w) = (cmdOp w).setWidth 32 := by
  rw [encode, decode, encodeOp_decodeOp]

/-- A well-formed command's word matches its row (spec/opcode_table.json). -/
theorem encode_matches_row {i : Instr} (h : i.wf = true) : encode i &&& tableMask i = tableMatch i := by
  have hrow : Laws.EncodingMatchesTable.Statement i := by
    cases i
    case checksum => exact Laws.EncodingMatchesTable.checksum
    case encodeHeader => exact Laws.EncodingMatchesTable.encodeHeader
    case decodeHeader => exact Laws.EncodingMatchesTable.decodeHeader
    case send => exact Laws.EncodingMatchesTable.send
    case receive => exact Laws.EncodingMatchesTable.receive
    case illegalOp0 => exact Laws.EncodingMatchesTable.illegalOp0
    case illegalOp6to7 op => exact Laws.EncodingMatchesTable.illegalOp6to7 op
    case illegalOp8toF op => exact Laws.EncodingMatchesTable.illegalOp8toF op
  obtain ⟨hmatch, -⟩ := hrow h
  exact hmatch

/-- Settles O1: decoding reads OP and encoding writes it back, so each clause is one about the opcodes. -/
theorem decodeEncodeAgree : Obligations.DecodeEncodeAgree := by
  refine ⟨fun i hwf => ?_, fun w => ⟨decodeOp_wf _, ?_⟩, fun v w hlow => ?_⟩
  · rw [decode, encode, cmdOp_setWidth, decodeOp_encodeOp hwf]
  · rw [encode_decode, setWidth_cmdOp]
  · have hop : cmdOp v = cmdOp w := by
      rw [← cmdOp_setWidth (cmdOp v), setWidth_cmdOp, hlow, ← setWidth_cmdOp, cmdOp_setWidth]
    rw [decode, hop, decode]

/-- Settles O2: a word's command matches its own row because OP does, and no other row has that OP. -/
theorem opcodeRowsTotalAndDisjoint : Obligations.OpcodeRowsTotalAndDisjoint := by
  refine ⟨fun w => ?_, fun w i h => ?_⟩
  · rw [and_tableMask, ← encode_decode]
    exact encode_matches_row (decodeOp_wf _)
  · rw [and_tableMask] at h
    exact tableRow_unique _ i h

/-- Settles O3: each of the words decodes by evaluation. -/
theorem opcodeWordsDecode : Obligations.OpcodeWordsDecode := by
  unfold Obligations.OpcodeWordsDecode
  decide

end Sys2Proof
end

section
/-!
The invariant (10_state.md R56, 70_reset_and_hazards.md R314): from a state that meets it every edge answers a next state that meets
it, and an edge that ends a command leaves RESULT, POS and BUF as 60_exceptions.md section 2 says. O52, O53 and O54.
-/
namespace Sys2Proof.Machine

/-! ## The invariant, by FSM state -/

/-- What the invariant says of the registers of a running command, whatever the FSM state (10_state.md R56). -/
def State.Running (s : State) : Prop :=
  1 ≤ s.bsize.toNat ∧ s.bsize.toNat ≤ Config.maxBlock ∧ s.pos.toNat < s.len.toNat ∧ s.len.toNat ≤ s.bufBytes ∧
    s.bsize.toNat = min Config.maxBlock (s.len.toNat - s.pos.toNat) ∧ s.err = .noError ∧ s.result = 0 ∧ s.done = false

/-- What the invariant says of the block that is received (10_state.md R56). -/
def State.BlockRead (s : State) : Prop :=
  1 ≤ s.rsize.toNat ∧ s.rsize.toNat ≤ s.bsize.toNat ∧ headerFirst s.hdr = s.first ∧
    (headerSizeCode s.hdr).toNat = s.rsize.toNat - 1

/-- What the invariant says of the header of the block that is sent (10_state.md R56). -/
def State.HeaderPacked (s : State) : Prop :=
  enc (s.bufBlock s.pos.toNat s.bsize.toNat) s.bsize.toNat s.first = some s.hdr

section Intro
variable {s : State} (hbuf : s.bufferOk)
include hbuf

/-- In IDLE the invariant is about the buffer alone. -/
theorem State.Inv.ofIdle (hf : s.fsm = .idle) : s.Inv :=
  ⟨hbuf, fun h => absurd hf h, ⟨by simp [hf], by simp [hf]⟩, by simp [hf], by simp [hf]⟩

theorem State.Inv.ofSending (hrun : s.Running) (hf : s.fsm = .sHdr ∨ s.fsm = .sPay ∨ s.fsm = .sAck) (hhdr : s.HeaderPacked)
    (hk : s.fsm = .sPay → s.k.toNat < s.bsize.toNat) : s.Inv := by
  refine ⟨hbuf, fun _ => hrun, ⟨fun _ => hhdr, hk⟩, ?_, ?_⟩ <;> obtain hf | hf | hf := hf <;> simp [hf]

theorem State.Inv.ofReceiving (hrun : s.Running) (hf : s.fsm = .rPay ∨ s.fsm = .rChk ∨ s.fsm = .rAck) (hblock : s.BlockRead)
    (hk : s.fsm = .rPay → s.k.toNat < s.rsize.toNat) : s.Inv := by
  refine ⟨hbuf, fun _ => hrun, ⟨?_, ?_⟩, fun _ => hblock, hk⟩ <;> obtain hf | hf | hf := hf <;> simp [hf]

/-- In R_HDR and R_FLUSH there is no block yet. -/
theorem State.Inv.ofWaiting (hrun : s.Running) (hf : s.fsm = .rHdr ∨ s.fsm = .rFlush) : s.Inv := by
  refine ⟨hbuf, fun _ => hrun, ⟨?_, ?_⟩, ?_, ?_⟩ <;> obtain hf | hf := hf <;> simp [hf]

end Intro

section Elim
variable {s : State} (hinv : s.Inv)
include hinv

theorem State.Inv.bufferOk : s.bufferOk := by
  obtain ⟨hbuf, -⟩ := hinv
  exact hbuf

theorem State.Inv.running (hf : s.fsm ≠ .idle) : s.Running := by
  obtain ⟨-, htransfer, -⟩ := hinv
  exact htransfer hf

theorem State.Inv.headerPacked (hf : s.fsm = .sHdr ∨ s.fsm = .sPay ∨ s.fsm = .sAck) : s.HeaderPacked := by
  obtain ⟨-, -, ⟨hhdr, -⟩, -⟩ := hinv
  exact hhdr hf

theorem State.Inv.blockRead (hf : s.fsm = .rPay ∨ s.fsm = .rChk ∨ s.fsm = .rAck) : s.BlockRead := by
  obtain ⟨-, -, -, hblock, -⟩ := hinv
  exact hblock hf

theorem State.Inv.k_lt_rsize (hf : s.fsm = .rPay) : s.k.toNat < s.rsize.toNat := by
  obtain ⟨-, -, -, -, hk⟩ := hinv
  exact hk hf

end Elim

/-- The invariant is about the engine's view and DONE. -/
theorem State.Inv.ofEngine {s u : State} (hinv : s.Inv) (hengine : u.engine = s.engine) (hdone : u.done = s.done) : u.Inv := by
  rw [State.eq_setRest hengine, hdone]
  exact hinv

/-! ## How an edge from a state of the invariant ends -/

/-- An ending with NONE leaves RESULT and POS at LEN; one with an error code leaves RESULT below LEN, and POS and BUF as they were
(60_exceptions.md R262). -/
def State.EndsWell (s t : State) : Prop :=
  t.fsm = .idle →
    (t.err = .noError ∧ t.result = s.len ∧ t.pos = s.len) ∨
      (t.err ≠ .noError ∧ t.result.toNat < s.len.toNat ∧ t.pos = s.pos ∧ t.buf = s.buf)

/-- This half edge of a cycle from s answers a next state that meets the invariant, and ends as `EndsWell` says if it ends. -/
def State.StepsSafely (s : State) (r : Result) : Prop := ∃ t, r = .next t ∧ t.Inv ∧ s.EndsWell t

section StepsSafely
variable {s u : State}

theorem State.StepsSafely.goOn {t : State} (hinv : t.Inv) (hf : t.fsm ≠ .idle) : s.StepsSafely (.next t) :=
  ⟨t, rfl, hinv, fun hidle => absurd hidle hf⟩

/-- An abort is safe where its result is below LEN. -/
theorem State.StepsSafely.abort {c : ErrCode} {r : Word} (hinv : s.Inv) (hc : c ≠ .noError) (hr : r.toNat < s.len.toNat) :
    s.StepsSafely (.next (s.abort c r)) :=
  ⟨_, rfl, .ofIdle (s := s.abort c r) hinv.bufferOk rfl, fun _ => .inr ⟨hc, hr, rfl, rfl⟩⟩

/-- An offered byte is safe where its acceptance is. -/
theorem State.StepsSafely.offer {tx : TxResp} {r : Word} {acc : Result} (hinv : s.Inv) (hf : s.fsm ≠ .idle)
    (hr : r.toNat < s.len.toNat) (hacc : s.StepsSafely acc) : s.StepsSafely (offerByte s tx r acc) := by
  cases tx
  case accept => exact hacc
  case wait => exact .goOn hinv hf
  all_goals exact .abort hinv (by simp) hr

/-- A cycle of a timed read is safe where what takes the byte is. -/
theorem State.StepsSafely.timed {rx : RxResp} {tick : Bool} {r : Word} {took : Byte → State → Result} (hinv : s.Inv)
    (hf : s.fsm ≠ .idle) (hr : r.toNat < s.len.toNat) (htook : ∀ b, s.StepsSafely (took b (s.ticked tick))) :
    s.StepsSafely (timedRead s rx tick r took) := by
  have hticked : (s.ticked tick).Inv := hinv
  cases rx
  case data b => exact htook b
  case noData =>
    rw [timedRead]
    split
    · exact State.StepsSafely.abort hticked (by simp) hr
    · exact .goOn hticked hf
  all_goals exact State.StepsSafely.abort hticked (by simp) hr

/-- The entry to S_HDR is safe where the block's place and size are those of a running command. -/
theorem State.StepsSafely.enterSend (hbuf : u.bufferOk) (hrun : u.Running) : s.StepsSafely (enterSendBlock u) := by
  have ⟨h1, h8, hpos, hlen, hbsize, _⟩ := hrun
  rw [Config.maxBlock_eq] at h8 hbsize
  rw [enterSendBlock_next u (by omega)]
  exact .goOn (.ofSending hbuf hrun (.inl rfl) (enc_eq_some _ _ _ h1 h8) (by simp)) (by simp)

/-- The entry to R_HDR is safe in a running command. -/
theorem State.StepsSafely.enterReceive (hbuf : u.bufferOk) (hrun : u.Running) : s.StepsSafely (enterReceiveBlock u) :=
  .goOn (.ofWaiting hbuf hrun (.inl rfl)) (by simp)

/-- A block advance by a part of the current block is safe where what it goes on with is: POS stays below LEN unless the command
finishes, and BSIZE is computed anew (41_send.md R177, 42_receive.md R212). -/
theorem State.StepsSafely.advance {size : Nibble} {go : State → Result} (hbuf : s.bufferOk) (hrun : s.Running)
    (hsize : size.toNat ≤ s.bsize.toNat) (hgo : ∀ v : State, v.bufferOk → v.Running → s.StepsSafely (go v)) :
    s.StepsSafely (advanceBlock s size go) := by
  obtain ⟨-, -, hpos, hlen, hbsize, hended⟩ := hrun
  have hle : s.pos.toNat + size.toNat ≤ s.len.toNat := by omega
  obtain hlast | hmore := hle.eq_or_lt
  · rw [advanceBlock_of_eq_len hlast]
    exact ⟨_, rfl, .ofIdle hbuf rfl, fun _ => .inl ⟨rfl, rfl, rfl⟩⟩
  · rw [advanceBlock_of_lt_len hmore]
    have hp : (BitVec.ofNat 32 (s.pos.toNat + size.toNat)).toNat = s.pos.toNat + size.toNat :=
      (BitVec.toNat_ofNat ..).trans (Nat.mod_eq_of_lt (hmore.trans s.len.isLt))
    have hn : (BitVec.ofNat 4 (min 8 (s.len.toNat - (s.pos.toNat + size.toNat)))).toNat =
        min 8 (s.len.toNat - (s.pos.toNat + size.toNat)) :=
      (BitVec.toNat_ofNat ..).trans (Nat.mod_eq_of_lt (by omega))
    refine hgo _ hbuf ?_
    unfold State.Running
    dsimp only
    rw [hn, hp, Config.maxBlock_eq]
    exact ⟨by omega, by omega, hmore, hlen, rfl, hended⟩

end StepsSafely

/-! ## The edge of each FSM state -/

/-- rxfail is below LEN while a command runs: it is POS or 0 (42_receive.md R215). -/
theorem State.Running.rxfail_lt {s : State} (hrun : s.Running) : s.rxfail.toNat < s.len.toNat := by
  obtain ⟨-, -, hpos, -⟩ := hrun
  unfold State.rxfail
  split
  · exact hpos
  · exact Nat.zero_lt_of_lt hpos

/-- The read size is the size code plus 1, so from 1 to 8 (30_encoding.md R117). -/
theorem readSize_toNat (h : Byte) : (readSize h).toNat = (headerSizeCode h).toNat + 1 := by
  have := (headerSizeCode h).isLt
  simp [readSize]
  omega

section Edges
variable {s : State} {tx : TxResp} {rx : RxResp} {tick : Bool} (hinv : s.Inv)
include hinv

theorem sHdrEdge_safe (hf : s.fsm = .sHdr) : s.StepsSafely (sHdrEdge s tx) := by
  have hbusy : s.fsm ≠ .idle := by simp [hf]
  have hrun := hinv.running hbusy
  have ⟨h1, _, hpos, _⟩ := hrun
  refine .offer hinv hbusy hpos (.goOn ?_ (by simp))
  exact .ofSending hinv.bufferOk hrun (.inr (.inl rfl)) (hinv.headerPacked (.inl hf)) fun _ => h1

theorem sPayEdge_safe (hf : s.fsm = .sPay) : s.StepsSafely (sPayEdge s tx) := by
  have hbusy : s.fsm ≠ .idle := by simp [hf]
  have hk := hinv.k_lt_bsize hf
  have hhdr := hinv.headerPacked (.inr (.inl hf))
  obtain ⟨hblock, hlen⟩ := hinv.block_bounds hbusy
  have hresult : (BitVec.ofNat 32 (s.pos.toNat + s.k.toNat)).toNat < s.len.toNat :=
    (Nat.mod_le ..).trans_lt (by omega)
  rw [sPayEdge_eq_offerByte (by omega) hk]
  refine .offer hinv hbusy hresult ?_
  rw [State.payloadSent]
  split
  case isTrue => exact .goOn (.ofSending hinv.bufferOk (hinv.running hbusy) (.inr (.inr rfl)) hhdr (by simp)) (by simp)
  case isFalse hnext =>
    have hcount : (BitVec.ofNat 4 (s.k.toNat + 1)).toNat < s.bsize.toNat := (Nat.mod_le ..).trans_lt (by omega)
    exact .goOn (.ofSending hinv.bufferOk (hinv.running hbusy) (.inr (.inl hf)) hhdr fun _ => hcount) hbusy

theorem sAckEdge_safe (hf : s.fsm = .sAck) : s.StepsSafely (sAckEdge s rx tick) := by
  have hbusy : s.fsm ≠ .idle := by simp [hf]
  have hrun := hinv.running hbusy
  have ⟨_, _, hpos, _⟩ := hrun
  have hticked : (s.ticked tick).Inv := hinv
  refine .timed hinv hbusy hpos fun b => ?_
  split
  · exact State.StepsSafely.advance (s := s.ticked tick) hticked.bufferOk hrun le_rfl fun _ => .enterSend
  · exact State.StepsSafely.abort hticked (by simp) hpos

/-- A header byte that passes both checks describes a block that fits (42_receive.md R202 to R204). -/
theorem rHdrEdge_safe (hf : s.fsm = .rHdr) : s.StepsSafely (rHdrEdge s rx tick) := by
  have hbusy : s.fsm ≠ .idle := by simp [hf]
  have hrun := hinv.running hbusy
  refine .timed hinv hbusy hrun.rxfail_lt fun b => ?_
  have hread : ({ s.ticked tick with hdr := b, rsize := readSize b } : State).Inv :=
    .ofWaiting hinv.bufferOk hrun (.inl hf)
  have hcode := readSize_toNat b
  dsimp only
  split
  case isTrue => exact State.StepsSafely.abort hread (by simp) hrun.rxfail_lt
  case isFalse hfits =>
    have hfits : (readSize b).toNat ≤ s.bsize.toNat := Nat.le_of_not_lt hfits
    split
    case isTrue => exact .goOn (.ofWaiting hinv.bufferOk hrun (.inr rfl)) (by simp)
    case isFalse hfirst =>
      have hfirst : headerFirst b = s.first := not_not.1 hfirst
      have hpos : 1 ≤ (readSize b).toNat := by omega
      exact .goOn (.ofReceiving hinv.bufferOk hrun (.inl rfl) ⟨hpos, hfits, hfirst, by dsimp only; omega⟩ fun _ => hpos)
        (by simp)

/-- A byte stored below LEN lies in BUF, and the buffer keeps its form (42_receive.md R206). -/
theorem rPayEdge_safe (hf : s.fsm = .rPay) : s.StepsSafely (rPayEdge s rx tick) := by
  have hbusy : s.fsm ≠ .idle := by simp [hf]
  have hrun := hinv.running hbusy
  have hblock := hinv.blockRead (.inl hf)
  have hk := hinv.k_lt_rsize hf
  obtain ⟨hmin, hmax, hwf, hbound⟩ := hinv.bufferOk
  obtain ⟨hin, hlen⟩ := hinv.block_bounds hbusy
  have ⟨_, hle, _⟩ := hblock
  have hi : s.pos.toNat + s.k.toNat < s.bufBytes := by omega
  refine .timed hinv hbusy hrun.rxfail_lt fun b => ?_
  have hbuf : ((s.ticked tick).writeByte (s.pos.toNat + s.k.toNat) b).bufferOk :=
    ⟨hmin, hmax, Memory.wf_write hwf _ _, (s.ticked tick).bound_writeBytes _ _ [b] hbound hi⟩
  obtain ⟨hsucc, hlast⟩ := succ_nibble hk
  refine (congrArg s.StepsSafely (if_pos hi)).mpr ?_
  dsimp only
  split
  case isTrue => exact .goOn (.ofReceiving hbuf hrun (.inr (.inl rfl)) hblock (by simp)) (by simp)
  case isFalse hnext =>
    have hne := mt hlast.2 hnext
    have hcount : (s.k + 1).toNat < s.rsize.toNat := by omega
    exact .goOn (.ofReceiving hbuf hrun (.inl hf) hblock fun _ => hcount) hbusy

theorem rChkEdge_safe (hf : s.fsm = .rChk) : s.StepsSafely (rChkEdge s) := by
  have hbusy : s.fsm ≠ .idle := by simp [hf]
  have hrun := hinv.running hbusy
  have hblock := hinv.blockRead (.inr (.inl hf))
  obtain ⟨hin, hlen⟩ := hinv.block_bounds hbusy
  have ⟨_, hle, _⟩ := hblock
  have hi : s.pos.toNat + s.rsize.toNat ≤ s.bufBytes := by omega
  refine (congrArg s.StepsSafely (if_pos hi)).mpr ?_
  split
  · exact .goOn (.ofReceiving hinv.bufferOk hrun (.inr (.inr rfl)) hblock (by simp)) (by simp)
  · exact .abort hinv (by simp) hrun.rxfail_lt

theorem rAckEdge_safe (hf : s.fsm = .rAck) : s.StepsSafely (rAckEdge s tx) := by
  have hbusy : s.fsm ≠ .idle := by simp [hf]
  have hrun := hinv.running hbusy
  have ⟨_, _, hpos, _⟩ := hrun
  exact .offer hinv hbusy hpos (.advance hinv.bufferOk hrun (hinv.rsize_le_bsize hf) fun _ => .enterReceive)

theorem rFlushEdge_safe (hf : s.fsm = .rFlush) : s.StepsSafely (rFlushEdge s rx) := by
  have hbusy : s.fsm ≠ .idle := by simp [hf]
  have hrun := hinv.running hbusy
  cases rx
  case data => exact .goOn hinv hbusy
  all_goals exact .abort hinv (by simp) hrun.rxfail_lt

end Edges

/-- The engine's half of an edge is safe in every FSM state of a running command. -/
theorem engineEdge_safe {s : State} (x : CycleInput) (hinv : s.Inv) (hbusy : s.fsm ≠ .idle) :
    s.StepsSafely (engineEdge s x) := by
  cases hf : s.fsm
  case idle => exact absurd hf hbusy
  case sHdr => exact engineEdge_sHdr s x hf ▸ sHdrEdge_safe hinv hf
  case sPay => exact engineEdge_sPay s x hf ▸ sPayEdge_safe hinv hf
  case sAck => exact engineEdge_sAck s x hf ▸ sAckEdge_safe hinv hf
  case rHdr => exact engineEdge_rHdr s x hf ▸ rHdrEdge_safe hinv hf
  case rPay => exact engineEdge_rPay s x hf ▸ rPayEdge_safe hinv hf
  case rChk => exact engineEdge_rChk s x hf ▸ rChkEdge_safe hinv hf
  case rAck => exact engineEdge_rAck s x hf ▸ rAckEdge_safe hinv hf
  case rFlush => exact engineEdge_rFlush s x hf ▸ rFlushEdge_safe hinv hf

/-! ## The host's half of an edge in IDLE -/

/-- A word that is not 0 is at least 1 as a number. -/
theorem one_le_toNat {n : Word} (h : n ≠ 0) : 1 ≤ n.toNat :=
  Nat.one_le_iff_ne_zero.2 fun h0 => h (BitVec.eq_of_toNat_eq h0)

/-- BSIZE of the first block (41_send.md R170, 42_receive.md R200). -/
theorem firstBlock_toNat (n : Nat) : (BitVec.ofNat 4 (min 8 n)).toNat = min 8 n :=
  (BitVec.toNat_ofNat ..).trans (Nat.mod_eq_of_lt (by omega))

/-- A command accepted in IDLE answers a next state that meets the invariant: a transfer that starts has its first block in BUF, and
every other command stays in IDLE. -/
theorem exec_safe {s : State} (i : Instr) (hbuf : s.bufferOk) (hf : s.fsm = .idle) : ∃ t, exec i s = .next t ∧ t.Inv := by
  have hb : s.busy = false := s.not_busy_iff.2 hf
  obtain ⟨hillegal0, hillegal6, hillegal8⟩ := reservedOpcodeResult s hb
  cases i
  case checksum =>
    obtain ⟨hinvalid, hvalid⟩ := checksumCommandResult s hb
    by_cases hsize : s.cfgSize.toNat = 0 ∨ 8 < s.cfgSize.toNat
    · exact ⟨_, hinvalid hsize, .ofIdle hbuf hf⟩
    · exact ⟨_, hvalid (by omega) (by omega), .ofIdle hbuf hf⟩
  case encodeHeader =>
    obtain ⟨hinvalid, hvalid⟩ := encodeHeaderCommandResult s hb
    by_cases hsize : s.cfgSize.toNat = 0 ∨ 8 < s.cfgSize.toNat
    · exact ⟨_, hinvalid hsize, .ofIdle hbuf hf⟩
    · obtain ⟨h, -, hexec⟩ := hvalid (by omega) (by omega)
      exact ⟨_, hexec, .ofIdle hbuf hf⟩
  case decodeHeader => exact ⟨_, decodeHeaderCommandResult s hb, .ofIdle hbuf hf⟩
  case send =>
    obtain ⟨hlong, hempty, hfits⟩ := sendCommandStart s hb
    by_cases h : s.bufBytes < s.len.toNat
    · exact ⟨_, hlong h, .ofIdle hbuf hf⟩
    by_cases h0 : s.len = 0
    · exact ⟨_, hempty h0, .ofIdle hbuf hf⟩
    obtain ⟨hdr, henc, hexec⟩ := hfits h0 (by omega)
    have hlen := one_le_toNat h0
    refine ⟨_, hexec, .ofSending hbuf ?_ (.inl rfl) ?_ (by simp)⟩
    · simp only [State.Running, firstBlock_toNat, Config.maxBlock_eq]
      exact ⟨by omega, by omega, hlen, by omega, by simp, by simp⟩
    · simp only [State.HeaderPacked, firstBlock_toNat]
      exact henc
  case receive =>
    obtain ⟨hlong, hempty, hfits⟩ := receiveCommandStart s hb
    by_cases h : s.bufBytes < s.len.toNat
    · exact ⟨_, hlong h, .ofIdle hbuf hf⟩
    by_cases h0 : s.len = 0
    · exact ⟨_, hempty h0, .ofIdle hbuf hf⟩
    have hlen := one_le_toNat h0
    refine ⟨_, hfits h0 (by omega), .ofWaiting hbuf ?_ (.inl rfl)⟩
    simp only [State.Running, firstBlock_toNat, Config.maxBlock_eq]
    exact ⟨by omega, by omega, hlen, by omega, by simp, by simp⟩
  case illegalOp0 => exact ⟨_, hillegal0, .ofIdle hbuf hf⟩
  case illegalOp6to7 op => exact ⟨_, hillegal6 op, .ofIdle hbuf hf⟩
  case illegalOp8toF op => exact ⟨_, hillegal8 op, .ofIdle hbuf hf⟩

/-- The bytes of an access are those it moves (20_memory.md R81). -/
theorem length_take_wordBytes (v : Word) (n : AccessSize) : ((wordBytes v).take (accessBytes n)).length = accessBytes n := by
  cases n <;> rfl

/-- A window write stays inside BUF (20_memory.md R83). -/
theorem State.bufferOk_writeBytes {s : State} {i : Nat} {bs : List Byte} (hbuf : s.bufferOk) (hi : i + bs.length ≤ s.bufBytes) :
    (s.writeBytes i bs).bufferOk := by
  obtain ⟨hmin, hmax, hwf, hbound⟩ := hbuf
  have hbytes : (s.writeBytes i bs).bufBytes = s.bufBytes := by rw [State.writeBytes_eq]
  rw [State.bufferOk, hbytes]
  exact ⟨hmin, hmax, s.wf_writeBytes i bs hwf, s.bound_writeBytes i _ bs hbound hi⟩

/-- The host's half of an edge from IDLE answers a next state that meets the invariant. -/
theorem hostEdge_safe {s : State} (a : HostAccess) (hbuf : s.bufferOk) (hf : s.fsm = .idle) :
    ∃ t, hostEdge s a = .next t ∧ t.Inv := by
  cases a with
  | quiet | read => exact ⟨s, rfl, .ofIdle hbuf hf⟩
  | write off n v =>
    rw [hostEdge]
    split
    next r _ =>
      cases r
      case cmd => exact exec_safe _ hbuf hf
      all_goals exact ⟨_, rfl, .ofIdle hbuf hf⟩
    next i htarget =>
      obtain ⟨-, -, hin⟩ := (busTarget_buffer_iff ..).1 htarget
      refine ⟨_, rfl, .ofIdle ?_ ?_⟩ <;> rw [writeBuffer, if_neg (by simp [State.busy, hf])]
      · exact State.bufferOk_writeBytes hbuf (by rwa [length_take_wordBytes])
      · rw [State.writeBytes_eq]
        exact hf
    next => exact ⟨s, rfl, .ofIdle hbuf hf⟩

/-! ## The step -/

/-- A busy cycle from a state of the invariant is safe: the host's half leaves the engine's registers alone, and DONE is 0. -/
theorem step_busy_safe {s : State} (hinv : s.Inv) (hbusy : s.fsm ≠ .idle) (hr : s.nextInput.rst = false) :
    s.StepsSafely (step s) := by
  obtain ⟨u, hstep, hengine, -, -, hdone, -⟩ := step_busy_engine s hbusy hr
  have hnotDone : s.done = false := by
    obtain ⟨-, -, -, -, -, -, -, hdone⟩ := hinv.running hbusy
    exact hdone
  have huInv : u.Inv := hinv.ofEngine hengine (by simp [hdone, hnotDone])
  obtain ⟨t, hedge, htInv, hends⟩ :=
    engineEdge_safe s.nextInput huInv ((congrArg EngineView.fsm hengine).trans_ne hbusy)
  have hlen : u.len = s.len := congrArg EngineView.len hengine
  have hpos : u.pos = s.pos := congrArg EngineView.pos hengine
  have hbuf : u.buf = s.buf := congrArg EngineView.buf hengine
  refine ⟨t, hstep.trans hedge, htInv, ?_⟩
  rwa [State.EndsWell, hlen, hpos, hbuf] at hends

/-- Settles O54: the edge of a reset, of IDLE and of a running command each answer a next state that meets the invariant. -/
theorem safeStateAlwaysSteps : Obligations.SafeStateAlwaysSteps := by
  intro s hinv
  obtain ⟨hmin, hmax, -⟩ := hinv.bufferOk
  cases hr : s.nextInput.rst
  case true => exact ⟨_, step_reset s hr, .ofIdle ⟨hmin, hmax, rfl, by simp⟩ rfl⟩
  case false =>
    by_cases hf : s.fsm = .idle
    case pos =>
      rw [step_idle s hf hr]
      exact hostEdge_safe _ hinv.bufferOk hf
    case neg =>
      obtain ⟨t, hstep, htInv, -⟩ := step_busy_safe hinv hf hr
      exact ⟨t, hstep, htInv⟩

/-- Settles O53: the one next state a step answers is the one that meets the invariant. -/
theorem stepKeepsInvariant : Obligations.StepKeepsInvariant := by
  intro s t hinv hstep
  obtain ⟨u, hsafe, huInv⟩ := safeStateAlwaysSteps s hinv
  cases hstep.symm.trans hsafe
  exact huInv

/-- Settles O52: every edge ends as `EndsWell` says, and an edge that ends a command sets DONE. -/
theorem commandEndings : Obligations.CommandEndings := by
  intro s t hinv hb hr hstep hidle
  have hbusy := s.busy_iff.1 hb
  obtain ⟨-, -, hlt, -⟩ := hinv.running hbusy
  obtain ⟨u, hsafe, -, hends⟩ := step_busy_safe hinv hbusy hr
  cases hstep.symm.trans hsafe
  obtain ⟨h, hedge, hengine, -⟩ := step_busy_engine s hbusy hr
  obtain ⟨-, -, -, -, hdone⟩ :=
    engineEdge_keeps ((congrArg EngineView.fsm hengine).trans_ne hbusy) (hedge.symm.trans hstep)
  refine ⟨by simp [hdone, hidle], ?_⟩
  obtain ⟨herr, hresult, hpos⟩ | ⟨herr, hresult, hpos, hbuf⟩ := hends hidle
  · exact ⟨by simp [hpos], by rw [hpos]; omega, fun _ => ⟨hresult, hpos⟩, fun hne => absurd herr hne⟩
  · exact ⟨by rw [hpos]; omega, by simp [hpos], fun heq => absurd heq herr, fun _ => ⟨hresult, hpos, hbuf⟩⟩

end Sys2Proof.Machine
end

section
/-!
The checksum (40_codec.md section 3): its register works linearly over XOR and keeps every difference between two messages; its
table; and the header's fields. O5, O6, O7, O9 and O10.
-/
namespace Sys2Proof.Machine

/-! ## The register is linear over XOR -/

/-- One shift is linear in the register and the message bit (40_codec.md R140). -/
theorem crcShift_xor (c d : Nibble) (a b : Bool) : crcShift (c ^^^ d) (a ^^ b) = crcShift c a ^^^ crcShift d b := by
  revert c d a b; decide

/-- One byte is linear in the register and the byte: its eight shifts are. -/
theorem crcByte_xor (c d : Nibble) (a b : Byte) : crcByte (c ^^^ d) (a ^^^ b) = crcByte c a ^^^ crcByte d b := by
  simp only [crcByte, List.foldl, BitVec.getLsbD_xor, crcShift_xor]

/-- A message is linear in the register and its bytes. -/
theorem foldl_crcByte_xor (p q : List Byte) (c d : Nibble) (h : p.length = q.length) :
    (List.zipWith (· ^^^ ·) p q).foldl crcByte (c ^^^ d) = p.foldl crcByte c ^^^ q.foldl crcByte d := by
  induction p generalizing q c d with
  | nil =>
    cases q with
    | nil => rfl
    | cons => simp at h
  | cons a p ih =>
    cases q with
    | nil => simp at h
    | cons b q =>
      rw [List.zipWith_cons_cons, List.foldl_cons, crcByte_xor]
      exact ih q _ _ (Nat.succ.inj h)

/-- Settles O5: the register starts at 0, which is 0 XOR 0, and each byte is linear. -/
theorem crcIsLinear : Obligations.CrcIsLinear := by
  intro p q n h
  rw [crc4, List.take_zipWith]
  exact foldl_crcByte_xor _ _ 0 0 (by simp [h])

/-! ## The register loses nothing -/

/-- A zero byte clears no register but the one that is clear. -/
theorem crcByte_zero_eq_zero (c : Nibble) (h : crcByte c 0 = 0) : c = 0 := by
  revert c; decide

/-- Registers that differ still differ after the same byte. -/
theorem crcByte_injective (b : Byte) : Function.Injective (crcByte · b) := by
  intro c d h
  have hzero : crcByte (c ^^^ d) (b ^^^ b) = 0 := by
    rw [crcByte_xor]
    exact BitVec.xor_eq_zero_iff.2 h
  rw [BitVec.xor_self] at hzero
  exact BitVec.xor_eq_zero_iff.1 (crcByte_zero_eq_zero _ hzero)

/-- Registers that differ still differ after the same bytes. -/
theorem foldl_crcByte_injective (l : List Byte) : Function.Injective fun c => l.foldl crcByte c := by
  induction l with
  | nil => exact Function.injective_id
  | cons b l ih => exact ih.comp (crcByte_injective b)

/-- A byte with one bit changed leaves another register. -/
theorem crcByte_flip_ne (c : Nibble) (b : Byte) {j : Nat} (hj : j < 8) :
    crcByte c (b ^^^ BitVec.twoPow 8 j) ≠ crcByte c b := by
  have hbit : ∀ j < 8, crcByte 0 (BitVec.twoPow 8 j) ≠ 0 := by decide
  have hsplit : crcByte c (b ^^^ BitVec.twoPow 8 j) = crcByte c b ^^^ crcByte 0 (BitVec.twoPow 8 j) := by
    simpa using crcByte_xor c 0 b (BitVec.twoPow 8 j)
  rw [hsplit]
  intro h
  exact hbit j hj (by simpa using h)

/-- Settles O6: the bytes before the changed one leave equal registers, it leaves different ones, and those after it keep them
different. -/
theorem crcDetectsEverySingleBitChange : Obligations.CrcDetectsEverySingleBitChange := by
  intro p n i j hi hn hj
  have hlen : i < (p.take n).length := by rw [List.length_take]; omega
  have hget : p.getD i 0 = (p.take n)[i] := by
    rw [List.getElem_take, List.getD_eq_getElem]
  have hsplit : p.take n = (p.take n).take i ++ (p.take n)[i] :: (p.take n).drop (i + 1) := by
    rw [← List.drop_eq_getElem_cons hlen, List.take_append_drop]
  rw [crc4, crc4, List.take_set, List.set_eq_take_append_cons_drop, if_pos hlen, hget]
  conv_rhs => rw [hsplit]
  rw [List.foldl_append, List.foldl_append, List.foldl_cons, List.foldl_cons]
  exact fun h => crcByte_flip_ne _ _ hj (foldl_crcByte_injective _ h)

/-! ## The table -/

theorem crc4_singleton (b : Byte) : crc4 [b] 1 = crcByte 0 b := by
  rw [crc4, List.take_of_length_le (by simp), List.foldl_cons, List.foldl_nil]

/-- The register moves into the byte: its four bits and the byte's high four meet in the same shifts (40_codec.md R147). -/
theorem crcByte_eq_table (c : Nibble) (b : Byte) : crcByte c b = crc4 [(c.setWidth 8 <<< 4) ^^^ b] 1 := by
  have hregister : ∀ c : Nibble, crcByte 0 (c.setWidth 8 <<< 4) = crcByte c 0 := by decide
  calc crcByte c b
    _ = crcByte (c ^^^ 0) (0 ^^^ b) := by simp
    _ = crcByte 0 (c.setWidth 8 <<< 4) ^^^ crcByte 0 b := by rw [crcByte_xor, hregister]
    _ = crc4 [(c.setWidth 8 <<< 4) ^^^ b] 1 := by rw [crc4_singleton, ← crcByte_xor]; simp

/-- Settles O7: the printed table by evaluation at each byte, the fold because each of its steps is a table look-up. -/
theorem crcByTable : Obligations.CrcByTable := by
  refine ⟨by decide +kernel, fun p n _ _ _ => ?_⟩
  rw [crc4]
  simp only [← crcByte_eq_table]

/-! ## The header's fields -/

/-- Unpacking gives back the fields that stand side by side in a header (40_codec.md R142). -/
theorem dec_append (ck : Nibble) (first : Bool) (sc : Code3) : dec (ck ++ BitVec.ofBool first ++ sc) = (ck, first, sc) := by
  revert ck first sc; decide

/-- Settles O9: the packer puts its fields side by side, and n - 1 fits the size code. -/
theorem headerRoundTrip : Obligations.HeaderRoundTrip := by
  intro p n first h1 h8
  refine ⟨packHeader p n first, enc_eq_some p n first h1 h8, ?_⟩
  rw [packHeader, dec_append]
  exact ⟨rfl, rfl, (BitVec.toNat_ofNat ..).trans (Nat.mod_eq_of_lt (by omega))⟩

/-- A byte is its own three fields side by side (30_encoding.md R110). -/
theorem append_dec (h : Byte) : (dec h).1 ++ BitVec.ofBool (dec h).2.1 ++ (dec h).2.2 = h := by
  revert h; decide

/-- Settles O10: the read size is the size code plus 1, and a byte's fields side by side are the formula's byte. -/
theorem everyHeaderByteUnpacks : Obligations.EveryHeaderByteUnpacks := by
  intro h
  refine ⟨?_, ?_⟩
  · rw [readSize_toNat]
    simp [headerSizeCode]
  · rw [← header_append_eq_or, append_dec]

end Sys2Proof.Machine
end

section
/-!
The checksum as a polynomial remainder over GF(2) (40_codec.md section 3): each shift of the register keeps it congruent, modulo
x^4 + x + 1, to x^4 times the message read so far. O4.
-/
namespace Sys2Proof.Machine
open Polynomial

/-- A message bit as a coefficient. -/
noncomputable def bitPoly (b : Bool) : (ZMod 2)[X] := if b then 1 else 0

/-- The polynomial of the first m bits of a word, bit j at x^j. -/
noncomputable def lowBitsPoly {w : Nat} (m : Nat) (v : BitVec w) : (ZMod 2)[X] :=
  ∑ j ∈ Finset.range m, if v.getLsbD j then X ^ j else 0

/-- The generator x^4 + x + 1 (40_codec.md R140). -/
noncomputable def crcGenerator : (ZMod 2)[X] := X ^ 4 + X + 1

/-- The polynomial of the first n bytes of a payload, most significant bit first. -/
noncomputable def messagePoly (p : List Byte) (n : Nat) : (ZMod 2)[X] :=
  ∑ i ∈ Finset.range n, ∑ j ∈ Finset.range 8,
    if (p.getD i 0).getLsbD j then X ^ (8 * (n - 1 - i) + j) else 0

/-- The register c is what the message m leaves, up to a multiple of the generator. -/
def RegisterOf (c : Nibble) (m : (ZMod 2)[X]) : Prop := crcGenerator ∣ lowBitsPoly 4 c - m * X ^ 4

theorem bitPoly_xor (a b : Bool) : bitPoly (a ^^ b) = bitPoly a + bitPoly b := by
  cases a <;> cases b <;> simp [bitPoly, CharTwo.add_self_eq_zero]

theorem ite_pow_eq (b : Bool) (j : Nat) : (if b then X ^ j else 0 : (ZMod 2)[X]) = bitPoly b * X ^ j := by
  cases b <;> simp [bitPoly]

/-- The register after a shift, bit by bit: the feedback enters at x^0 and at x^1 (40_codec.md R140). -/
theorem crcShift_bits (c : Nibble) (b : Bool) :
    (crcShift c b).getLsbD 0 = (c.getLsbD 3 ^^ b) ∧ (crcShift c b).getLsbD 1 = (c.getLsbD 0 ^^ (c.getLsbD 3 ^^ b)) ∧
      (crcShift c b).getLsbD 2 = c.getLsbD 1 ∧ (crcShift c b).getLsbD 3 = c.getLsbD 2 := by
  revert c b; decide

/-- A shift multiplies by x, takes in the message bit at x^4, and takes off the generator when x^4 is there. -/
theorem lowBitsPoly_crcShift (c : Nibble) (b : Bool) :
    lowBitsPoly 4 (crcShift c b) + crcGenerator * bitPoly (c.getLsbD 3 ^^ b) =
      lowBitsPoly 4 c * X + bitPoly b * X ^ 4 := by
  obtain ⟨h0, h1, h2, h3⟩ := crcShift_bits c b
  have htwo : (2 : (ZMod 2)[X]) = 0 := CharTwo.two_eq_zero
  simp only [lowBitsPoly, Finset.sum_range_succ, Finset.sum_range_zero, ite_pow_eq, h0, h1, h2, h3, bitPoly_xor,
    crcGenerator]
  linear_combination (bitPoly (c.getLsbD 3) + bitPoly b) * (1 + X) * htwo

/-- One more message bit. -/
theorem RegisterOf.shift {c : Nibble} {m : (ZMod 2)[X]} (h : RegisterOf c m) (b : Bool) :
    RegisterOf (crcShift c b) (m * X + bitPoly b) := by
  have hsplit : lowBitsPoly 4 (crcShift c b) - (m * X + bitPoly b) * X ^ 4 =
      (lowBitsPoly 4 c - m * X ^ 4) * X - crcGenerator * bitPoly (c.getLsbD 3 ^^ b) := by
    linear_combination lowBitsPoly_crcShift c b
  rw [RegisterOf, hsplit]
  exact dvd_sub (h.mul_right X) (dvd_mul_right ..)

/-- One more message byte: its eight shifts. -/
theorem RegisterOf.byte {c : Nibble} {m : (ZMod 2)[X]} (h : RegisterOf c m) (b : Byte) :
    RegisterOf (crcByte c b) (m * X ^ 8 + lowBitsPoly 8 b) := by
  have hbits := (((((((h.shift (b.getLsbD 7)).shift (b.getLsbD 6)).shift (b.getLsbD 5)).shift (b.getLsbD 4)).shift
    (b.getLsbD 3)).shift (b.getLsbD 2)).shift (b.getLsbD 1)).shift (b.getLsbD 0)
  have hpoly : m * X ^ 8 + lowBitsPoly 8 b =
      (((((((m * X + bitPoly (b.getLsbD 7)) * X + bitPoly (b.getLsbD 6)) * X + bitPoly (b.getLsbD 5)) * X +
        bitPoly (b.getLsbD 4)) * X + bitPoly (b.getLsbD 3)) * X + bitPoly (b.getLsbD 2)) * X +
        bitPoly (b.getLsbD 1)) * X + bitPoly (b.getLsbD 0) := by
    simp only [lowBitsPoly, Finset.sum_range_succ, Finset.sum_range_zero, ite_pow_eq]
    ring
  rw [hpoly]
  exact hbits

/-- The message grows at its low end. -/
theorem messagePoly_succ (p : List Byte) (n : Nat) :
    messagePoly p (n + 1) = messagePoly p n * X ^ 8 + lowBitsPoly 8 (p.getD n 0) := by
  rw [messagePoly, Finset.sum_range_succ, messagePoly, Finset.sum_mul]
  refine congrArg₂ (· + ·) ?_ ?_
  · refine Finset.sum_congr rfl fun i hi => ?_
    have hexp : 8 * (n + 1 - 1 - i) = 8 * (n - 1 - i) + 8 := by have := Finset.mem_range.1 hi; omega
    rw [Finset.sum_mul]
    refine Finset.sum_congr rfl fun j _ => ?_
    rw [ite_pow_eq, ite_pow_eq, hexp]
    ring
  · simp [lowBitsPoly]

/-- The checksum takes its bytes one after another. -/
theorem crc4_succ {p : List Byte} {n : Nat} (h : n < p.length) : crc4 p (n + 1) = crcByte (crc4 p n) (p.getD n 0) := by
  rw [crc4, List.take_succ_eq_append_getElem h, List.foldl_append, List.getD_eq_getElem _ _ h]
  rfl

theorem RegisterOf.crc4 {p : List Byte} {n : Nat} (h : n ≤ p.length) : RegisterOf (crc4 p n) (messagePoly p n) := by
  induction n with
  | zero => simp [RegisterOf, Machine.crc4, messagePoly, lowBitsPoly]
  | succ n ih =>
    rw [crc4_succ h, messagePoly_succ]
    exact (ih (Nat.le_of_succ_le h)).byte _

/-! ## The remainder -/

theorem crcGenerator_monic : crcGenerator.Monic := by
  rw [crcGenerator]; monicity!

theorem crcGenerator_degree : crcGenerator.degree = 4 := by
  rw [crcGenerator]; compute_degree!

/-- The register's polynomial has degree below 4. -/
theorem lowBitsPoly_degree_lt (c : Nibble) : (lowBitsPoly 4 c).degree < 4 := by
  refine lt_of_le_of_lt (degree_sum_le _ _) ((Finset.sup_lt_iff (WithBot.bot_lt_coe 4)).2 ?_)
  intro j hj
  have hlt : ((j : Nat) : WithBot Nat) < 4 := by exact_mod_cast Finset.mem_range.1 hj
  split
  · rwa [degree_X_pow]
  · rw [degree_zero]; exact bot_lt_of_lt hlt

/-- Settles O4: the checksum differs from the message times x^4 by a multiple of the generator, and has a smaller degree. -/
theorem crcIsPolynomialRemainder : Obligations.CrcIsPolynomialRemainder := by
  intro p n h
  obtain ⟨q, hq⟩ := RegisterOf.crc4 h
  have hsum : lowBitsPoly 4 (crc4 p n) + crcGenerator * -q = messagePoly p n * X ^ 4 := by
    linear_combination hq
  have hdegree : (lowBitsPoly 4 (crc4 p n)).degree < crcGenerator.degree :=
    crcGenerator_degree ▸ lowBitsPoly_degree_lt _
  obtain ⟨-, hmod⟩ := div_modByMonic_unique _ _ crcGenerator_monic ⟨hsum, hdegree⟩
  exact (modByMonic_eq_mod _ crcGenerator_monic).symm.trans hmod

end Sys2Proof.Machine
end

section
/-!
What a cycle shows on the pins (20_memory.md sections 4 and 6, 60_exceptions.md section 3) and what the host reads in each register
(10_state.md section 2). O20 and O22 to O26.
-/
namespace Sys2Proof.Machine

/-! ## The stream's bytes and the interrupt -/

/-- A byte goes out exactly on ACCEPT while `tx_valid` = 1 (20_memory.md R88, R91). -/
theorem sentByte_eq_some_iff (s : State) (x : CycleInput) (b : Byte) :
    sentByte s x = some b ↔ (s.txValid && !x.rst) = true ∧ x.tx = .accept ∧ b = s.txData := by
  unfold sentByte
  split
  case isTrue hvalid => cases x.tx <;> simp [hvalid, eq_comm]
  case isFalse hvalid => simp [hvalid]

/-- A byte comes in exactly on DATA while `rx_rd` = 1 (20_memory.md R88, R92). -/
theorem consumedByte_eq_some_iff (s : State) (x : CycleInput) (b : Byte) :
    consumedByte s x = some b ↔ (s.rxRd && !x.rst) = true ∧ x.rx = .data b := by
  unfold consumedByte
  split
  case isTrue hrd => cases x.rx <;> simp [hrd]
  case isFalse hrd => simp [hrd]

/-- Settles O22: every step records its cycle's pins, and which bytes moved by them. -/
theorem streamBytesMove : Obligations.StreamBytesMove := by
  intro s t hstep
  obtain ⟨hout, -, -⟩ := step_keeps hstep
  rw [hout]
  exact ⟨sentByte_eq_some_iff s _, consumedByte_eq_some_iff s _⟩

/-- A pin code is one of eight (20_memory.md R90). -/
theorem code3_cases (c : Code3) : c = 0 ∨ c = 1 ∨ c = 2 ∨ c = 3 ∨ c = 4 ∨ c = 5 ∨ c = 6 ∨ c = 7 := by
  revert c; decide

/-- Settles O23: each of the eight codes of either pin by evaluation. -/
theorem streamPinCodes : Obligations.StreamPinCodes := by
  intro x
  constructor
  · rw [CycleInput.tx]
    obtain h | h | h | h | h | h | h | h := code3_cases x.txPins <;> rw [h] <;> rfl
  · rw [CycleInput.rx]
    obtain h | h | h | h | h | h | h | h := code3_cases x.rxPins <;> rw [h] <;> rfl

/-- Settles O24: every step records its cycle's `irq`, which `rst` alone forces to 0. -/
theorem interruptOutput : Obligations.InterruptOutput := by
  intro s t hr hstep
  obtain ⟨hout, -, -⟩ := step_keeps hstep
  simp [hout, cycleOutput, hr, State.irq]

/-! ## The registers as words -/

/-- Fields side by side, as numbers: the upper one counts from its place. -/
theorem toNat_append {m n : Nat} (x : BitVec m) (y : BitVec n) : (x ++ y).toNat = 2 ^ n * x.toNat + y.toNat := by
  rw [BitVec.toNat_append, ← Nat.shiftLeft_add_eq_or_of_lt y.isLt, Nat.shiftLeft_eq, mul_comm]

/-- A flag that tells a value apart counts 1 where the value differs. -/
theorem toNat_decide_ne {α : Type} [DecidableEq α] (a b : α) : (decide (a ≠ b)).toNat = if a = b then 0 else 1 := by
  by_cases h : a = b <;> simp [h]

/-- Settles O25: STATUS is its fields side by side, as numbers. -/
theorem statusWordFields : Obligations.StatusWordFields := by
  intro s
  have hword : (readRegister .status s).toNat =
      (if s.fsm = .idle then 0 else 1) + 2 * s.done.toNat + (if s.err = .noError then 0 else 4) + 8 * s.first.toNat +
        16 * (fsmCode s.fsm).toNat := by
    simp only [readRegister, toNat_append, BitVec.toNat_ofBool, State.busy, State.errf, toNat_decide_ne]
    split <;> split <;> simp <;> omega
  rw [hword]
  cases s.fsm <;> rfl

/-- Settles O26: each register is its fields side by side, as numbers. -/
theorem registerReadWords : Obligations.RegisterReadWords := by
  intro s
  have herr : (readRegister .err s).toNat = (errNumber s.err).toNat := by
    rw [readRegister, toNat_append]
    simp
  refine ⟨?ctrl, rfl, ?err, rfl, rfl, rfl, rfl, ?hdr, rfl, rfl, ?codecCfg, ?codecRes⟩
  case err =>
    rw [herr]
    cases s.err <;> rfl
  all_goals
    simp only [readRegister, toNat_append, BitVec.toNat_ofBool, BitVec.toNat_ofNat]
    omega

/-- Settles O20: after reset FTBC is IDLE, BUF_BYTES lies in its range and nothing is in BUF; each register reads 0. -/
theorem resetStateReadsZeroAndIsSafe : Obligations.ResetStateReadsZeroAndIsSafe := by
  refine ⟨.ofIdle ⟨by decide, by decide, State.reset_buf_wf, by simp [State.reset]⟩ rfl, rfl, rfl, fun r => ?_⟩
  cases r <;> rfl

/-- Settles O19: the reset edge starts a new epoch in which nothing is written. -/
theorem resetLeavesBufferUnknown : Obligations.ResetLeavesBufferUnknown := by
  intro s t hr hstep
  cases (step_reset s hr).symm.trans hstep
  exact ⟨rfl, fun _ => rfl⟩

end Sys2Proof.Machine
end

section
/-!
The host's accesses in IDLE: where they land (20_memory.md sections 2 to 4), what a register write does and what reads back, and the
bytes of the BUF window. O17, O27, O29, O30 and O31.
-/
namespace Sys2Proof.Machine

/-! ## Where an access lands -/

/-- The registers stand at the multiples of 4 up to 0x030 (10_state.md R34). -/
theorem exists_registerOffset_iff (off : Word) :
    (∃ r, off = registerOffset r) ↔ off.toNat % 4 = 0 ∧ off.toNat ≤ 0x030 := by
  constructor
  · rintro ⟨r, rfl⟩
    cases r <;> decide
  · rintro ⟨h4, hle⟩
    have hmap : ∀ k < 13, (registerAt (BitVec.ofNat 32 (4 * k))).isSome = true := by decide
    have hoff : BitVec.ofNat 32 (4 * (off.toNat / 4)) = off := by
      rw [Nat.mul_div_cancel' (Nat.dvd_of_mod_eq_zero h4), BitVec.ofNat_toNat, BitVec.setWidth_eq]
    have hsome := hmap (off.toNat / 4) (by omega)
    rw [hoff, Option.isSome_iff_exists] at hsome
    obtain ⟨r, hr⟩ := hsome
    exact ⟨r, (registerAt_eq_some_iff off r).1 hr⟩

/-- Settles O27: a register is reached by four bytes at its own offset, the window by the bytes inside BUF; the window's offset is a
multiple of every access size. -/
theorem accessTargets : Obligations.AccessTargets := by
  intro s off n
  refine ⟨?registers, fun i => ?window, fun r => ?register, fun i j r hi hj => ?distinct⟩
  case registers =>
    simp only [busTarget_register_iff, exists_and_right, exists_registerOffset_iff]
    tauto
  case window =>
    rw [busTarget_buffer_iff]
    refine and_congr_right fun hoff => and_congr_left fun _ => ?_
    rw [hoff]
    cases n <;> simp only [accessBytes] <;> omega
  case register =>
    rw [busTarget_register_iff, and_comm]
    cases r <;> rfl
  case distinct =>
    obtain ⟨hi, -⟩ := (busTarget_register_iff ..).1 hi
    obtain ⟨hj, -⟩ := (busTarget_register_iff ..).1 hj
    exact hi.trans hj.symm

/-! ## Register writes -/

/-- In IDLE a register write is the register's own rule (20_memory.md R82). -/
theorem step_idle_write_register {s : State} {off v : Word} {r : Reg} (hf : s.fsm = .idle) (hr : s.nextInput.rst = false)
    (ha : s.nextInput.access = .write off .four v) (hoff : off = registerOffset r) :
    step s = writeRegister r v s.sampled := by
  have htarget : busTarget s.sampled off .four = .register r := (busTarget_register_iff ..).2 ⟨hoff, rfl⟩
  rw [step_idle s hf hr, ha]
  simp only [hostEdge, htarget]

/-- In IDLE nothing is locked. -/
theorem sampled_not_busy {s : State} (hf : s.fsm = .idle) : s.sampled.busy = false :=
  s.sampled.not_busy_iff.2 hf

/-- Settles O29: each offset is a register's, whose rule with nothing locked is the one stated. -/
theorem registerWritesInIdle : Obligations.RegisterWritesInIdle := by
  intro s off v hf hr ha
  have hwrite (r : Reg) (hoff : off = registerOffset r) := step_idle_write_register hf hr ha hoff
  have hidle := sampled_not_busy hf
  refine ⟨fun h => (hwrite .ctrl h).trans ?_, fun h => hwrite .status h, fun h => (hwrite .len h).trans ?_,
    fun h => (hwrite .timeout h).trans ?_, fun h => hwrite .codecData0 h, fun h => hwrite .codecData1 h,
    fun h => hwrite .codecCfg h, ?_⟩
  · simp [writeRegister, hidle]
  · simp [writeRegister, hidle]
  · simp [writeRegister, hidle]
  · rintro (h | h | h | h | h)
    · exact hwrite .err h
    · exact hwrite .result h
    · exact hwrite .pos h
    · exact hwrite .hdr h
    · exact hwrite .codecRes h

/-- Settles O17: CMD's own rule is to run the decoded command, and `withFetchWord` puts such a write before an idle FTBC. -/
theorem stepRunsDecodedCommand : Obligations.StepRunsDecodedCommand := by
  have hcommand (s : State) (w : Word) (hf : s.fsm = .idle) (hr : s.nextInput.rst = false)
      (ha : s.nextInput.access = .write 0x004 .four w) : step s = exec (decode w) s.sampled :=
    step_idle_write_register (r := .cmd) hf hr ha rfl
  refine ⟨hcommand, fun s nbits w => ?_⟩
  have hinput := s.withFetchWord_nextInput nbits w
  exact hcommand _ _ rfl (by rw [hinput]; rfl) (by rw [hinput]; rfl)

/-- CTRL's word is the two bits of its fields (10_state.md R35). -/
theorem ctrlWord_eq (v : Word) :
    (0#30 ++ BitVec.ofBool (v.getLsbD 1) ++ BitVec.ofBool (v.getLsbD 0) : Word) = v &&& 0x00000003 := by
  refine BitVec.eq_of_getLsbD_eq fun i hi => ?_
  simp only [BitVec.getLsbD_append, BitVec.getLsbD_ofBool, BitVec.getLsbD_zero, BitVec.getLsbD_and]
  interval_cases i <;> simp

/-- CODEC_CFG's word is the bits of its fields (10_state.md R46). -/
theorem codecCfgWord_eq (v : Word) :
    (0#16 ++ v.extractLsb' 8 8 ++ 0#3 ++ BitVec.ofBool (v.getLsbD 4) ++ v.extractLsb' 0 4 : Word) = v &&& 0x0000FF1F := by
  refine BitVec.eq_of_getLsbD_eq fun i hi => ?_
  simp only [BitVec.getLsbD_append, BitVec.getLsbD_extractLsb', BitVec.getLsbD_ofBool, BitVec.getLsbD_zero, BitVec.getLsbD_and]
  interval_cases i <;> simp

/-- Settles O30: the register's own rule keeps the writable bits, and a read-only register's keeps everything. -/
theorem writtenRegistersReadBack : Obligations.WrittenRegistersReadBack := by
  intro s t off v r hf hr ha htarget hstep
  obtain ⟨hoff, -⟩ := (busTarget_register_iff ..).1 htarget
  have hidle := sampled_not_busy hf
  have hwrite := (step_idle_write_register hf hr ha hoff).symm.trans hstep
  refine ⟨?ctrl, ?codecCfg, ?words, ?readOnly⟩
  case ctrl =>
    rintro rfl
    simp only [writeRegister, hidle] at hwrite
    cases hwrite
    exact ctrlWord_eq v
  case codecCfg =>
    rintro rfl
    cases hwrite
    exact codecCfgWord_eq v
  case words =>
    rintro (rfl | rfl | rfl | rfl) <;> simp only [writeRegister, hidle] at hwrite <;> cases hwrite <;> rfl
  case readOnly =>
    rintro (rfl | rfl | rfl | rfl | rfl) <;> cases hwrite <;> rfl

/-! ## The BUF window -/

/-- Bytes side by side, the first the least significant, as a number (20_memory.md R83). -/
theorem littleEndianWord_eq_sum (n : Nat) (f : Nat → Byte) :
    littleEndianWord ((List.range n).map f) = BitVec.ofNat 32 (∑ j ∈ Finset.range n, (f j).toNat * 2 ^ (8 * j)) := by
  induction n generalizing f with
  | zero => rfl
  | succ n ih =>
    have hsum : ∑ j ∈ Finset.range (n + 1), (f j).toNat * 2 ^ (8 * j) =
        (f 0).toNat + 2 ^ 8 * ∑ j ∈ Finset.range n, (f (j + 1)).toNat * 2 ^ (8 * j) := by
      rw [Finset.sum_range_succ', Finset.mul_sum, add_comm]
      simp only [mul_add, pow_add, mul_zero, pow_zero, mul_one]
      congr 1
      exact Finset.sum_congr rfl fun j _ => by ring
    rw [List.range_succ_eq_map, List.map_cons, List.map_map, littleEndianWord, ih, hsum]
    refine BitVec.eq_of_toNat_eq ?_
    simp only [BitVec.toNat_or, BitVec.toNat_shiftLeft, BitVec.toNat_ofNat, BitVec.toNat_setWidth, Function.comp_apply,
      Nat.shiftLeft_eq, Nat.succ_eq_add_one]
    generalize ∑ j ∈ Finset.range n, (f (j + 1)).toNat * 2 ^ (8 * j) = m
    have hb := (f 0).isLt
    have hhigh : m % 2 ^ 32 * 2 ^ 8 % 2 ^ 32 = (m % 2 ^ 24) <<< 8 := by rw [Nat.shiftLeft_eq]; omega
    rw [Nat.mod_eq_of_lt (show (f 0).toNat < 2 ^ 32 by omega), hhigh, ← Nat.shiftLeft_add_eq_or_of_lt hb, Nat.shiftLeft_eq]
    omega

/-- A window read gives the bytes of BUF as a number (20_memory.md R83). -/
theorem readBus_buffer {s : State} {off : Word} {n : AccessSize} {i : Nat} (h : busTarget s off n = .buffer i) :
    readBus s off n =
      .readData (BitVec.ofNat 32 (∑ j ∈ Finset.range (accessBytes n), (s.bufByte (i + j)).toNat * 2 ^ (8 * j))) := by
  simp only [readBus, h, State.bufBlock, littleEndianWord_eq_sum]

/-- The low bytes of a word make up its low part. -/
theorem sum_bytes_eq_mod (v : Word) (n : Nat) :
    ∑ j ∈ Finset.range n, (v.extractLsb' (8 * j) 8).toNat * 2 ^ (8 * j) = v.toNat % 2 ^ (8 * n) := by
  induction n with
  | zero => simp [Nat.mod_one]
  | succ n ih =>
    rw [Finset.sum_range_succ, ih, mul_add, pow_add, Nat.mod_mul, BitVec.extractLsb'_toNat, Nat.shiftRight_eq_div_pow]
    ring

/-- The bytes an access stores, by their bit offsets (20_memory.md R83). -/
theorem wordBytes_take_getD (v : Word) (n : AccessSize) {j : Nat} (hj : j < accessBytes n) :
    ((wordBytes v).take (accessBytes n)).getD j 0 = v.extractLsb' (8 * j) 8 := by
  cases n <;> simp only [accessBytes] at hj ⊢ <;> interval_cases j <;> rfl

/-- In IDLE a window write stores the access's bytes (20_memory.md R83). -/
theorem step_idle_write_buffer {s : State} {off v : Word} {n : AccessSize} {i : Nat} (hf : s.fsm = .idle)
    (hr : s.nextInput.rst = false) (ha : s.nextInput.access = .write off n v) (htarget : busTarget s off n = .buffer i) :
    step s = .next (s.sampled.writeBytes i ((wordBytes v).take (accessBytes n))) := by
  rw [step_idle s hf hr, ha]
  simp only [hostEdge, busTarget_sampled, htarget, writeBuffer, sampled_not_busy hf]
  rfl

/-- Settles O31: the write stores the access's bytes at their indices, which the read puts side by side again. -/
theorem bufferWindowWriteThenRead : Obligations.BufferWindowWriteThenRead := by
  intro s off v n i hf hr ha htarget
  have hframe := State.writeBytes_eq s.sampled i ((wordBytes v).take (accessBytes n))
  have hbyte := fun a => State.bufByte_writeBytes s.sampled i a ((wordBytes v).take (accessBytes n))
  rw [length_take_wordBytes] at hbyte
  have hstored (j : Nat) (hj : j < accessBytes n) :
      (s.sampled.writeBytes i ((wordBytes v).take (accessBytes n))).bufByte (i + j) = v.extractLsb' (8 * j) 8 := by
    rw [hbyte, if_pos (by omega), Nat.add_sub_cancel_left, wordBytes_take_getD v n hj]
  refine ⟨_, step_idle_write_buffer hf hr ha htarget, hframe, hstored, fun a ha => ?_, ?_⟩
  · rw [hbyte, if_neg (by omega), State.sampled_bufByte]
  · have hread : busTarget (s.sampled.writeBytes i ((wordBytes v).take (accessBytes n))) off n = .buffer i := by
      rw [hframe]
      exact htarget
    rw [readBus_buffer hread, ← sum_bytes_eq_mod]
    refine congrArg (fun m => BusResponse.readData (BitVec.ofNat 32 m)) (Finset.sum_congr rfl fun j hj => ?_)
    rw [hstored j (Finset.mem_range.1 hj)]

end Sys2Proof.Machine
end

section
/-!
What the engine's half of an edge leaves alone of a command's operands, and of BUF all but the byte that R_PAY stores (42_receive.md
R206). O32, O34, O35 and O56.
-/
namespace Sys2Proof.Machine

/-! ## The operands and BUF after the engine's half of an edge -/

/-- BUF after an engine edge with this response: R_PAY stores the byte that came (42_receive.md R206). -/
def State.bufAfter (s : State) (rx : RxResp) : List Host.Cell :=
  match s.fsm, rx with
  | .rPay, .data b => Memory.write s.buf (s.pos.toNat + s.k.toNat) b
  | _, _ => s.buf

theorem State.bufAfter_of_ne_rPay {s : State} (rx : RxResp) (hf : s.fsm ≠ .rPay) : s.bufAfter rx = s.buf := by
  cases h : s.fsm
  case rPay => exact absurd h hf
  all_goals simp [State.bufAfter, h]

theorem State.bufAfter_of_not_data {s : State} {rx : RxResp} (hrx : ∀ b, rx ≠ .data b) : s.bufAfter rx = s.buf := by
  cases rx
  case data b => exact absurd rfl (hrx b)
  all_goals simp [State.bufAfter]

theorem State.bufAfter_rPay_data {s : State} (b : Byte) (hf : s.fsm = .rPay) :
    s.bufAfter (.data b) = Memory.write s.buf (s.pos.toNat + s.k.toNat) b := by
  simp [State.bufAfter, hf]

/-- From s to t the operands of a command stay as they are (92_eei_decisions.md D12), and BUF becomes m. -/
def State.KeepsOperands (s : State) (m : List Host.Cell) (t : State) : Prop :=
  t.len = s.len ∧ t.timeout = s.timeout ∧ t.rxPartial = s.rxPartial ∧ t.bufBytes = s.bufBytes ∧ t.bufEpoch = s.bufEpoch ∧
    t.buf = m

section KeepsOperands
variable {s t : State} {m : List Host.Cell}

theorem State.KeepsOperands.enterSend (h : enterSendBlock s = .next t) : s.KeepsOperands s.buf t := by
  obtain ⟨-, rfl⟩ := enterSendBlock_eq_next h
  exact ⟨rfl, rfl, rfl, rfl, rfl, rfl⟩

theorem State.KeepsOperands.enterReceive (h : enterReceiveBlock s = .next t) : s.KeepsOperands s.buf t := by
  cases h
  exact ⟨rfl, rfl, rfl, rfl, rfl, rfl⟩

theorem State.KeepsOperands.advance {size : Nibble} {go : State → Result} (h : advanceBlock s size go = .next t)
    (hgo : ∀ u v, go u = .next v → u.KeepsOperands u.buf v) : s.KeepsOperands s.buf t := by
  obtain ⟨-, rfl⟩ | ⟨-, h⟩ := advanceBlock_eq_next h
  · exact ⟨rfl, rfl, rfl, rfl, rfl, rfl⟩
  · have hnext := hgo _ _ h
    exact hnext

theorem State.KeepsOperands.offer {tx : TxResp} {r : Word} {acc : Result} (h : offerByte s tx r acc = .next t)
    (hacc : ∀ v, acc = .next v → s.KeepsOperands s.buf v) : s.KeepsOperands s.buf t := by
  obtain ⟨-, h⟩ | ⟨-, rfl⟩ | ⟨c, -, -, -, rfl⟩ := offerByte_eq_next h
  · exact hacc _ h
  · exact ⟨rfl, rfl, rfl, rfl, rfl, rfl⟩
  · exact ⟨rfl, rfl, rfl, rfl, rfl, rfl⟩

theorem State.KeepsOperands.timed {rx : RxResp} {tick : Bool} {r : Word} {took : Byte → State → Result}
    (h : timedRead s rx tick r took = .next t)
    (htook : ∀ b v, rx = .data b → took b (s.ticked tick) = .next v → s.KeepsOperands (s.bufAfter rx) v) :
    s.KeepsOperands (s.bufAfter rx) t := by
  obtain ⟨b, hrx, h⟩ | ⟨hrx, -, rfl⟩ | ⟨c, -, hrx, rfl⟩ := timedRead_eq_next h
  · exact htook b t hrx h
  · exact ⟨rfl, rfl, rfl, rfl, rfl, (State.bufAfter_of_not_data (by simp [hrx])).symm⟩
  · exact ⟨rfl, rfl, rfl, rfl, rfl, (State.bufAfter_of_not_data (s := s) hrx).symm⟩

end KeepsOperands

/-- The engine's half of an edge keeps the operands, in every FSM state (10_state.md R33). -/
theorem engineEdge_keepsOperands {s t : State} {x : CycleInput} (h : engineEdge s x = .next t) :
    s.KeepsOperands (s.bufAfter x.rx) t := by
  cases hf : s.fsm
  case rPay =>
    rw [engineEdge_rPay _ _ hf] at h
    refine .timed h fun b v hrx hv => ?_
    have hbuf := State.bufAfter_rPay_data b hf
    rw [← hrx] at hbuf
    dsimp only at hv
    split at hv
    next => split at hv <;> cases hv <;> exact ⟨rfl, rfl, rfl, rfl, rfl, hbuf.symm⟩
    next => cases hv
  all_goals have hbuf := s.bufAfter_of_ne_rPay x.rx (by simp [hf])
  case idle =>
    rw [engineEdge_idle _ _ hf] at h
    cases h
    exact ⟨rfl, rfl, rfl, rfl, rfl, hbuf.symm⟩
  case sHdr =>
    rw [engineEdge_sHdr _ _ hf] at h
    rw [hbuf]
    refine .offer h fun v hv => ?_
    cases hv
    exact ⟨rfl, rfl, rfl, rfl, rfl, rfl⟩
  case sPay =>
    rw [engineEdge_sPay _ _ hf, sPayEdge] at h
    rw [hbuf]
    split at h
    next =>
      refine .offer h fun v hv => ?_
      split at hv <;> cases hv <;> exact ⟨rfl, rfl, rfl, rfl, rfl, rfl⟩
    next => cases h
  case sAck =>
    rw [engineEdge_sAck _ _ hf] at h
    refine .timed h fun b v _ hv => ?_
    rw [hbuf]
    split at hv
    next => exact State.KeepsOperands.advance (s := s.ticked x.tick) hv fun _ _ => .enterSend
    next =>
      cases hv
      exact ⟨rfl, rfl, rfl, rfl, rfl, rfl⟩
  case rHdr =>
    rw [engineEdge_rHdr _ _ hf] at h
    refine .timed h fun b v _ hv => ?_
    rw [hbuf]
    dsimp only at hv
    split at hv
    next =>
      cases hv
      exact ⟨rfl, rfl, rfl, rfl, rfl, rfl⟩
    next => split at hv <;> cases hv <;> exact ⟨rfl, rfl, rfl, rfl, rfl, rfl⟩
  case rChk =>
    rw [engineEdge_rChk _ _ hf, rChkEdge] at h
    rw [hbuf]
    split at h
    next => split at h <;> cases h <;> exact ⟨rfl, rfl, rfl, rfl, rfl, rfl⟩
    next => cases h
  case rAck =>
    rw [engineEdge_rAck _ _ hf] at h
    rw [hbuf]
    exact .offer h fun _ hv => .advance hv fun _ _ => .enterReceive
  case rFlush =>
    rw [engineEdge_rFlush _ _ hf] at h
    rw [hbuf]
    generalize x.rx = rx at h
    cases rx <;> cases h <;> exact ⟨rfl, rfl, rfl, rfl, rfl, rfl⟩

/-- A busy cycle without reset keeps the operands, and stores in BUF what the engine does. -/
theorem step_busy_keepsOperands {s t : State} (hbusy : s.fsm ≠ .idle) (hr : s.nextInput.rst = false)
    (hstep : step s = .next t) : s.KeepsOperands (s.bufAfter s.nextInput.rx) t := by
  rw [step_busy s (s.busy_iff.2 hbusy) hr] at hstep
  have hkeeps := engineEdge_keepsOperands hstep
  exact hkeeps

/-- BUF with one more byte written, at an index and elsewhere. -/
theorem State.bufByte_of_write {s t : State} {i : Nat} {b : Byte} (hepoch : t.bufEpoch = s.bufEpoch)
    (hbuf : t.buf = Memory.write s.buf i b) (a : Nat) : t.bufByte a = if a = i then b else s.bufByte a := by
  rw [← s.bufByte_writeByte i a b]
  simp only [State.bufByte, hbuf, hepoch, State.writeByte_buf, State.writeByte_bufEpoch]

/-- BUF where nothing is written. -/
theorem State.bufByte_of_eq {s t : State} (hepoch : t.bufEpoch = s.bufEpoch) (hbuf : t.buf = s.buf) (a : Nat) :
    t.bufByte a = s.bufByte a := by
  simp only [State.bufByte, hbuf, hepoch]

/-- Settles O32: the host's half changes no operand, and the engine's only the byte at POS + K, in R_PAY on DATA. -/
theorem busyLocksOperands : Obligations.BusyLocksOperands := by
  intro s t hb hr hstep
  obtain ⟨hlen, htimeout, hpartial, hbytes, hepoch, hbuf⟩ := step_busy_keepsOperands (s.busy_iff.1 hb) hr hstep
  refine ⟨hlen, htimeout, hpartial, hbytes, fun a ha => ?elsewhere, fun b hf hrx => ?stored⟩
  case stored =>
    rw [hrx, State.bufAfter_rPay_data b hf] at hbuf
    rw [State.bufByte_of_write hepoch hbuf, if_pos rfl]
  case elsewhere =>
    by_cases hstore : s.fsm = .rPay ∧ ∃ b, s.nextInput.rx = .data b
    case pos =>
      obtain ⟨hf, b, hrx⟩ := hstore
      rw [hrx, State.bufAfter_rPay_data b hf] at hbuf
      rw [State.bufByte_of_write hepoch hbuf, if_neg fun heq => ha ⟨hf, ⟨b, hrx⟩, heq⟩]
    case neg =>
      refine State.bufByte_of_eq hepoch (hbuf.trans ?_) a
      by_cases hf : s.fsm = .rPay
      · exact State.bufAfter_of_not_data fun b hrx => hstore ⟨hf, b, hrx⟩
      · exact s.bufAfter_of_ne_rPay _ hf

/-! ## The canonical form -/

/-- The byte that R_PAY stores keeps the canonical form (log entry 5). -/
theorem State.wf_bufAfter {s : State} (rx : RxResp) (hwf : Memory.wf s.buf = true) : Memory.wf (s.bufAfter rx) = true := by
  unfold State.bufAfter
  split
  · exact Memory.wf_write hwf _ _
  · exact hwf

/-- The host's half of an edge keeps the canonical form. -/
theorem hostEdge_wf {a : HostAccess} {s t : State} (hwf : Memory.wf s.buf = true) (h : hostEdge s a = .next t) :
    Memory.wf t.buf = true := by
  cases a with
  | quiet | read => cases h; exact hwf
  | write off n v =>
    rw [hostEdge] at h
    split at h
    next r _ =>
      cases r
      case cmd =>
        obtain ⟨-, -, -, hbuf, -⟩ := exec_keeps h
        rwa [hbuf]
      all_goals cases h; exact hwf
    next =>
      cases h
      rw [writeBuffer]
      split
      · exact hwf
      · exact State.wf_writeBytes _ _ _ hwf
    next => cases h; exact hwf

/-- Settles O56: the reset edge empties the list, the host's and the engine's halves write bytes into it. -/
theorem bufferStaysCanonical : Obligations.BufferStaysCanonical := by
  intro s t hwf hstep
  cases hr : s.nextInput.rst
  case true =>
    cases (step_reset s hr).symm.trans hstep
    rfl
  case false =>
    by_cases hf : s.fsm = .idle
    case pos => exact hostEdge_wf (s := s.sampled) hwf ((step_idle s hf hr).symm.trans hstep)
    case neg =>
      obtain ⟨-, -, -, -, -, hbuf⟩ := step_busy_keepsOperands hf hr hstep
      rw [hbuf]
      exact State.wf_bufAfter _ hwf

/-! ## The host's registers and DONE in a busy cycle -/

/-- In a busy cycle without reset the host's registers follow the host's write, and DONE is set by the end of the command over the
host's clear (10_state.md R37). -/
theorem step_busy_host {s t : State} (hbusy : s.fsm ≠ .idle) (hr : s.nextInput.rst = false) (hstep : step s = .next t) :
    t.hostRegs = s.hostRegs.written s.nextInput.access ∧
      t.done = (decide (t.fsm = .idle) || (s.done && !s.nextInput.access.clearsDone)) := by
  obtain ⟨u, hu, hengine, -, hregs, hdone, -⟩ := step_busy_engine s hbusy hr
  obtain ⟨-, hregs', -, -, hdone'⟩ :=
    engineEdge_keeps ((congrArg EngineView.fsm hengine).trans_ne hbusy) (hu.symm.trans hstep)
  exact ⟨hregs'.trans hregs, by rw [hdone', hdone]⟩

/-- Settles O34: the statement writes out the host registers after a write (`HostView.written`). -/
theorem busyCycleHostRegisters : Obligations.BusyCycleHostRegisters := by
  intro s t hb hr hstep
  obtain ⟨hregs, hdone⟩ := step_busy_host (s.busy_iff.1 hb) hr hstep
  refine ⟨hdone, hregs.trans ?_⟩
  cases s.nextInput.access <;> rfl

/-- Settles O35: the ending sets DONE whatever the host clears. -/
theorem doneClearRace : Obligations.DoneClearRace := by
  intro s t hb hr _ hstep hidle
  obtain ⟨-, hdone⟩ := step_busy_host (s.busy_iff.1 hb) hr hstep
  simp [hdone, hidle]

end Sys2Proof.Machine
end

section
/-!
Cycles that differ in the host's access alone, or in BASE (20_memory.md section 8, 92_eei_decisions.md P-BASE): what the engine does
depends on neither. O28, O33, O36, O37 and O55.
-/
namespace Sys2Proof.Machine

/-! ## The engine's half of an edge and the record of the pins -/

/-- Where the host's half of an edge changes nothing, the step is the engine's half. -/
theorem step_of_hostEdge_same {s : State} (hr : s.nextInput.rst = false)
    (h : hostEdge s.sampled s.nextInput.access = .next s.sampled) : step s = engineEdge s.sampled s.nextInput := by
  by_cases hf : s.fsm = .idle
  · rw [step_idle s hf hr, h, engineEdge_idle s.sampled _ hf]
  · simp only [step, clockEdge, hr, h, andThen, State.sampled_busy, (State.busy_iff s).2 hf]
    rfl

/-- The engine's half of an edge takes what is outside its view along as it is; DONE it sets or keeps. -/
theorem engineEdge_setRest_next {s t : State} {x : CycleInput} (v : HostView) (o : CycleOutput) (c : Nat)
    (i : List CycleInput) (h : engineEdge s x = .next t) :
    engineEdge (s.setRest v s.done o c i) x = .next (t.setRest v t.done o c i) := by
  by_cases hf : s.fsm = .idle
  case pos =>
    cases (engineEdge_idle s x hf).symm.trans h
    exact engineEdge_idle _ _ hf
  case neg =>
    obtain ⟨u, hu, hengine⟩ := engineEdge_setRest v s.done o c i h
    obtain ⟨hout, hregs, hcycle, hinputs, hdone⟩ := engineEdge_keeps (s := s.setRest v s.done o c i) hf hu
    obtain ⟨-, -, -, -, hdone'⟩ := engineEdge_keeps hf h
    have hfsm : u.fsm = t.fsm := congrArg EngineView.fsm hengine
    have hsame : u = t.setRest v t.done o c i :=
      State.ext_views hengine hregs (by rw [hdone, hfsm]; exact hdone'.symm) hout hcycle hinputs
    exact hsame ▸ hu

/-- The engine's half of an edge keeps the host registers, the record of the pins, the cycle's number and the inputs. -/
theorem engineEdge_keepsRest {s t : State} {x : CycleInput} (h : engineEdge s x = .next t) :
    t.hostRegs = s.hostRegs ∧ t.out = s.out ∧ t.cycle = s.cycle ∧ t.inputs = s.inputs := by
  by_cases hf : s.fsm = .idle
  case pos =>
    cases (engineEdge_idle s x hf).symm.trans h
    exact ⟨rfl, rfl, rfl, rfl⟩
  case neg =>
    obtain ⟨hout, hregs, hcycle, hinputs, -⟩ := engineEdge_keeps hf h
    exact ⟨hregs, hout, hcycle, hinputs⟩

/-- No rule of the engine reads the record of the pins (log entry 18). -/
theorem engineEdge_setOut {s t : State} {x : CycleInput} (o : CycleOutput) (h : engineEdge s x = .next t) :
    engineEdge { s with out := o } x = .next { t with out := o } := by
  obtain ⟨hregs, -, hcycle, hinputs⟩ := engineEdge_keepsRest h
  refine (engineEdge_setRest_next s.hostRegs o s.cycle s.inputs h).trans ?_
  rw [← hregs, ← hcycle, ← hinputs]
  rfl

/-- No rule of the engine reads BASE (92_eei_decisions.md P-BASE). -/
theorem engineEdge_setBase {s t : State} {x : CycleInput} (b : Word) (h : engineEdge s x = .next t) :
    engineEdge { s with base := b } x = .next { t with base := b } := by
  obtain ⟨hregs, hout, hcycle, hinputs⟩ := engineEdge_keepsRest h
  refine (engineEdge_setRest_next { s.hostRegs with base := b } s.out s.cycle s.inputs h).trans ?_
  rw [← hregs, ← hcycle, ← hinputs, ← hout]
  rfl

/-- The same cycle with another access. -/
def State.withAccess (s : State) (a : HostAccess) : State := s.withInput { s.nextInput with access := a }

@[simp] theorem State.withAccess_nextInput (s : State) (a : HostAccess) :
    (s.withAccess a).nextInput = { s.nextInput with access := a } := s.withInput_nextInput _

theorem State.withAccess_sampled (s : State) (a : HostAccess) :
    (s.withAccess a).sampled =
      { s.sampled with out := { cycleOutput s s.nextInput with bus := busResponse s s.nextInput.rst a } } :=
  s.withInput_sampled _

/-- A cycle with an access whose half of the edge changes nothing ends as the cycle without an access, but for the bus's answer. -/
theorem step_withAccess_of_hostEdge_same {s t : State} {a : HostAccess} (hquiet : s.nextInput.access = .quiet)
    (hr : s.nextInput.rst = false) (ha : hostEdge (s.withAccess a).sampled a = .next (s.withAccess a).sampled)
    (hstep : step s = .next t) :
    step (s.withAccess a) = .next { t with out := { t.out with bus := busResponse s false a } } := by
  obtain ⟨hout, -, -⟩ := step_keeps hstep
  have hwithout : engineEdge s.sampled s.nextInput = .next t :=
    (step_of_hostEdge_same hr (by rw [hquiet]; rfl)).symm.trans hstep
  rw [step_of_hostEdge_same (by simpa using hr) (by simpa using ha), State.withAccess_nextInput, State.withAccess_sampled,
    hr, ← hout]
  exact engineEdge_setOut _ hwithout

/-- An access that reaches nothing, and a read, leave the host's half of an edge without effect (20_memory.md R81, R88). -/
theorem hostEdge_of_no_effect {s : State} {a : HostAccess}
    (ha : ∀ off n v, a = .write off n v → busTarget s off n = .nowhere) : hostEdge s a = .next s := by
  cases a with
  | quiet | read => rfl
  | write off n v => simp only [hostEdge, ha off n v rfl]

/-- The bus's answer to an access that reaches nothing (20_memory.md R84, R85). -/
theorem busResponse_nowhere {s : State} {off : Word} {n : AccessSize} (h : busTarget s off n = .nowhere) :
    busResponse s false (.read off n) = .busError ∧ ∀ v, busResponse s false (.write off n v) = .busError := by
  simp [busResponse, readBus, h]

/-- Settles O28: such an access's half of the edge changes nothing, and the bus answers from the state at the start of the cycle. -/
theorem readsAndBusErrorsChangeNothing : Obligations.ReadsAndBusErrorsChangeNothing := by
  intro s a hquiet hr ha t hstep
  refine ⟨busResponse s false a, ?same, ?berr, ?register, ?window⟩
  case same =>
    refine step_withAccess_of_hostEdge_same hquiet hr (hostEdge_of_no_effect fun off n v hwrite => ?_) hstep
    exact ha off n v hwrite
  case berr =>
    rintro (⟨off, n, rfl, htarget⟩ | ⟨off, n, v, rfl⟩)
    · exact (busResponse_nowhere htarget).1
    · exact (busResponse_nowhere (ha off n v rfl)).2 v
  case register =>
    rintro off r rfl htarget
    simp [busResponse, readBus, htarget]
  case window =>
    rintro off n i rfl htarget
    exact readBus_buffer htarget

/-- Settles O33: a busy FTBC's half of the edge ignores the command, and the bus answers a register write without error. -/
theorem commandIgnoredWhileBusy : Obligations.CommandIgnoredWhileBusy := by
  intro s t w hb hr hquiet hstep
  have htarget : ∀ u : State, busTarget u 0x004 .four = .register .cmd := fun u =>
    (busTarget_register_iff ..).2 ⟨rfl, rfl⟩
  refine ⟨Config.writeReadData s.cycle, ?_⟩
  have hignored : hostEdge (s.withAccess (.write 0x004 .four w)).sampled (.write 0x004 .four w) =
      .next (s.withAccess (.write 0x004 .four w)).sampled := by
    simp only [hostEdge, htarget]
    exact exec_busy _ _ hb
  refine (step_withAccess_of_hostEdge_same hquiet hr hignored hstep).trans ?_
  simp only [busResponse, htarget]
  rfl

/-- A busy cycle with another access moves the engine alike: its half of the edge starts from the same engine view. -/
theorem step_withAccess_engine {s t : State} {a : HostAccess} (b : HostAccess) (hbusy : s.fsm ≠ .idle)
    (hr : s.nextInput.rst = false) (h : step (s.withAccess a) = .next t) :
    ∃ u, step (s.withAccess b) = .next u ∧ u.engine = t.engine := by
  obtain ⟨ha, hstepA, hengineA, -⟩ := step_busy_engine (s.withAccess a) hbusy (by simpa using hr)
  obtain ⟨hb, hstepB, hengineB, -⟩ := step_busy_engine (s.withAccess b) hbusy (by simpa using hr)
  rw [State.withAccess_nextInput] at hstepA hstepB
  have hviews : hb.engine = ha.engine := hengineB.trans hengineA.symm
  obtain ⟨u, hu, hengine⟩ := engineEdge_setRest hb.hostRegs hb.done hb.out hb.cycle hb.inputs (hstepA.symm.trans h)
  rw [← State.eq_setRest hviews] at hu
  exact ⟨u, hstepB.trans hu, hengine⟩

/-- Settles O36: whatever the access, the engine moves alike, and the stream's bytes are those of the same pins. -/
theorem runningCommandIgnoresHost : Obligations.RunningCommandIgnoresHost := by
  intro s a b hb hr t hstep
  obtain ⟨u, hu, hengine⟩ := step_withAccess_engine b (s.busy_iff.1 hb) hr hstep
  obtain ⟨houtT, -, -⟩ := step_keeps (s := s.withAccess a) hstep
  obtain ⟨houtU, -, -⟩ := step_keeps hu
  rw [State.withAccess_nextInput] at houtT houtU
  exact ⟨u, hu, hengine, by rw [houtU, houtT]; rfl, by rw [houtU, houtT]; rfl⟩

/-! ## IDLE without a command -/

/-- In IDLE an access that is no command changes LEN, TIMEOUT, RX_PARTIAL and BUF of the engine's view at most. -/
theorem hostEdge_idle_engine {s t : State} {a : HostAccess} (hcmd : a.isCommand = false)
    (h : hostEdge s a = .next t) :
    t.engine = { s.engine with len := t.len, timeout := t.timeout, rxPartial := t.rxPartial, buf := t.buf } := by
  cases a with
  | quiet | read => cases h; rfl
  | write off n v =>
    rw [hostEdge] at h
    split at h
    next r htarget =>
      obtain ⟨rfl, rfl⟩ := (busTarget_register_iff ..).1 htarget
      cases r
      case cmd => simp [HostAccess.isCommand, registerOffset] at hcmd
      all_goals cases h; rfl
    next =>
      cases h
      rw [writeBuffer]
      split
      · rfl
      · rw [State.writeBytes_eq]
        rfl
    next => cases h; rfl

/-- Settles O37: in IDLE the step is the host's half of the edge. -/
theorem idleEngineIsQuiescent : Obligations.IdleEngineIsQuiescent := by
  intro s t hf hr hcmd hstep
  refine ⟨hostEdge_idle_engine (s := s.sampled) hcmd ((step_idle s hf hr).symm.trans hstep), fun hquiet => ?_⟩
  rw [step_idle s hf hr, hquiet]
  rfl

/-! ## BASE and BUF_BYTES -/

/-- No command reads BASE. -/
theorem exec_setBase {i : Instr} {s t : State} (b : Word) (h : exec i s = .next t) :
    exec i { s with base := b } = .next { t with base := b } := by
  by_cases hb : s.busy = true
  · cases (exec_busy i s hb).symm.trans h
    exact exec_busy i _ hb
  have hb : s.busy = false := by simpa using hb
  have hb' : ({ s with base := b } : State).busy = false := hb
  cases i
  case checksum =>
    obtain ⟨hinvalid, hvalid⟩ := checksumCommandResult _ hb
    obtain ⟨hinvalid', hvalid'⟩ := checksumCommandResult _ hb'
    by_cases hsize : s.cfgSize.toNat = 0 ∨ 8 < s.cfgSize.toNat
    · cases (hinvalid hsize).symm.trans h
      exact hinvalid' hsize
    · cases (hvalid (by omega) (by omega)).symm.trans h
      exact hvalid' (by dsimp only; omega) (by dsimp only; omega)
  case encodeHeader =>
    cases henc : enc s.payload s.cfgSize.toNat s.cfgIsFirst with
    | none =>
      cases (execEncodeHeader_of_enc_eq_none hb henc).symm.trans h
      exact execEncodeHeader_of_enc_eq_none hb' henc
    | some hdr =>
      cases (execEncodeHeader_of_enc_eq_some hb henc).symm.trans h
      exact execEncodeHeader_of_enc_eq_some hb' henc
  case decodeHeader =>
    cases (decodeHeaderCommandResult s hb).symm.trans h
    exact decodeHeaderCommandResult _ hb'
  case send =>
    rw [exec_send_of_not_busy hb] at h
    rw [exec_send_of_not_busy hb']
    obtain ⟨hlong, rfl⟩ | ⟨hempty, rfl⟩ | ⟨hfits, h0, h⟩ := startTransfer_eq_next h
    · exact startTransfer_of_too_long hlong
    · exact startTransfer_of_empty hempty
    · obtain ⟨hin, rfl⟩ := enterSendBlock_eq_next h
      rw [startTransfer_of_fits (s := { s with base := b, done := false }) h0 hfits]
      exact enterSendBlock_next _ hin
  case receive =>
    rw [exec_receive_of_not_busy hb] at h
    rw [exec_receive_of_not_busy hb']
    obtain ⟨hlong, rfl⟩ | ⟨hempty, rfl⟩ | ⟨hfits, h0, h⟩ := startTransfer_eq_next h
    · exact startTransfer_of_too_long hlong
    · exact startTransfer_of_empty hempty
    · cases h
      exact startTransfer_of_fits h0 hfits
  case illegalOp0 | illegalOp6to7 | illegalOp8toF =>
    cases (illegalCommand_of_not_busy hb).symm.trans h
    exact illegalCommand_of_not_busy hb'

/-- Writes into BUF do not depend on BASE. -/
theorem State.writeBytes_setBase (s : State) (b : Word) (i : Nat) (bs : List Byte) :
    ({ s with base := b } : State).writeBytes i bs = { s.writeBytes i bs with base := b } := by
  induction bs generalizing s i with
  | nil => rfl
  | cons c bs ih => exact ih (s.writeByte i c) (i + 1)

/-- The host's half of an edge does not read BASE. -/
theorem hostEdge_setBase {a : HostAccess} {s t : State} (b : Word) (h : hostEdge s a = .next t) :
    hostEdge { s with base := b } a = .next { t with base := b } := by
  cases a with
  | quiet | read => cases h; rfl
  | write off n v =>
    have hsame : busTarget { s with base := b } off n = busTarget s off n := rfl
    simp only [hostEdge] at h ⊢
    rw [hsame]
    cases htarget : busTarget s off n with
    | register r =>
      rw [htarget] at h
      cases r
      case cmd => exact exec_setBase b h
      all_goals cases h; rfl
    | buffer i =>
      rw [htarget] at h
      cases h
      refine congrArg Host.Outcome.next ?_
      have hsame : ({ s with base := b } : State).busy = s.busy := rfl
      rw [writeBuffer, writeBuffer, State.writeBytes_setBase, hsame]
      split <;> rfl
    | nowhere =>
      rw [htarget] at h
      cases h
      rfl

/-- Everything the edge of a cycle can answer: the reset edge, or the host's half and then the engine's if it was running. -/
theorem clockEdge_eq_next {s t : State} {x : CycleInput} (h : clockEdge s x = .next t) :
    (x.rst = true ∧ t = s.resetEdge) ∨
      (x.rst = false ∧ ∃ u, hostEdge s x.access = .next u ∧ (if s.busy then engineEdge u x else .next u) = .next t) := by
  cases hr : x.rst
  case true => exact .inl ⟨rfl, by simpa [clockEdge, hr, eq_comm] using h⟩
  case false =>
    simp only [clockEdge, hr, Bool.false_eq_true, if_false] at h
    cases hhost : hostEdge s x.access with
    | next u =>
      rw [hhost] at h
      exact .inr ⟨rfl, u, rfl, h⟩
    | fault => rw [hhost] at h; cases h
    | refused => rw [hhost] at h; cases h

/-- The edge of a cycle does not read BASE. -/
theorem clockEdge_setBase {s t : State} {x : CycleInput} (b : Word) (h : clockEdge s x = .next t) :
    clockEdge { s with base := b } x = .next { t with base := b } := by
  obtain ⟨hr, rfl⟩ | ⟨hr, u, hhost, hengine⟩ := clockEdge_eq_next h
  · exact if_pos hr
  · have hsame : ({ s with base := b } : State).busy = s.busy := rfl
    simp only [clockEdge, hr, Bool.false_eq_true, if_false, hostEdge_setBase b hhost, andThen, hsame]
    cases hb : s.busy <;> simp only [hb, Bool.false_eq_true, if_false, if_true] at hengine ⊢
    · cases hengine
      rfl
    · exact engineEdge_setBase b hengine

/-- The edge of a cycle keeps the parameters. -/
theorem clockEdge_keepsParameters {s t : State} {x : CycleInput} (h : clockEdge s x = .next t) :
    t.base = s.base ∧ t.bufBytes = s.bufBytes := by
  obtain ⟨-, rfl⟩ | ⟨-, u, hhost, hengine⟩ := clockEdge_eq_next h
  · exact ⟨rfl, rfl⟩
  · obtain ⟨-, -, -, hbytes, hbase⟩ := hostEdge_keeps hhost
    split at hengine
    · obtain ⟨hregs, -⟩ := engineEdge_keepsRest hengine
      obtain ⟨-, -, -, hbytes', -⟩ := engineEdge_keepsOperands hengine
      exact ⟨(congrArg HostView.base hregs).trans hbase, hbytes'.trans hbytes⟩
    · cases hengine
      exact ⟨hbase, hbytes⟩

/-- Settles O55: neither half of an edge writes a parameter or reads BASE, and taking BASE off an address is the only use of it. -/
theorem parametersAndBase : Obligations.ParametersAndBase := by
  refine ⟨fun s t hstep => clockEdge_keepsParameters (s := s.sampled) hstep, fun s x rest addr n hinputs => ?_,
    fun s t b x hstep => ?_⟩
  · rw [s.nextInput_cons hinputs, CycleInput.fromBus_access]
    exact ⟨fun ha => by rw [ha]; rfl, fun v ha => by rw [ha]; rfl⟩
  · have hsampled : (({ s with base := b } : State).withInput x).sampled = { (s.withInput x).sampled with base := b } := by
      rw [State.withInput_sampled, State.withInput_sampled]
      rfl
    rw [step, State.withInput_nextInput] at hstep ⊢
    rw [hsampled]
    exact clockEdge_setBase b hstep

end Sys2Proof.Machine
end

section
/-!
The cycles of the engine that read from the stream (43_timed_read.md R240 to R244) and the check of a received block (42_receive.md
R208): O40, O42, O44 and O45.
-/
namespace Sys2Proof.Machine

/-! ## A cycle of a timed read -/

/-- The engine's registers after a cycle of a timed read that starts from these, counted: `took` of the byte that came, otherwise
those of the wait or of the abort with this result (43_timed_read.md R242 to R244). -/
def EngineView.afterRead (e : EngineView) (expired : Bool) (rx : RxResp) (result : Word) (took : Byte → EngineView) :
    EngineView :=
  match rx with
  | .data b => took b
  | .noData => if expired then e.ended .readTimeout result else e
  | .fail => e.ended .readFailed result
  | .closed => e.ended .streamClosed result

/-- A cycle of a timed read answers a next state where what takes the byte does. -/
theorem timedRead_next {s : State} {rx : RxResp} {tick : Bool} {r : Word} {took : Byte → State → Result}
    {view : Byte → EngineView}
    (htook : ∀ b, rx = .data b → ∃ u, took b (s.ticked tick) = .next u ∧ u.engine = view b) :
    ∃ u, timedRead s rx tick r took = .next u ∧
      u.engine = (s.engine.counted tick).afterRead s.timeoutExpired rx r view := by
  cases rx
  case data b => exact htook b rfl
  case noData =>
    rw [timedRead]
    cases s.timeoutExpired <;> exact ⟨_, rfl, rfl⟩
  all_goals exact ⟨_, rfl, rfl⟩

/-- What a byteless cycle of a timed read leaves, with the deadline in the spec's words (43_timed_read.md R242). -/
theorem EngineView.afterRead_noData (s : State) (e : EngineView) (r : Word) (took : Byte → EngineView) :
    e.afterRead s.timeoutExpired .noData r took =
      if s.timeout ≠ 0 ∧ s.elapsed.toNat > s.timeout.toNat then e.ended .readTimeout r else e :=
  if_congr s.timeoutExpired_iff rfl rfl

/-- A read strobe shows in its cycle (20_memory.md R90). -/
theorem step_rxRd_of_timed {s t : State} (hr : s.nextInput.rst = false) (hf : s.fsm = .sAck ∨ s.fsm = .rHdr ∨ s.fsm = .rPay)
    (hstep : step s = .next t) : t.out.rxRd = true := by
  obtain ⟨-, -, hrd⟩ := step_streamOutputs hr hstep
  rw [hrd, s.rxRd_iff]
  tauto

/-- Settles O40: S_ACK is a timed read in which a byte that differs from HDR aborts. -/
theorem sendWithoutAcknowledgment : Obligations.SendWithoutAcknowledgment := by
  intro s hf hr hrx
  obtain ⟨u, hread, hview⟩ := timedRead_next (s := s) (tick := s.nextInput.tick) (r := s.pos)
    (took := fun b s => if b = s.hdr then advanceBlock s s.bsize enterSendBlock else .next (s.abort .ackMismatch s.pos))
    (view := fun _ => (s.engine.counted s.nextInput.tick).ended .ackMismatch s.pos) (rx := s.nextInput.rx)
    fun b hb => ⟨_, if_neg fun heq => hrx (hb.trans (congrArg RxResp.data heq)), rfl⟩
  obtain ⟨t, hstep, hengine, hdone⟩ := step_of_engineEdge (by simp [hf]) hr ((engineEdge_sAck _ _ hf).trans hread)
  refine ⟨t, hstep, step_rxRd_of_timed hr (.inl hf) hstep, hdone, ?_⟩
  rw [hengine, hview]
  cases s.nextInput.rx
  case noData => exact EngineView.afterRead_noData s _ _ _
  all_goals rfl

/-! ## The header byte -/

/-- The engine's registers after a header byte in R_HDR, the size check first (42_receive.md R202 to R204). -/
def EngineView.headerRead (e : EngineView) (rxfail : Word) (b : Byte) : EngineView :=
  let rs := b.toNat % 8 + 1
  let e' := { e with hdr := b, rsize := BitVec.ofNat 4 rs }
  if rs > e.bsize.toNat then e'.ended .sizeExceedsBuffer rxfail
  else if b.getLsbD 3 ≠ e.first then { e' with fsm := .rFlush }
  else { e' with k := 0, elapsed := 0, fsm := .rPay }

/-- R_HDR is a timed read of a header byte (42_receive.md R201 to R204). -/
theorem rHdrEdge_next (s : State) (rx : RxResp) (tick : Bool) :
    ∃ u, rHdrEdge s rx tick = .next u ∧
      u.engine = (s.engine.counted tick).afterRead s.timeoutExpired rx s.rxfail
        ((s.engine.counted tick).headerRead s.rxfail) := by
  refine timedRead_next fun b _ => ?_
  obtain ⟨hsize, -⟩ := everyHeaderByteUnpacks b
  simp only [EngineView.headerRead, ← hsize, BitVec.ofNat_toNat, BitVec.setWidth_eq]
  by_cases hlarge : s.bsize.toNat < (readSize b).toNat
  · exact ⟨_, if_pos hlarge, (if_pos hlarge).symm⟩
  by_cases hfirst : headerFirst b ≠ s.first
  · exact ⟨_, (if_neg hlarge).trans (if_pos hfirst), ((if_neg hlarge).trans (if_pos hfirst)).symm⟩
  · exact ⟨_, (if_neg hlarge).trans (if_neg hfirst), ((if_neg hlarge).trans (if_neg hfirst)).symm⟩

/-- Settles O42: R_HDR is a timed read of a header byte, in the four cases of the response. -/
theorem receiveReadsHeader : Obligations.ReceiveReadsHeader := by
  intro s hf hr e rxfail
  obtain ⟨u, hread, hview⟩ := rHdrEdge_next s s.nextInput.rx s.nextInput.tick
  obtain ⟨t, hstep, hengine, hdone⟩ := step_of_engineEdge (by simp [hf]) hr ((engineEdge_rHdr _ _ hf).trans hread)
  refine ⟨t, hstep, step_rxRd_of_timed hr (.inr (.inl hf)) hstep, hdone, ?_⟩
  rw [hengine, hview]
  cases s.nextInput.rx
  case noData => exact EngineView.afterRead_noData s _ _ _
  all_goals rfl

/-! ## The payload bytes -/

/-- The engine's registers after a payload byte in R_PAY (42_receive.md R206). -/
def EngineView.byteStored (e : EngineView) (b : Byte) : EngineView :=
  let e' := { e with buf := Memory.write e.buf (e.pos.toNat + e.k.toNat) b }
  if e.k.toNat + 1 = e.rsize.toNat then { e' with k := 0, fsm := .rChk }
  else { e' with k := BitVec.ofNat 4 (e.k.toNat + 1) }

/-- R_PAY is a timed read that stores its byte, where the byte's place lies in BUF (42_receive.md R206). -/
theorem rPayEdge_next {s : State} (rx : RxResp) (tick : Bool) (hin : s.pos.toNat + s.k.toNat < s.bufBytes)
    (hk : s.k.toNat < s.rsize.toNat) :
    ∃ u, rPayEdge s rx tick = .next u ∧
      u.engine = (s.engine.counted tick).afterRead s.timeoutExpired rx s.rxfail (s.engine.counted tick).byteStored := by
  obtain ⟨-, hlast⟩ := succ_nibble hk
  refine timedRead_next fun b _ => ?_
  by_cases h : s.k.toNat + 1 = s.rsize.toNat
  · exact ⟨_, (if_pos hin).trans (if_pos (hlast.2 h)), (if_pos h).symm⟩
  · refine ⟨_, (if_pos hin).trans (if_neg (mt hlast.1 h)), Eq.trans ?_ (if_neg h).symm⟩
    rw [← succ_nibble_eq_ofNat]
    rfl

/-- The byte of a DATA response is the cycle's `rx_data` (20_memory.md R92). -/
theorem CycleInput.rxData_eq {x : CycleInput} {b : Byte} (h : x.rx = .data b) : x.rxData = b := by
  rw [CycleInput.rx] at h
  obtain hc | hc | hc | hc | hc | hc | hc | hc := code3_cases x.rxPins <;> rw [hc] at h <;> cases h
  rfl

/-- In R_PAY the place of the coming byte lies below LEN, and LEN in BUF (10_state.md R56). -/
theorem State.Inv.rPay_index {s : State} (hinv : s.Inv) (hf : s.fsm = .rPay) :
    s.pos.toNat + s.k.toNat < s.len.toNat ∧ s.len.toNat ≤ s.bufBytes := by
  obtain ⟨hblock, hlen⟩ := hinv.block_bounds (by simp [hf])
  obtain ⟨-, hle, -⟩ := hinv.blockRead (.inl hf)
  have hk := hinv.k_lt_rsize hf
  omega

/-- Settles O44: the invariant puts POS + K below LEN, so R_PAY is a timed read that stores its byte there. -/
theorem receiveStoresPayload : Obligations.ReceiveStoresPayload := by
  intro s hinv hf hr e rxfail i
  have hbusy : s.fsm ≠ .idle := by simp [hf]
  obtain ⟨hi, hlen⟩ := hinv.rPay_index hf
  obtain ⟨u, hread, hview⟩ :=
    rPayEdge_next s.nextInput.rx s.nextInput.tick (hi.trans_le hlen) (hinv.k_lt_rsize hf)
  obtain ⟨t, hstep, hengine, hdone⟩ := step_of_engineEdge hbusy hr ((engineEdge_rPay _ _ hf).trans hread)
  obtain ⟨-, -, -, -, hepoch, hbuf⟩ := step_busy_keepsOperands hbusy hr hstep
  refine ⟨hi, t, hstep, step_rxRd_of_timed hr (.inr (.inr hf)) hstep, hdone, fun a => ?bytes, ?view⟩
  case bytes =>
    cases hrx : s.nextInput.rx
    case data b =>
      rw [hrx, State.bufAfter_rPay_data b hf] at hbuf
      rw [State.bufByte_of_write hepoch hbuf, CycleInput.rxData_eq hrx]
      simp [i]
    all_goals
      rw [hrx] at hbuf
      rw [State.bufByte_of_eq hepoch (hbuf.trans (State.bufAfter_of_not_data (by simp)))]
      simp
  case view =>
    rw [hengine, hview]
    cases hrx : s.nextInput.rx
    case noData => exact EngineView.afterRead_noData s _ _ _
    case data b =>
      rw [hrx, State.bufAfter_rPay_data b hf] at hbuf
      rw [hbuf]
      rfl
    all_goals rfl

/-! ## The check of a block -/

/-- A header's other fields given, packing gives the header exactly when the checksums agree (40_codec.md R141, R142). -/
theorem enc_eq_some_iff {p : List Byte} {n : Nat} {h : Byte} (h1 : 1 ≤ n) (h8 : n ≤ 8)
    (hcode : (headerSizeCode h).toNat = n - 1) : enc p n (headerFirst h) = some h ↔ crc4 p n = headerCk h := by
  have hsize : BitVec.ofNat 3 (n - 1) = headerSizeCode h := by rw [← hcode, BitVec.ofNat_toNat, BitVec.setWidth_eq]
  rw [enc_eq_some p n _ h1 h8, packHeader, hsize, Option.some.injEq]
  constructor
  · intro heq
    rw [← heq]
    exact (congrArg Prod.fst (dec_append (crc4 p n) (headerFirst h) (headerSizeCode h))).symm
  · intro hck
    rw [hck]
    exact append_dec h

/-- R_CHK answers a next state where the block lies in BUF (42_receive.md R208). -/
theorem rChkEdge_next {s : State} (hin : s.pos.toNat + s.rsize.toNat ≤ s.bufBytes) :
    ∃ u, rChkEdge s = .next u ∧
      u.engine =
        if enc (s.bufBlock s.pos.toNat s.rsize.toNat) s.rsize.toNat s.first = some s.hdr then { s.engine with fsm := .rAck }
        else s.engine.ended .checksumMismatch s.rxfail := by
  by_cases h : enc (s.bufBlock s.pos.toNat s.rsize.toNat) s.rsize.toNat s.first = some s.hdr
  · exact ⟨_, (if_pos hin).trans (if_pos h), (if_pos h).symm⟩
  · exact ⟨_, (if_pos hin).trans (if_neg h), (if_neg h).symm⟩

/-- Settles O45: the invariant puts the block in BUF and fixes the header's other fields, so the check is one of the checksum. -/
theorem receiveChecksBlock : Obligations.ReceiveChecksBlock := by
  intro s hinv hf hr n p
  have hbusy : s.fsm ≠ .idle := by simp [hf]
  obtain ⟨h1, hle, hfirst, hcode⟩ := hinv.blockRead (.inr (.inl hf))
  obtain ⟨-, h8, -⟩ := hinv.running hbusy
  rw [Config.maxBlock_eq] at h8
  obtain ⟨hblock, hlen⟩ := hinv.block_bounds hbusy
  obtain ⟨u, hedge, hview⟩ := rChkEdge_next (s := s) (by omega)
  obtain ⟨t, hstep, hengine, hdone⟩ := step_of_engineEdge hbusy hr ((engineEdge_rChk _ _ hf).trans hedge)
  obtain ⟨hvalid, -, hrd⟩ := step_streamOutputs hr hstep
  refine ⟨?_, t, hstep, ?_, ?_, hdone, hengine.trans hview⟩
  · rw [← hfirst]
    exact not_congr (enc_eq_some_iff h1 (hle.trans h8) hcode)
  · simp [hvalid, State.txValid, hf]
  · simp [hrd, State.rxRd, hf]

end Sys2Proof.Machine
end

section
/-!
The deadline of a timed read (43_timed_read.md R242, R248): against a stream that answers NODATA the read waits while ELAPSED, which
counts the ticks, is at most TIMEOUT, and aborts in the cycle that starts above it. O50 and O51.
-/
namespace Sys2Proof.Machine

/-! ## Cycles by their inputs -/

/-- A step takes its cycle's inputs off the list. -/
theorem inputs_after {s t : State} {x : CycleInput} {l : List CycleInput} (h : s.inputs = x :: l) (hstep : step s = .next t) :
    t.inputs = l := by
  obtain ⟨-, -, htail⟩ := step_keeps hstep
  rw [htail, h, List.tail_cons]

theorem nextInput_rst {s : State} {x : CycleInput} {l : List CycleInput} (h : s.inputs = x :: l) :
    s.nextInput.rst = x.rst := by
  rw [s.nextInput_cons h, CycleInput.fromBus_rst]

theorem nextInput_tx {s : State} {x : CycleInput} {l : List CycleInput} (h : s.inputs = x :: l) : s.nextInput.tx = x.tx := by
  rw [s.nextInput_cons h, CycleInput.fromBus_tx]

theorem nextInput_rx {s : State} {x : CycleInput} {l : List CycleInput} (h : s.inputs = x :: l) : s.nextInput.rx = x.rx := by
  rw [s.nextInput_cons h, CycleInput.fromBus_rx]

/-! ## One cycle -/

/-- A cycle without reset in which the stream answers NODATA. -/
def CycleInput.Silent (x : CycleInput) : Prop := x.rst = false ∧ x.rx = .noData

theorem FsmState.ne_idle_of_timed {f : FsmState} (h : f.timed = true) : f ≠ .idle := by
  rintro rfl
  cases h

/-- While ELAPSED is at most TIMEOUT the read waits, and ELAPSED counts the tick (43_timed_read.md R241, R242). -/
theorem step_silent_waits {s : State} {x : CycleInput} {l : List CycleInput} (hinputs : s.inputs = x :: l) (hx : x.Silent)
    (hf : s.fsm.timed = true) (he : s.elapsed.toNat ≤ s.timeout.toNat) :
    ∃ t, step s = .next t ∧ t.engine = { s.engine with elapsed := t.elapsed } ∧
      t.elapsed.toNat = s.elapsed.toNat + x.tick.toNat ∧ t.inputs = l := by
  obtain ⟨hr, hrx⟩ := hx
  have htick : s.nextInput.tick = x.tick := by rw [s.nextInput_cons hinputs, CycleInput.fromBus_tick]
  have hexpired : s.timeoutExpired = false := by
    rw [← Bool.not_eq_true, s.timeoutExpired_iff]
    omega
  obtain ⟨t, hstep, hengine, -⟩ := step_of_engineEdge (FsmState.ne_idle_of_timed hf)
    ((nextInput_rst hinputs).trans hr)
    (engineEdge_noData_of_not_expired hf hexpired ((nextInput_rx hinputs).trans hrx))
  have helapsed : t.elapsed = countTick s.elapsed s.nextInput.tick := congrArg EngineView.elapsed hengine
  refine ⟨t, hstep, ?_, ?_, inputs_after hinputs hstep⟩
  · rw [hengine, helapsed]
    rfl
  · have htimeout := s.timeout.isLt
    have hone := Bool.toNat_le x.tick
    rw [helapsed, countTick_toNat, htick]
    omega

/-- The RESULT of a timed-out read: SEND gives POS, and RECEIVE gives POS in the reporting mode (41_send.md R176, 42_receive.md
R215). -/
def State.timeoutResult (s : State) : Word := if s.fsm = .sAck ∨ s.rxPartial = true then s.pos else 0

/-- Once ELAPSED is above TIMEOUT the three timed-read states abort alike (43_timed_read.md R243). -/
theorem engineEdge_noData_of_expired {s : State} {x : CycleInput} (hf : s.fsm.timed = true) (hrx : x.rx = .noData)
    (hexpired : s.timeoutExpired = true) :
    engineEdge s x = .next ((s.ticked x.tick).abort .readTimeout s.timeoutResult) := by
  have hread (r : Word) (took : Byte → State → Result) :
      timedRead s x.rx x.tick r took = .next ((s.ticked x.tick).abort .readTimeout r) := by
    simp [timedRead, hrx, hexpired, State.ticked]
  obtain hf | hf | hf := s.fsm.timed_iff.1 hf
  · rw [engineEdge_sAck _ _ hf, sAckEdge, hread, State.timeoutResult, if_pos (.inl hf)]
  · rw [engineEdge_rHdr _ _ hf, rHdrEdge, hread]
    simp [State.timeoutResult, State.rxfail, hf]
  · rw [engineEdge_rPay _ _ hf, rPayEdge, hread]
    simp [State.timeoutResult, State.rxfail, hf]

/-- In the cycle that starts with ELAPSED above TIMEOUT the read aborts (43_timed_read.md R242, R243). -/
theorem step_silent_aborts {s : State} {x : CycleInput} {l : List CycleInput} (hinputs : s.inputs = x :: l) (hx : x.Silent)
    (hf : s.fsm.timed = true) (h0 : s.timeout ≠ 0) (he : s.timeout.toNat < s.elapsed.toNat) :
    ∃ t, step s = .next t ∧ t.fsm = .idle ∧ t.err = .readTimeout ∧ t.done = true ∧ t.result = s.timeoutResult := by
  obtain ⟨hr, hrx⟩ := hx
  obtain ⟨t, hstep, hengine, hdone⟩ := step_of_engineEdge (FsmState.ne_idle_of_timed hf)
    ((nextInput_rst hinputs).trans hr)
    (engineEdge_noData_of_expired hf ((nextInput_rx hinputs).trans hrx) (s.timeoutExpired_iff.2 ⟨h0, he⟩))
  have hidle : t.fsm = .idle := congrArg EngineView.fsm hengine
  exact ⟨t, hstep, hidle, congrArg EngineView.err hengine, hdone hidle, congrArg EngineView.result hengine⟩

/-! ## Runs -/

/-- The read waits through silent cycles for as long as their ticks do not take ELAPSED above TIMEOUT. -/
theorem run_silent_waits (l : List CycleInput) {s : State} {rest : List CycleInput} (hinputs : s.inputs = l ++ rest)
    (hl : ∀ x ∈ l, x.Silent) (hf : s.fsm.timed = true) (he : s.elapsed.toNat + ticksIn l ≤ s.timeout.toNat) :
    ∃ t, core.run l.length s = .next t ∧ t.engine = { s.engine with elapsed := t.elapsed } ∧
      t.elapsed.toNat = s.elapsed.toNat + ticksIn l ∧ t.inputs = rest := by
  induction l generalizing s with
  | nil => exact ⟨s, run_zero s, rfl, rfl, hinputs⟩
  | cons x l ih =>
    rw [ticksIn_cons] at he
    obtain ⟨u, hstep, hengine, helapsed, hrest⟩ :=
      step_silent_waits hinputs (hl x List.mem_cons_self) hf (by omega)
    have hfsm : u.fsm = s.fsm := congrArg EngineView.fsm hengine
    have htimeout : u.timeout = s.timeout := congrArg EngineView.timeout hengine
    obtain ⟨t, hrun, hengine', helapsed', hrest'⟩ :=
      ih hrest (fun y hy => hl y (List.mem_cons_of_mem x hy)) (hfsm ▸ hf) (by rw [htimeout]; omega)
    refine ⟨t, (run_succ l.length hstep).trans hrun, ?_, by rw [ticksIn_cons]; omega, hrest'⟩
    rw [hengine', hengine]

/-- A part of the cycles carries no more ticks than all of them. -/
theorem ticksIn_take_le (l : List CycleInput) (m : Nat) : ticksIn (l.take m) ≤ ticksIn l := by
  calc ticksIn (l.take m)
    _ ≤ ticksIn (l.take m) + ticksIn (l.drop m) := Nat.le_add_right ..
    _ = ticksIn l := by rw [← ticksIn_append, List.take_append_drop]

/-- Settles O50: through l and the cycle of the last tick ELAPSED is at most TIMEOUT at the start of every cycle, and after it
TIMEOUT + 1. -/
theorem timedReadDeadline : Obligations.TimedReadDeadline := by
  intro s l rest last after hf h0 hT hinputs hsilent hticks hlast
  have hl : ∀ x ∈ l, x.Silent := fun x hx => hsilent x (List.mem_append_left _ hx)
  have helapsed0 : s.elapsed.toNat = 0 := by rw [h0]; rfl
  obtain ⟨u, hrunU, hengineU, helapsedU, hinputsU⟩ := run_silent_waits l hinputs hl hf (by omega)
  have hfsmU : u.fsm = s.fsm := congrArg EngineView.fsm hengineU
  have htimeoutU : u.timeout = s.timeout := congrArg EngineView.timeout hengineU
  obtain ⟨v, hstepV, hengineV, helapsedV, hinputsV⟩ :=
    step_silent_waits hinputsU (hsilent last (by simp)) (hfsmU ▸ hf) (by rw [htimeoutU]; omega)
  rw [hlast, Bool.toNat_true] at helapsedV
  have hrunV : core.run (l.length + 1) s = .next v :=
    (run_add l.length 1 s u hrunU).trans ((run_succ 0 hstepV).trans (run_zero v))
  have hengine : v.engine = { s.engine with elapsed := v.elapsed } := by rw [hengineV, hengineU]
  have hfsmV : v.fsm = s.fsm := congrArg EngineView.fsm hengine
  have htimeoutV : v.timeout = s.timeout := congrArg EngineView.timeout hengine
  have hpos : v.pos = s.pos := congrArg EngineView.pos hengine
  have hpartial : v.rxPartial = s.rxPartial := congrArg EngineView.rxPartial hengine
  refine ⟨fun m hm => ?waits, ?aborts⟩
  case waits =>
    obtain rfl | hm : m = l.length + 1 ∨ m ≤ l.length := by omega
    · exact ⟨v, hrunV, hfsmV⟩
    · have hpart : s.inputs = l.take m ++ (l.drop m ++ last :: after :: rest) := by
        rw [← List.append_assoc, List.take_append_drop, hinputs]
      have hle := ticksIn_take_le l m
      obtain ⟨t, hrun, hengine, -⟩ := run_silent_waits (l.take m) hpart (fun x hx => hl x (List.mem_of_mem_take hx)) hf
        (by omega)
      rw [List.length_take_of_le hm] at hrun
      exact ⟨t, hrun, congrArg EngineView.fsm hengine⟩
  case aborts =>
    obtain ⟨t, hstep, hidle, herr, hdone, hresult⟩ :=
      step_silent_aborts hinputsV (hsilent after (by simp)) (hfsmV ▸ hf) (htimeoutV ▸ hT) (by rw [htimeoutV]; omega)
    have hrun := (run_add (l.length + 1) 1 s v hrunV).trans ((run_succ 0 hstep).trans (run_zero t))
    refine ⟨t, hrun, hidle, herr, hdone, ?_⟩
    rw [hresult, State.timeoutResult, hfsmV, hpos, hpartial]

/-! ## The tick source -/

/-- The first m cycles of a tick source carry one tick for each place of the phase below m. -/
theorem ticksIn_take_eq_count {period phase : Nat} {l : List CycleInput} (hsource : tickSource period phase l) {m : Nat}
    (hm : m ≤ l.length) : ticksIn (l.take m) = Nat.count (· ≡ phase [MOD period]) m := by
  obtain ⟨hphase, htick⟩ := hsource
  induction m with
  | zero => simp [ticksIn]
  | succ m ih =>
    have hlt : m < l.length := hm
    have hx := htick m l[m] (List.getElem?_eq_getElem hlt)
    rw [List.take_succ_eq_append_getElem hlt, ticksIn_append, ih hlt.le, Nat.count_succ, ticksIn_cons, hx]
    simp [ticksIn, Nat.ModEq, Nat.mod_eq_of_lt hphase, Bool.toNat]

/-- Before the tick of its period number T a tick source has given T ticks. -/
theorem ticksIn_take_of_tickSource {period phase : Nat} {l : List CycleInput} (hsource : tickSource period phase l) (T : Nat)
    (hlen : T * period + phase ≤ l.length) : ticksIn (l.take (T * period + phase)) = T := by
  have hphase : phase < period := by
    obtain ⟨hphase, -⟩ := hsource
    exact hphase
  rw [ticksIn_take_eq_count hsource hlen, Nat.count_modEq_card _ (by omega), Nat.mul_comm T, Nat.mul_add_div (by omega),
    Nat.div_eq_of_lt hphase, Nat.mul_add_mod, Nat.mod_eq_of_lt hphase]
  simp

/-- Settles O51: the (T+1)-th tick comes in cycle T * period + phase, so the read's deadline is O50's with the cycles before it. -/
theorem timedReadTimeBound : Obligations.TimedReadTimeBound := by
  intro s period phase l rest hf h0 hT hinputs hlen hsource hsilent
  have ⟨hphase, htick⟩ := hsource
  have hbound : (s.timeout.toNat + 1) * period = s.timeout.toNat * period + period := Nat.succ_mul ..
  have hi : s.timeout.toNat * period + phase + 1 < l.length := by omega
  have hticks := ticksIn_take_of_tickSource hsource s.timeout.toNat (by omega)
  generalize hplace : s.timeout.toNat * period + phase = i at hi hticks
  have hlast : l[i].tick = true := by
    rw [htick i l[i] (List.getElem?_eq_getElem (by omega)), ← hplace, Nat.mul_comm]
    simp [Nat.mod_eq_of_lt hphase]
  have hsplit : l = l.take i ++ l[i] :: l[i + 1] :: l.drop (i + 2) := by
    rw [← List.drop_eq_getElem_cons, ← List.drop_eq_getElem_cons, List.take_append_drop]
  have hcycles : ∀ x ∈ l.take i ++ [l[i], l[i + 1]], x.rst = false ∧ x.rx = .noData := by
    intro x hx
    refine hsilent x ?_
    rw [List.mem_append, List.mem_pair] at hx
    obtain hx | rfl | rfl := hx
    · exact List.mem_of_mem_take hx
    · exact List.getElem_mem _
    · exact List.getElem_mem _
  have hinputs' : s.inputs = l.take i ++ l[i] :: l[i + 1] :: (l.drop (i + 2) ++ rest) :=
    (hinputs.trans (congrArg (· ++ rest) hsplit)).trans (by simp only [List.append_assoc, List.cons_append])
  obtain ⟨hwaits, t, hrun, hidle, herr, hdone, -⟩ :=
    timedReadDeadline s (l.take i) _ _ _ hf h0 hT hinputs' hcycles hticks hlast
  rw [List.length_take_of_le (by omega)] at hwaits hrun
  exact ⟨i + 2, by omega, by omega, fun m hm => hwaits m (by omega), t, hrun, hidle, herr, hdone⟩

end Sys2Proof.Machine
end

section
/-!
Runs with the bytes they move on the stream, and SEND against a peer that accepts and echoes at once (70_reset_and_hazards.md section
4, 41_send.md): one block and a whole transfer. O57 and O58.
-/
namespace Sys2Proof.Machine

/-! ## Runs with the bytes they move -/

/-- n cycles lead from s to t, put these bytes on the stream and take these from it. -/
def Runs (n : Nat) (s : State) (sent consumed : List Byte) (t : State) : Prop :=
  core.run n s = .next t ∧ sentDuring n s = sent ∧ consumedDuring n s = consumed

/-- Two runs, one after the other. -/
theorem Runs.trans {a b : Nat} {s u t : State} {x y x' y' : List Byte} (h : Runs a s x y u) (h' : Runs b u x' y' t) :
    Runs (a + b) s (x ++ x') (y ++ y') t := by
  obtain ⟨hrun, hsent, hconsumed⟩ := h
  obtain ⟨hrun', hsent', hconsumed'⟩ := h'
  obtain ⟨hsents, hconsumeds⟩ := during_add a b s u hrun
  exact ⟨(run_add a b s u hrun).trans hrun', by rw [hsents, hsent, hsent'], by rw [hconsumeds, hconsumed, hconsumed']⟩

/-- One cycle. -/
theorem Runs.one {s t : State} (hstep : step s = .next t) :
    Runs 1 s (sentByte s s.nextInput).toList (consumedByte s s.nextInput).toList t := by
  refine ⟨(run_succ 0 hstep).trans (run_zero t), ?_, ?_⟩
  · rw [sentDuring_succ 0 hstep]
    exact List.append_nil _
  · rw [consumedDuring_succ 0 hstep]
    exact List.append_nil _

section Cycle
variable {s t : State} (hstep : step s = .next t)
include hstep

/-- A cycle in which the byte offered is accepted. -/
theorem Runs.ofAccept (hvalid : s.txValid = true) (hr : s.nextInput.rst = false) (htx : s.nextInput.tx = .accept) :
    Runs 1 s [s.txData] [] t := by
  have hrd : s.rxRd = false := by
    obtain hf | hf | hf := s.txValid_iff.1 hvalid <;> simp [State.rxRd, hf]
  have hsent : sentByte s s.nextInput = some s.txData :=
    (sentByte_eq_some_iff ..).2 ⟨by simp [hvalid, hr], htx, rfl⟩
  have hconsumed : consumedByte s s.nextInput = none := by simp [consumedByte, hrd]
  have hone := Runs.one hstep
  rwa [hsent, hconsumed] at hone

/-- A cycle in which a byte is read. -/
theorem Runs.ofData {b : Byte} (hrd : s.rxRd = true) (hr : s.nextInput.rst = false) (hrx : s.nextInput.rx = .data b) :
    Runs 1 s [] [b] t := by
  have hvalid : s.txValid = false := by
    obtain hf | hf | hf | hf := s.rxRd_iff.1 hrd <;> simp [State.txValid, hf]
  have hsent : sentByte s s.nextInput = none := by simp [sentByte, hvalid]
  have hconsumed : consumedByte s s.nextInput = some b := (consumedByte_eq_some_iff ..).2 ⟨by simp [hrd, hr], hrx⟩
  have hone := Runs.one hstep
  rwa [hsent, hconsumed] at hone

/-- A cycle of the check of a received block, in which neither side of the stream is active (42_receive.md R208). -/
theorem Runs.ofCheck (hf : s.fsm = .rChk) : Runs 1 s [] [] t := by
  have hsent : sentByte s s.nextInput = none := by simp [sentByte, State.txValid, hf]
  have hconsumed : consumedByte s s.nextInput = none := by simp [consumedByte, State.rxRd, hf]
  have hone := Runs.one hstep
  rwa [hsent, hconsumed] at hone

end Cycle

/-! ## Blocks of BUF -/

theorem State.length_bufBlock (s : State) (a n : Nat) : (s.bufBlock a n).length = n := by
  simp [State.bufBlock]

theorem State.bufBlock_zero (s : State) (a : Nat) : s.bufBlock a 0 = [] := rfl

theorem State.bufBlock_succ (s : State) (a n : Nat) : s.bufBlock a (n + 1) = s.bufByte a :: s.bufBlock (a + 1) n := by
  simp [State.bufBlock, List.range_succ_eq_map, Function.comp_def, Nat.add_right_comm, Nat.add_assoc]

theorem State.take_bufBlock (s : State) (a : Nat) {m n : Nat} (h : m ≤ n) : (s.bufBlock a n).take m = s.bufBlock a m := by
  rw [State.bufBlock, ← List.map_take, List.take_range, Nat.min_eq_left h, State.bufBlock]

theorem State.drop_bufBlock (s : State) (a m n : Nat) : (s.bufBlock a n).drop m = s.bufBlock (a + m) (n - m) := by
  refine List.ext_getElem (by simp [State.bufBlock]) fun i _ _ => ?_
  simp [State.bufBlock, Nat.add_assoc]

/-- Equal bytes make equal blocks. -/
theorem State.bufBlock_of_bufByte {s t : State} (h : t.bufByte = s.bufByte) : t.bufBlock = s.bufBlock := by
  funext a n
  simp only [State.bufBlock, h]

/-! ## The end of a block -/

/-- From s to t a block of n bytes is done: POS has grown by n, and the command has finished or goes on in `next` with the following
block (41_send.md R177, R178; 42_receive.md R212, R213). -/
def State.BlockDone (s : State) (n : Nat) (next : FsmState) (t : State) : Prop :=
  t.pos.toNat = s.pos.toNat + n ∧ t.first = false ∧ t.len = s.len ∧
    if t.pos = s.len then t.fsm = .idle ∧ t.err = .noError ∧ t.result = s.len ∧ t.done = true else t.fsm = next

section BlockDone
variable {s t : State} {n : Nat} {next : FsmState} (hlen : t.len = s.len)
include hlen

/-- The last block ends the command with LEN. -/
theorem State.BlockDone.finished {e : EngineView} (h : s.pos.toNat + n = s.len.toNat)
    (hengine : t.engine = { e with pos := s.len, first := false, err := .noError, result := s.len, fsm := .idle })
    (hdone : t.done = true) : s.BlockDone n next t := by
  have hpos : t.pos = s.len := congrArg EngineView.pos hengine
  refine ⟨by rw [hpos, h], congrArg EngineView.first hengine, hlen, ?_⟩
  rw [if_pos hpos]
  exact ⟨congrArg EngineView.fsm hengine, congrArg EngineView.err hengine, congrArg EngineView.result hengine, hdone⟩

/-- An earlier block leaves POS below LEN. -/
theorem State.BlockDone.goesOn (h : s.pos.toNat + n < s.len.toNat) (hpos : t.pos = BitVec.ofNat 32 (s.pos.toNat + n))
    (hfirst : t.first = false) (hfsm : t.fsm = next) : s.BlockDone n next t := by
  have hposNat : t.pos.toNat = s.pos.toNat + n := by
    rw [hpos]
    exact (BitVec.toNat_ofNat ..).trans (Nat.mod_eq_of_lt (h.trans s.len.isLt))
  refine ⟨hposNat, hfirst, hlen, ?_⟩
  rw [if_neg fun heq => by rw [heq] at hposNat; omega]
  exact hfsm

end BlockDone

/-- Every cycle of a state of the invariant completes, and leaves such a state. -/
theorem State.Inv.exists_step {s : State} (hinv : s.Inv) : ∃ t, step s = .next t ∧ t.Inv := safeStateAlwaysSteps s hinv

/-- A busy cycle leaves BUF as it is but in R_PAY (42_receive.md R206). -/
theorem bufByte_after {s t : State} (hbusy : s.fsm ≠ .idle) (hf : s.fsm ≠ .rPay) (hr : s.nextInput.rst = false)
    (hstep : step s = .next t) : t.bufByte = s.bufByte := by
  obtain ⟨-, -, -, -, hepoch, hbuf⟩ := step_busy_keepsOperands hbusy hr hstep
  exact funext fun a => State.bufByte_of_eq hepoch (hbuf.trans (s.bufAfter_of_ne_rPay _ hf)) a

/-! ## The cycles of a block of SEND -/

section SendCycles
variable {s t : State} (hr : s.nextInput.rst = false) (hstep : step s = .next t)
include hr hstep

theorem engine_after_sHdr (hf : s.fsm = .sHdr) (htx : s.nextInput.tx = .accept) :
    t.engine = { s.engine with k := 0, fsm := .sPay } := by
  obtain ⟨u, hu, -, -, -, hengine⟩ := sendOffersHeader s hf hr
  cases hu.symm.trans hstep
  rw [htx] at hengine
  exact hengine

theorem engine_after_sPay (hinv : s.Inv) (hf : s.fsm = .sPay) (htx : s.nextInput.tx = .accept) :
    t.engine =
      if s.k.toNat + 1 = s.bsize.toNat then { s.engine with k := 0, elapsed := 0, fsm := .sAck }
      else { s.engine with k := BitVec.ofNat 4 (s.k.toNat + 1) } := by
  obtain ⟨u, hu, -, -, -, hengine⟩ := sendOffersPayload s hinv hf hr
  cases hu.symm.trans hstep
  rw [htx] at hengine
  exact hengine

/-- The acknowledgment ends the block and leaves BUF as it is (41_send.md R177). -/
theorem blockDone_after_sAck (hinv : s.Inv) (hf : s.fsm = .sAck) (hrx : s.nextInput.rx = .data s.hdr) :
    s.BlockDone s.bsize.toNat .sHdr t ∧ t.bufByte = s.bufByte := by
  obtain ⟨hle, u, hu, hlast, hmore⟩ := sendAdvancesBlock s hinv hf hr hrx
  cases hu.symm.trans hstep
  obtain ⟨hlen, -⟩ := step_busy_keepsOperands (by simp [hf]) hr hstep
  refine ⟨?_, bufByte_after (by simp [hf]) (by simp [hf]) hr hstep⟩
  by_cases h : s.pos.toNat + s.bsize.toNat = s.len.toNat
  case pos =>
    obtain ⟨hengine, hdone⟩ := hlast h
    exact .finished hlen h hengine hdone
  case neg =>
    obtain ⟨hdr, -, hengine⟩ := hmore h
    exact .goesOn hlen (lt_of_le_of_ne hle h) (congrArg EngineView.pos hengine) (congrArg EngineView.first hengine)
      (congrArg EngineView.fsm hengine)

end SendCycles

/-! ## One block of SEND -/

/-- K + 1 counts on inside a block (10_state.md R51). -/
theorem count_toNat {k b : Nibble} (h : k.toNat < b.toNat) : (BitVec.ofNat 4 (k.toNat + 1)).toNat = k.toNat + 1 :=
  (BitVec.toNat_ofNat ..).trans (Nat.mod_eq_of_lt (by have := b.isLt; omega))

/-- The payload bytes from K on go out in index order, one in each cycle (41_send.md R173). -/
theorem run_sPay (n : Nat) {s : State} {m : Nat} (hinv : s.Inv) (hf : s.fsm = .sPay) (hn : s.k.toNat + n = s.bsize.toNat)
    (hpeer : echoingPeer (n + m) s) :
    ∃ t, Runs n s (s.bufBlock (s.pos.toNat + s.k.toNat) n) [] t ∧ t.Inv ∧ echoingPeer m t ∧
      t.engine = { s.engine with k := 0, elapsed := 0, fsm := .sAck } := by
  have hk := hinv.k_lt_bsize hf
  induction n generalizing s with
  | zero => omega
  | succ n ih =>
    rw [Nat.add_right_comm] at hpeer
    obtain ⟨hr, htx, -, hnext⟩ := hpeer
    have hvalid : s.txValid = true := s.txValid_iff.2 (.inr (.inl hf))
    obtain ⟨u, hstep, huInv⟩ := hinv.exists_step
    have hone := Runs.ofAccept hstep hvalid hr (htx hvalid)
    have hengine := engine_after_sPay hr hstep hinv hf (htx hvalid)
    rw [State.txData_payload hf] at hone
    rw [State.bufBlock_succ]
    by_cases hlast : s.k.toNat + 1 = s.bsize.toNat
    case pos =>
      obtain rfl : n = 0 := by omega
      rw [if_pos hlast] at hengine
      have hpeer := hnext u hstep
      rw [Nat.zero_add] at hpeer
      exact ⟨u, hone, huInv, hpeer, hengine⟩
    case neg =>
      rw [if_neg hlast] at hengine
      have hbytes := bufByte_after (by simp [hf]) (by simp [hf]) hr hstep
      have hpos : u.pos = s.pos := congrArg EngineView.pos hengine
      have hbsize : u.bsize = s.bsize := congrArg EngineView.bsize hengine
      have hfsm : u.fsm = .sPay := (congrArg EngineView.fsm hengine).trans hf
      have hcount : u.k.toNat = s.k.toNat + 1 :=
        (congrArg (fun e : EngineView => e.k.toNat) hengine).trans (count_toNat hk)
      obtain ⟨t, hrun, htInv, hpeer, hengine'⟩ :=
        ih huInv hfsm (by rw [hcount, hbsize]; omega) (hnext u hstep) (huInv.k_lt_bsize hfsm)
      refine ⟨t, ?_, htInv, hpeer, by rw [hengine', hengine]⟩
      have hboth := hone.trans hrun
      rwa [State.bufBlock_of_bufByte hbytes, hpos, hcount, Nat.add_comm 1 n, ← Nat.add_assoc] at hboth

/-- One block of SEND against a peer that accepts and echoes at once: header, payload, acknowledgment (70_reset_and_hazards.md
section 4). -/
theorem run_sendBlock {s : State} {m : Nat} (hinv : s.Inv) (hf : s.fsm = .sHdr)
    (hpeer : echoingPeer (s.bsize.toNat + 2 + m) s) :
    ∃ t, Runs (s.bsize.toNat + 2) s (s.hdr :: s.bufBlock s.pos.toNat s.bsize.toNat) [s.hdr] t ∧ t.Inv ∧ echoingPeer m t ∧
      s.BlockDone s.bsize.toNat .sHdr t ∧ t.bufByte = s.bufByte := by
  rw [show s.bsize.toNat + 2 + m = s.bsize.toNat + (m + 1) + 1 by omega] at hpeer
  obtain ⟨hr, htx, -, hnext⟩ := hpeer
  have hvalid : s.txValid = true := s.txValid_iff.2 (.inl hf)
  obtain ⟨u, hstepU, huInv⟩ := hinv.exists_step
  have hheader := Runs.ofAccept hstepU hvalid hr (htx hvalid)
  rw [State.txData_header (.inl hf)] at hheader
  have hengineU := engine_after_sHdr hr hstepU hf (htx hvalid)
  have hbytesU := bufByte_after (by simp [hf]) (by simp [hf]) hr hstepU
  have hposU : u.pos = s.pos := congrArg EngineView.pos hengineU
  have hbsizeU : u.bsize = s.bsize := congrArg EngineView.bsize hengineU
  have hkU : u.k = 0 := congrArg EngineView.k hengineU
  obtain ⟨v, hpayload, hvInv, ⟨hr, -, hrx, hnextV⟩, hengineV⟩ :=
    run_sPay s.bsize.toNat huInv (congrArg EngineView.fsm hengineU) (by simp [hkU, hbsizeU]) (hnext u hstepU)
  rw [hengineU] at hengineV
  have hfV : v.fsm = .sAck := congrArg EngineView.fsm hengineV
  have hhdrV : v.hdr = s.hdr := congrArg EngineView.hdr hengineV
  have hbsizeV : v.bsize = s.bsize := congrArg EngineView.bsize hengineV
  have hposV : v.pos = s.pos := congrArg EngineView.pos hengineV
  have hlenV : v.len = s.len := congrArg EngineView.len hengineV
  have hbytesV : v.bufByte = s.bufByte := funext fun a =>
    State.bufByte_of_eq (congrArg EngineView.bufEpoch hengineV) (congrArg EngineView.buf hengineV) a
  obtain ⟨t, hstepT, htInv⟩ := hvInv.exists_step
  have hack := Runs.ofData hstepT (v.rxRd_iff.2 (.inl hfV)) hr (hrx hfV)
  obtain ⟨hdone, hbytesT⟩ := blockDone_after_sAck hr hstepT hvInv hfV (hrx hfV)
  rw [State.BlockDone, hposV, hlenV, hbsizeV] at hdone
  have hrun := hheader.trans (hpayload.trans hack)
  rw [State.bufBlock_of_bufByte hbytesU, hposU, hkU, hhdrV, Nat.add_comm 1, List.append_nil] at hrun
  exact ⟨t, hrun, htInv, hnextV t hstepT, hdone, hbytesT.trans hbytesV⟩

/-- A peer that is given by the inputs of the cycles of a payload and its acknowledgment. -/
theorem echoingPeer_of_sPay (l : List CycleInput) {s : State} {ack : CycleInput} {rest : List CycleInput} (hinv : s.Inv)
    (hf : s.fsm = .sPay) (hinputs : s.inputs = l ++ ack :: rest) (hl : s.k.toNat + l.length = s.bsize.toNat)
    (haccept : ∀ x ∈ l, x.rst = false ∧ x.tx = .accept) (hr : ack.rst = false) (hrx : ack.rx = .data s.hdr) :
    echoingPeer (l.length + 1) s := by
  have hk := hinv.k_lt_bsize hf
  induction l generalizing s with
  | nil => simp only [List.length_nil] at hl; omega
  | cons x l ih =>
    obtain ⟨hxr, hxtx⟩ := haccept x List.mem_cons_self
    have hr' := (nextInput_rst hinputs).trans hxr
    have htx' := (nextInput_tx hinputs).trans hxtx
    refine ⟨hr', fun _ => htx', fun hack => by simp [hf] at hack, fun t hstep => ?_⟩
    obtain ⟨u, hu, htInv⟩ := hinv.exists_step
    cases hu.symm.trans hstep
    have htail := inputs_after hinputs hstep
    have hengine := engine_after_sPay hr' hstep hinv hf htx'
    rw [List.length_cons] at hl
    by_cases hlast : s.k.toNat + 1 = s.bsize.toNat
    case pos =>
      obtain rfl : l = [] := List.eq_nil_of_length_eq_zero (by omega)
      rw [if_pos hlast] at hengine
      have hfT : t.fsm = .sAck := congrArg EngineView.fsm hengine
      have hhdrT : t.hdr = s.hdr := congrArg EngineView.hdr hengine
      refine ⟨(nextInput_rst htail).trans hr, fun hvalid => by simp [State.txValid, hfT] at hvalid, fun _ => ?_,
        fun _ _ => trivial⟩
      rw [nextInput_rx htail, hhdrT]
      exact hrx
    case neg =>
      rw [if_neg hlast] at hengine
      have hfT : t.fsm = .sPay := (congrArg EngineView.fsm hengine).trans hf
      have hhdrT : t.hdr = s.hdr := congrArg EngineView.hdr hengine
      have hbsizeT : t.bsize = s.bsize := congrArg EngineView.bsize hengine
      have hcount : t.k.toNat = s.k.toNat + 1 :=
        (congrArg (fun e : EngineView => e.k.toNat) hengine).trans (count_toNat hk)
      exact ih htInv hfT htail (by rw [hcount, hbsizeT]; omega) (fun y hy => haccept y (List.mem_cons_of_mem x hy))
        (by rw [hhdrT]; exact hrx) (htInv.k_lt_bsize hfT)

/-- Settles O57: the inputs are those of a peer that accepts and echoes at once. -/
theorem sendBlockRun : Obligations.SendBlockRun := by
  intro s l rest ack hinv hf hinputs hl haccept hr hrx
  have hpeer : echoingPeer (s.bsize.toNat + 2 + 0) s := by
    cases l with
    | nil => simp at hl
    | cons x l =>
      obtain ⟨hxr, hxtx⟩ := haccept x List.mem_cons_self
      have hr' := (nextInput_rst hinputs).trans hxr
      have htx' := (nextInput_tx hinputs).trans hxtx
      refine ⟨hr', fun _ => htx', fun hack => by simp [hf] at hack, fun t hstep => ?_⟩
      obtain ⟨u, hu, htInv⟩ := hinv.exists_step
      cases hu.symm.trans hstep
      have htail := inputs_after hinputs hstep
      have hengine := engine_after_sHdr hr' hstep hf htx'
      have hkT : t.k = 0 := congrArg EngineView.k hengine
      have hhdrT : t.hdr = s.hdr := congrArg EngineView.hdr hengine
      have hbsizeT : t.bsize = s.bsize := congrArg EngineView.bsize hengine
      rw [List.length_cons, Nat.add_right_cancel_iff] at hl
      rw [Nat.add_zero, ← hl]
      exact echoingPeer_of_sPay l htInv (congrArg EngineView.fsm hengine) htail (by simp [hkT, hbsizeT, hl])
        (fun y hy => haccept y (List.mem_cons_of_mem x hy)) hr (by rw [hhdrT]; exact hrx)
  obtain ⟨t, ⟨hrun, hsent, hconsumed⟩, -, -, ⟨hpos, hfirst, -, hend⟩, -⟩ := run_sendBlock hinv hf hpeer
  exact ⟨t, hrun, hpos, hfirst, hend, hsent, hconsumed⟩

/-! ## A whole SEND -/

/-- The packer reads the block's bytes only (40_codec.md R141). -/
theorem packHeader_take (p : List Byte) (n : Nat) (first : Bool) : packHeader (p.take n) n first = packHeader p n first := by
  rw [packHeader, packHeader, crc4, crc4, List.take_take, Nat.min_self]

/-- No bytes make no frames. -/
theorem framesOf_nil (fuel : Nat) (first : Bool) : framesOf fuel first [] = [] := by
  cases fuel <;> simp [framesOf]

/-- The frames of bytes that remain begin with the block at POS, whose header is HDR (30_encoding.md R111). -/
theorem framesOf_block {s : State} (hinv : s.Inv) (hf : s.fsm = .sHdr) (fuel : Nat) :
    framesOf (fuel + 1) s.first (s.bufBlock s.pos.toNat (s.len.toNat - s.pos.toNat)) =
      s.hdr :: s.bufBlock s.pos.toNat s.bsize.toNat ++
        framesOf fuel false
          (s.bufBlock (s.pos.toNat + s.bsize.toNat) (s.len.toNat - s.pos.toNat - s.bsize.toNat)) := by
  obtain ⟨h1, h8, hpos, -, hbsize, -⟩ := hinv.running (by simp [hf])
  have hhdr := hinv.headerPacked (.inl hf)
  rw [State.HeaderPacked, enc_eq_some _ _ _ h1 h8, Option.some.injEq] at hhdr
  have hne : s.bufBlock s.pos.toNat (s.len.toNat - s.pos.toNat) ≠ [] :=
    List.ne_nil_of_length_pos (by rw [State.length_bufBlock]; omega)
  rw [framesOf, if_neg hne]
  simp only [State.length_bufBlock, ← hbsize]
  rw [← packHeader_take, State.take_bufBlock _ _ (by omega), State.drop_bufBlock, hhdr]

/-- From S_HDR against a peer that accepts and echoes at once the rest of the bytes goes out, block by block, and the command
finishes. -/
theorem run_send (fuel : Nat) {s : State} (hinv : s.Inv) (hf : s.fsm = .sHdr) (hfuel : s.len.toNat - s.pos.toNat ≤ fuel)
    {cycles : Nat}
    (hcycles : cycles = s.len.toNat - s.pos.toNat + 2 * ((s.len.toNat - s.pos.toNat + 7) / 8))
    (hpeer : echoingPeer cycles s) :
    ∃ t, core.run cycles s = .next t ∧
      (t.fsm = .idle ∧ t.err = .noError ∧ t.result = s.len ∧ t.done = true) ∧ t.pos = s.len ∧
      sentDuring cycles s = framesOf fuel s.first (s.bufBlock s.pos.toNat (s.len.toNat - s.pos.toNat)) := by
  induction fuel generalizing s cycles with
  | zero =>
    obtain ⟨-, -, hpos, -⟩ := hinv.running (by simp [hf])
    omega
  | succ fuel ih =>
    obtain ⟨h1, -, hpos, -, hbsize, -⟩ := hinv.running (by simp [hf])
    rw [Config.maxBlock_eq] at hbsize
    obtain ⟨m, hm⟩ : ∃ m, cycles = s.bsize.toNat + 2 + m := ⟨cycles - (s.bsize.toNat + 2), by omega⟩
    subst hm
    obtain ⟨u, hblock, huInv, hpeer, ⟨hposU, hfirstU, hlenU, hend⟩, hbytesU⟩ := run_sendBlock hinv hf hpeer
    rw [framesOf_block hinv hf]
    by_cases hlast : u.pos = s.len
    case pos =>
      rw [if_pos hlast] at hend
      rw [hlast] at hposU
      obtain rfl : m = 0 := by omega
      have hrest : s.len.toNat - s.pos.toNat - s.bsize.toNat = 0 := by omega
      obtain ⟨hrun, hsent, -⟩ := hblock
      rw [hrest, State.bufBlock_zero, framesOf_nil, List.append_nil]
      exact ⟨u, hrun, hend, hlast, hsent⟩
    case neg =>
      rw [if_neg hlast] at hend
      have hleft : s.len.toNat - s.pos.toNat - s.bsize.toNat = u.len.toNat - u.pos.toNat := by rw [hlenU, hposU]; omega
      obtain ⟨t, hrun, hidle, hposT, hsent⟩ := ih huInv hend (by omega) (cycles := m) (by omega) hpeer
      obtain ⟨hrunBoth, hsentBoth, -⟩ := hblock.trans ⟨hrun, rfl, rfl⟩
      rw [hlenU] at hidle hposT
      refine ⟨t, hrunBoth, hidle, hposT, ?_⟩
      rw [hsentBoth, hsent, hleft, hposU, hfirstU, State.bufBlock_of_bufByte hbytesU]

/-- Settles O58: SEND starts the first block at index 0, and the blocks go out one after another. -/
theorem sendWholeTransfer : Obligations.SendWholeTransfer := by
  intro s u cycles hinv hb h0 hfits hexec hcycles hpeer
  obtain ⟨v, hsafe, huInv⟩ := exec_safe .send hinv.bufferOk (s.not_busy_iff.1 hb)
  cases hexec.symm.trans hsafe
  obtain ⟨-, -, hstart⟩ := sendCommandStart s hb
  obtain ⟨hdr, -, hexec'⟩ := hstart h0 hfits
  cases hexec'.symm.trans hexec
  obtain ⟨t, hrun, ⟨hidle, herr, hresult, hdone⟩, hpos, hsent⟩ :=
    run_send s.len.toNat huInv rfl (by simp) (by simpa using hcycles) hpeer
  exact ⟨t, hrun, hidle, hdone, herr, hresult, hpos, hsent⟩

end Sys2Proof.Machine
end

section
/-!
RECEIVE from a peer that is never late (70_reset_and_hazards.md section 4, 42_receive.md R211 to R213, R217): one block and a whole
transfer. O59 and O60.
-/
namespace Sys2Proof.Machine

/-! ## Bytes written into BUF -/

theorem State.writeBytes_append (s : State) (i : Nat) (p q : List Byte) :
    s.writeBytes i (p ++ q) = (s.writeBytes i p).writeBytes (i + p.length) q := by
  induction p generalizing s i with
  | nil => rfl
  | cons b p ih =>
    rw [List.cons_append, State.writeBytes, ih, State.writeBytes, List.length_cons, Nat.add_assoc, Nat.add_comm 1]

/-- What is written into equal bytes gives equal bytes. -/
theorem State.bufByte_writeBytes_congr {s t : State} (h : t.bufByte = s.bufByte) (i : Nat) (bs : List Byte) :
    (t.writeBytes i bs).bufByte = (s.writeBytes i bs).bufByte := by
  funext a
  rw [State.bufByte_writeBytes, State.bufByte_writeBytes, h]

/-- The block written reads back. -/
theorem State.bufBlock_writeBytes (s : State) (i : Nat) (bs : List Byte) :
    (s.writeBytes i bs).bufBlock i bs.length = bs := by
  refine List.ext_getElem (State.length_bufBlock ..) fun j hj hj' => ?_
  simp [State.bufBlock, State.bufByte_writeBytes, hj']

/-! ## The cycles of a block of RECEIVE -/

section ReceiveCycles
variable {s t : State} (hr : s.nextInput.rst = false) (hstep : step s = .next t)
include hr hstep

/-- A header that passes both checks begins the payload (42_receive.md R204). -/
theorem engine_after_rHdr {h : Byte} (hf : s.fsm = .rHdr) (hrx : s.nextInput.rx = .data h)
    (hsize : h.toNat % 8 + 1 ≤ s.bsize.toNat) (hfirst : h.getLsbD 3 = s.first) :
    t.engine = { s.engine with
      hdr := h, rsize := BitVec.ofNat 4 (h.toNat % 8 + 1), k := 0, elapsed := 0, fsm := .rPay } := by
  obtain ⟨u, hu, -, -, hengine⟩ := receiveReadsHeader s hf hr
  cases hu.symm.trans hstep
  rw [hrx] at hengine
  exact hengine.trans ((if_neg (Nat.not_lt.2 hsize)).trans (if_neg (not_not.2 hfirst)))

/-- A payload byte is stored at POS + K, and K counts (42_receive.md R206). -/
theorem engine_after_rPay {b : Byte} (hinv : s.Inv) (hf : s.fsm = .rPay) (hrx : s.nextInput.rx = .data b) :
    t.engine =
        (if s.k.toNat + 1 = s.rsize.toNat then
          { s.engine.counted s.nextInput.tick with buf := t.buf, k := 0, fsm := .rChk }
        else { s.engine.counted s.nextInput.tick with buf := t.buf, k := BitVec.ofNat 4 (s.k.toNat + 1) }) ∧
      t.bufByte = (s.writeByte (s.pos.toNat + s.k.toNat) b).bufByte := by
  obtain ⟨-, u, hu, -, -, hbytes, hengine⟩ := receiveStoresPayload s hinv hf hr
  cases hu.symm.trans hstep
  rw [hrx] at hengine
  refine ⟨hengine, funext fun a => ?_⟩
  rw [hbytes, State.bufByte_writeByte, CycleInput.rxData_eq hrx, hrx]
  simp

/-- The check goes on to the echo exactly when the checksum of the block is the header's (42_receive.md R208). -/
theorem engine_after_rChk (hinv : s.Inv) (hf : s.fsm = .rChk) :
    (t.fsm = .idle → t.done = true) ∧
      t.engine =
        if crc4 (s.bufBlock s.pos.toNat s.rsize.toNat) s.rsize.toNat = s.hdr.extractLsb' 4 4 then
          { s.engine with fsm := .rAck }
        else s.engine.ended .checksumMismatch (if s.rxPartial then s.pos else 0) := by
  obtain ⟨hiff, u, hu, -, -, hdone, hengine⟩ := receiveChecksBlock s hinv hf hr
  cases hu.symm.trans hstep
  exact ⟨hdone, hengine.trans (if_congr (not_iff_not.1 hiff) rfl rfl)⟩

/-- The accepted echo ends the block and leaves BUF as it is (42_receive.md R212). -/
theorem blockDone_after_rAck (hinv : s.Inv) (hf : s.fsm = .rAck) (htx : s.nextInput.tx = .accept) :
    s.BlockDone s.rsize.toNat .rHdr t ∧ t.bufByte = s.bufByte := by
  obtain ⟨hle, u, hu, -, hlast, hmore⟩ := receiveAdvancesBlock s hinv hf hr htx
  cases hu.symm.trans hstep
  obtain ⟨hlen, -⟩ := step_busy_keepsOperands (by simp [hf]) hr hstep
  refine ⟨?_, bufByte_after (by simp [hf]) (by simp [hf]) hr hstep⟩
  by_cases h : s.pos.toNat + s.rsize.toNat = s.len.toNat
  case pos =>
    obtain ⟨hengine, hdone⟩ := hlast h
    exact .finished hlen h hengine hdone
  case neg =>
    have hengine := hmore h
    exact .goesOn hlen (lt_of_le_of_ne hle h) (congrArg EngineView.pos hengine) (congrArg EngineView.first hengine)
      (congrArg EngineView.fsm hengine)

end ReceiveCycles

/-! ## One block of RECEIVE -/

/-- The payload bytes from K on come in, one in each cycle, and go into BUF from POS + K on (42_receive.md R206). -/
theorem run_rPay (q : List Byte) {s : State} {l rest : List CycleInput} (hinv : s.Inv) (hf : s.fsm = .rPay)
    (hq : s.k.toNat + q.length = s.rsize.toNat) (hinputs : s.inputs = l ++ rest)
    (hl : l.map CycleInput.rx = q.map .data) (hrst : ∀ x ∈ l, x.rst = false) :
    ∃ t, Runs q.length s [] q t ∧ t.Inv ∧ t.inputs = rest ∧
      t.engine = { s.engine with buf := t.buf, k := 0, elapsed := t.elapsed, fsm := .rChk } ∧
      t.bufByte = (s.writeBytes (s.pos.toNat + s.k.toNat) q).bufByte := by
  have hk := hinv.k_lt_rsize hf
  induction q generalizing s l with
  | nil => simp only [List.length_nil] at hq; omega
  | cons b q ih =>
    obtain ⟨x, l, rfl, hx, hl⟩ := List.map_eq_cons_iff.1 hl
    have hr := (nextInput_rst hinputs).trans (hrst x List.mem_cons_self)
    have hrx := (nextInput_rx hinputs).trans hx
    obtain ⟨u, hstep, huInv⟩ := hinv.exists_step
    have hone := Runs.ofData hstep (s.rxRd_iff.2 (.inr (.inr (.inl hf)))) hr hrx
    obtain ⟨hengine, hbytes⟩ := engine_after_rPay hr hstep hinv hf hrx
    have hrest := inputs_after hinputs hstep
    rw [List.length_cons] at hq
    by_cases hlast : s.k.toNat + 1 = s.rsize.toNat
    case pos =>
      obtain rfl : q = [] := List.eq_nil_of_length_eq_zero (by omega)
      obtain rfl : l = [] := List.map_eq_nil_iff.1 hl
      rw [if_pos hlast] at hengine
      have helapsed : u.elapsed = countTick s.elapsed s.nextInput.tick := congrArg EngineView.elapsed hengine
      refine ⟨u, hone, huInv, hrest, ?_, hbytes⟩
      rw [hengine, helapsed]
      rfl
    case neg =>
      rw [if_neg hlast] at hengine
      have hpos : u.pos = s.pos := congrArg EngineView.pos hengine
      have hrsize : u.rsize = s.rsize := congrArg EngineView.rsize hengine
      have hfsm : u.fsm = .rPay := (congrArg EngineView.fsm hengine).trans hf
      have hcount : u.k.toNat = s.k.toNat + 1 :=
        (congrArg (fun e : EngineView => e.k.toNat) hengine).trans (count_toNat hk)
      obtain ⟨t, hrun, htInv, hrest', hengine', hbytes'⟩ :=
        ih huInv hfsm (by rw [hcount, hrsize]; omega) hrest hl (fun y hy => hrst y (List.mem_cons_of_mem x hy))
          (huInv.k_lt_rsize hfsm)
      refine ⟨t, ?_, htInv, hrest', by rw [hengine', hengine]; rfl, ?_⟩
      · have hboth := hone.trans hrun
        rwa [Nat.add_comm 1] at hboth
      · rw [hbytes', hpos, hcount, State.bufByte_writeBytes_congr hbytes]
        rfl

/-- In these cycles a header byte and its payload come in, of a block that passes the checks of R_HDR in s (42_receive.md R202 to
R204). -/
structure BlockArrives (s : State) (h : Byte) (p : List Byte) (head : CycleInput) (l : List CycleInput) : Prop where
  head_rst : head.rst = false
  head_rx : head.rx = .data h
  first : h.getLsbD 3 = s.first
  size : p.length = h.toNat % 8 + 1
  fits : p.length ≤ s.bsize.toNat
  payload : l.map CycleInput.rx = p.map .data
  payload_rst : ∀ x ∈ l, x.rst = false

/-- The header and the payload of a block come in and are in BUF for the check (42_receive.md R204, R206). -/
theorem run_receivePayload {s : State} {h : Byte} {p : List Byte} {head : CycleInput} {l rest : List CycleInput}
    (hinv : s.Inv) (hf : s.fsm = .rHdr) (hinputs : s.inputs = head :: l ++ rest) (hblock : BlockArrives s h p head l) :
    ∃ t, Runs (p.length + 1) s [] (h :: p) t ∧ t.Inv ∧ t.inputs = rest ∧
      t.engine = { s.engine with
        hdr := h, rsize := BitVec.ofNat 4 p.length, buf := t.buf, k := 0, elapsed := t.elapsed, fsm := .rChk } ∧
      t.bufByte = (s.writeBytes s.pos.toNat p).bufByte := by
  obtain ⟨hheadRst, hheadRx, hfirst, hsize, hfits, hpayload, hrst⟩ := hblock
  have hr := (nextInput_rst hinputs).trans hheadRst
  have hrx := (nextInput_rx hinputs).trans hheadRx
  obtain ⟨u, hstep, huInv⟩ := hinv.exists_step
  have hheader := Runs.ofData hstep (s.rxRd_iff.2 (.inr (.inl hf))) hr hrx
  have hengine := engine_after_rHdr hr hstep hf hrx (hsize ▸ hfits) hfirst
  rw [← hsize] at hengine
  have hbytes := bufByte_after (by simp [hf]) (by simp [hf]) hr hstep
  have hpos : u.pos = s.pos := congrArg EngineView.pos hengine
  have hk : u.k = 0 := congrArg EngineView.k hengine
  have hrsize : u.rsize.toNat = p.length :=
    (congrArg (fun e : EngineView => e.rsize.toNat) hengine).trans
      ((BitVec.toNat_ofNat ..).trans (Nat.mod_eq_of_lt (hfits.trans_lt s.bsize.isLt)))
  obtain ⟨t, hrun, htInv, hrest, hengine', hbytes'⟩ :=
    run_rPay p huInv (congrArg EngineView.fsm hengine) (by simp [hk, hrsize]) (inputs_after hinputs hstep) hpayload hrst
  refine ⟨t, ?_, htInv, hrest, by rw [hengine', hengine], ?_⟩
  · have hboth := hheader.trans hrun
    rwa [Nat.add_comm 1] at hboth
  · rw [hbytes', hpos, hk, State.bufByte_writeBytes_congr hbytes]
    rfl

/-- The block in BUF for the check is the payload, and its header the one that came. -/
theorem run_receivePayload_check {s t : State} {h : Byte} {p : List Byte} (hfits : p.length ≤ s.bsize.toNat)
    (hengine : t.engine = { s.engine with
      hdr := h, rsize := BitVec.ofNat 4 p.length, buf := t.buf, k := 0, elapsed := t.elapsed, fsm := .rChk })
    (hbytes : t.bufByte = (s.writeBytes s.pos.toNat p).bufByte) :
    t.rsize.toNat = p.length ∧ t.bufBlock t.pos.toNat t.rsize.toNat = p := by
  have hrsize : t.rsize.toNat = p.length :=
    (congrArg (fun e : EngineView => e.rsize.toNat) hengine).trans
      ((BitVec.toNat_ofNat ..).trans (Nat.mod_eq_of_lt (hfits.trans_lt s.bsize.isLt)))
  have hpos : t.pos = s.pos := congrArg EngineView.pos hengine
  exact ⟨hrsize, by rw [hrsize, hpos, State.bufBlock_of_bufByte hbytes, State.bufBlock_writeBytes]⟩

/-- A block with a matching checksum is checked, its header echoed and the block done (42_receive.md R208 to R212). -/
theorem run_receiveBlock {s : State} {h : Byte} {p : List Byte} {head chk echo : CycleInput} {l rest : List CycleInput}
    (hinv : s.Inv) (hf : s.fsm = .rHdr) (hinputs : s.inputs = head :: l ++ chk :: echo :: rest)
    (hblock : BlockArrives s h p head l) (hchk : chk.rst = false) (hecho : echo.rst = false) (haccept : echo.tx = .accept)
    (hck : crc4 p p.length = h.extractLsb' 4 4) :
    ∃ t, Runs (p.length + 3) s [h] (h :: p) t ∧ t.Inv ∧ t.inputs = rest ∧ s.BlockDone p.length .rHdr t ∧
      t.bufByte = (s.writeBytes s.pos.toNat p).bufByte := by
  obtain ⟨u, hrunU, huInv, hrestU, hengineU, hbytesU⟩ := run_receivePayload hinv hf hinputs hblock
  obtain ⟨hrsizeU, hblockU⟩ := run_receivePayload_check hblock.fits hengineU hbytesU
  have hfU : u.fsm = .rChk := congrArg EngineView.fsm hengineU
  have hhdrU : u.hdr = h := congrArg EngineView.hdr hengineU
  have hrU := (nextInput_rst hrestU).trans hchk
  obtain ⟨v, hstepV, hvInv⟩ := huInv.exists_step
  obtain ⟨-, hengineV⟩ := engine_after_rChk hrU hstepV huInv hfU
  rw [hblockU, hrsizeU, hhdrU, if_pos hck] at hengineV
  have hrestV := inputs_after hrestU hstepV
  have hbytesV := bufByte_after (by simp [hfU]) (by simp [hfU]) hrU hstepV
  have hfV : v.fsm = .rAck := congrArg EngineView.fsm hengineV
  have hhdrV : v.hdr = h := (congrArg EngineView.hdr hengineV).trans hhdrU
  have hrsizeV : v.rsize = u.rsize := congrArg EngineView.rsize hengineV
  have hposV : v.pos = s.pos := (congrArg EngineView.pos hengineV).trans (congrArg EngineView.pos hengineU)
  have hlenV : v.len = s.len := (congrArg EngineView.len hengineV).trans (congrArg EngineView.len hengineU)
  have hrV := (nextInput_rst hrestV).trans hecho
  have htxV := (nextInput_tx hrestV).trans haccept
  obtain ⟨t, hstepT, htInv⟩ := hvInv.exists_step
  obtain ⟨hdone, hbytesT⟩ := blockDone_after_rAck hrV hstepT hvInv hfV htxV
  rw [State.BlockDone, hposV, hlenV, hrsizeV, hrsizeU] at hdone
  have hack := Runs.ofAccept hstepT (v.txValid_iff.2 (.inr (.inr hfV))) hrV htxV
  rw [State.txData_header (.inr hfV), hhdrV] at hack
  have hrun := hrunU.trans ((Runs.ofCheck hstepV hfU).trans hack)
  rw [List.nil_append, List.nil_append, List.append_nil, List.append_nil] at hrun
  exact ⟨t, hrun, htInv, inputs_after hrestV hstepT, hdone, hbytesT.trans (hbytesV.trans hbytesU)⟩

/-- Settles O59: with a matching checksum the block is done; with another the check aborts, before anything is sent. -/
theorem receiveBlockRun : Obligations.ReceiveBlockRun := by
  intro s h p l rest head chk echo hinv hf hinputs hheadRst hheadRx hfirst hsize hfits hpayload hrst hchk hecho haccept
  have hblock : BlockArrives s h p head l := ⟨hheadRst, hheadRx, hfirst, hsize, hfits, hpayload, hrst⟩
  refine ⟨fun hck => ?matching, fun hck => ?differing⟩
  case matching =>
    obtain ⟨t, ⟨hrun, hsent, hconsumed⟩, -, -, ⟨hpos, hfirst, -, hend⟩, hbytes⟩ :=
      run_receiveBlock hinv hf hinputs hblock hchk hecho haccept hck
    refine ⟨t, hrun, hpos, hfirst, ?_, hend, hsent, hconsumed⟩
    rw [State.bufBlock_of_bufByte hbytes, State.bufBlock_writeBytes]
  case differing =>
    obtain ⟨u, hrunU, huInv, hrestU, hengineU, hbytesU⟩ := run_receivePayload hinv hf hinputs hblock
    obtain ⟨hrsizeU, hblockU⟩ := run_receivePayload_check hfits hengineU hbytesU
    have hfU : u.fsm = .rChk := congrArg EngineView.fsm hengineU
    have hhdrU : u.hdr = h := congrArg EngineView.hdr hengineU
    have hposU : u.pos = s.pos := congrArg EngineView.pos hengineU
    have hpartialU : u.rxPartial = s.rxPartial := congrArg EngineView.rxPartial hengineU
    obtain ⟨t, hstepT, -⟩ := huInv.exists_step
    obtain ⟨hdone, hengineT⟩ := engine_after_rChk ((nextInput_rst hrestU).trans hchk) hstepT huInv hfU
    rw [hblockU, hrsizeU, hhdrU, if_neg hck] at hengineT
    have hidle : t.fsm = .idle := congrArg EngineView.fsm hengineT
    have hresult : t.result = if u.rxPartial then u.pos else 0 := congrArg EngineView.result hengineT
    obtain ⟨hrun, hsent, hconsumed⟩ := hrunU.trans (Runs.ofCheck hstepT hfU)
    rw [List.append_nil] at hconsumed
    exact ⟨t, hrun, hidle, congrArg EngineView.err hengineT, hdone hidle, (congrArg EngineView.pos hengineT).trans hposU,
      by rw [hresult, hpartialU, hposU], hsent, hconsumed⟩

/-! ## A whole RECEIVE -/

/-- A packed header as the receiver takes it apart (40_codec.md R142, R146). -/
theorem packHeader_fields (p : List Byte) (first : Bool) (h1 : 1 ≤ p.length) (h8 : p.length ≤ 8) :
    (packHeader p p.length first).getLsbD 3 = first ∧ p.length = (packHeader p p.length first).toNat % 8 + 1 ∧
      crc4 p p.length = (packHeader p p.length first).extractLsb' 4 4 := by
  obtain ⟨h, henc, hck, hfirst, hcode⟩ := headerRoundTrip p p.length first h1 h8
  cases (enc_eq_some p p.length first h1 h8).symm.trans henc
  obtain ⟨hsize, -⟩ := everyHeaderByteUnpacks (packHeader p p.length first)
  rw [readSize_toNat] at hsize
  have hcode' : (headerSizeCode (packHeader p p.length first)).toNat = p.length - 1 := hcode
  exact ⟨hfirst, by omega, hck.symm⟩

/-- From R_HDR the rest of the bytes comes in, block by block, and the command finishes. -/
theorem run_receive (blocks : List (List Byte)) {s : State} (hinv : s.Inv) (hf : s.fsm = .rHdr)
    (hblocks : ∀ p ∈ blocks, 1 ≤ p.length ∧ p.length ≤ 8) (htotal : s.pos.toNat + blocks.flatten.length = s.len.toNat)
    (harrive : framesArrive s.first blocks s.inputs) :
    ∃ t, Runs (blocks.flatten.length + 3 * blocks.length) s (headersOf s.first blocks) (blockFrames s.first blocks) t ∧
      (t.fsm = .idle ∧ t.err = .noError ∧ t.result = s.len ∧ t.done = true) ∧ t.pos = s.len ∧
      t.bufByte = (s.writeBytes s.pos.toNat blocks.flatten).bufByte := by
  induction blocks generalizing s with
  | nil =>
    obtain ⟨-, -, hpos, -⟩ := hinv.running (by simp [hf])
    rw [List.flatten_nil, List.length_nil] at htotal
    omega
  | cons p ps ih =>
    obtain ⟨hp1, hp8⟩ := hblocks p List.mem_cons_self
    obtain ⟨head, chk, echo, l, rest, hinputs, hrst, hheadRx, hpayload, haccept, harrive⟩ := harrive
    obtain ⟨hfirst, hsize, hck⟩ := packHeader_fields p s.first hp1 hp8
    obtain ⟨-, -, -, -, hbsize, -⟩ := hinv.running (by simp [hf])
    rw [Config.maxBlock_eq] at hbsize
    rw [List.flatten_cons, List.length_append] at htotal
    have hblock : BlockArrives s (packHeader p p.length s.first) p head l :=
      ⟨hrst head (by simp), hheadRx, hfirst, hsize, by omega, hpayload, fun x hx => hrst x (by simp [hx])⟩
    obtain ⟨u, hrunU, huInv, hrestU, ⟨hposU, hfirstU, hlenU, hend⟩, hbytesU⟩ :=
      run_receiveBlock hinv hf hinputs hblock (hrst chk (by simp)) (hrst echo (by simp)) haccept hck
    by_cases hlast : u.pos = s.len
    case pos =>
      rw [if_pos hlast] at hend
      rw [hlast] at hposU
      have hnone : ps.flatten = [] := List.eq_nil_of_length_eq_zero (by omega)
      obtain rfl : ps = [] := List.eq_nil_iff_forall_not_mem.2 fun q hq => by
        obtain ⟨hq1, -⟩ := hblocks q (List.mem_cons_of_mem p hq)
        simp [List.flatten_eq_nil_iff.1 hnone q hq] at hq1
      exact ⟨u, by simpa [headersOf, blockFrames] using hrunU, hend, hlast, by simpa using hbytesU⟩
    case neg =>
      rw [if_neg hlast] at hend
      obtain ⟨t, hrun, hidle, hpos, hbytes⟩ :=
        ih huInv hend (fun q hq => hblocks q (List.mem_cons_of_mem p hq)) (by rw [hposU, hlenU]; omega)
          (by rw [hfirstU, hrestU]; exact harrive)
      rw [hlenU] at hidle hpos
      rw [hfirstU] at hrun
      refine ⟨t, ?_, hidle, hpos, ?_⟩
      · have hboth := hrunU.trans hrun
        have hcycles : p.length + 3 + (ps.flatten.length + 3 * ps.length) =
            (p :: ps).flatten.length + 3 * (p :: ps).length := by
          rw [List.flatten_cons, List.length_append, List.length_cons]
          omega
        rwa [hcycles] at hboth
      · rw [hbytes, hposU, State.bufByte_writeBytes_congr hbytesU, ← State.writeBytes_append, List.flatten_cons]

/-- Settles O60: RECEIVE reads the first header for index 0, and the blocks come in one after another. -/
theorem receiveWholeTransfer : Obligations.ReceiveWholeTransfer := by
  intro s u blocks cycles hinv hb h0 hfits htotal hblocks hexec harrive hcycles
  obtain ⟨v, hsafe, huInv⟩ := exec_safe .receive hinv.bufferOk (s.not_busy_iff.1 hb)
  cases hexec.symm.trans hsafe
  obtain ⟨-, -, hstart⟩ := receiveCommandStart s hb
  cases (hstart h0 hfits).symm.trans hexec
  obtain ⟨t, ⟨hrun, hsent, hconsumed⟩, ⟨hidle, herr, hresult, hdone⟩, hpos, hbytes⟩ :=
    run_receive blocks huInv rfl hblocks (by simpa using htotal) harrive
  rw [htotal, ← hcycles] at hrun hsent hconsumed
  refine ⟨t, hrun, hidle, hdone, herr, hresult, hpos, ?_, hsent, hconsumed⟩
  rw [State.bufBlock_of_bufByte hbytes, ← htotal]
  exact State.bufBlock_writeBytes _ _ _

end Sys2Proof.Machine
end
